-- ==== Sys2Proof/Word.lean ====
section
/-! DEFINITION. The word types of the block: 32-bit registers (R22) and 8-bit memory bytes (R50). Symbol values, counts and
addresses are plain naturals once read, since R9 computes on unbounded naturals. -/

namespace Sys2Proof

/-- A register of the window, and a command word (R22, R80). -/
abbrev Word := BitVec 32

/-- One byte of memory (R50). -/
abbrev Byte := BitVec 8

end Sys2Proof
end

