-- ==== Sys2Proof/Config.lean ====
section
/-! DEFINITION. What an implementation fixes (the parameters of R7) and the free values of the spec (`draw_4` of R73,
`draw_8` of R201). -/

namespace Sys2Proof

/-- The permitted widths `SYMW` of one symbol word (R7). -/
inductive SymWidth where
  | w16
  | w32
  | w64
deriving DecidableEq, Repr

/-- `SYMB`, the bytes of one symbol word: `SYMW / 8` (R7). -/
def SymWidth.bytes : SymWidth → Nat
  | .w16 => 2
  | .w32 => 4
  | .w64 => 8

/-- A piece of the address space in which the platform memory answers (R7 `MemAdmit`, R61). -/
structure Region where
  base : Nat
  size : Nat
deriving DecidableEq, Repr

/-- The parameters of R7 that all BPK blocks of one platform share. `REG_BASE` stands in each block's own record and
`NINST` is the number of those records. They are data of the state that no step changes (log 1). -/
structure Platform where
  /-- `SYMW` -/
  symWidth : SymWidth
  /-- `ADDR_W`, at most 32 (R27, R35; log 17) -/
  addrWidth : Nat
  /-- the regions in which `MemAdmit` holds -/
  admitted : List Region
  /-- `COHERENT` -/
  coherent : Bool
deriving DecidableEq, Repr

/-- The platform of the state after reset: `SYMW` = 32, `ADDR_W` = 32 and `COHERENT` = true as R7 fixes or defaults them;
DESIGN CHOICE: `MemAdmit`, which R7 leaves OPEN, holds on the whole address space (log 1). -/
def Platform.standard : Platform :=
  { symWidth := .w32, addrWidth := 32, admitted := [⟨0, 2 ^ 32⟩], coherent := true }

/-- `draw_4` of R73: the padding nibble of a 4-bit or 12-bit pack of odd count. A free value: it has no body, and is
applied to the counter of draws, so that nothing can be proved of any nibble drawn (log 5). -/
opaque Config.draw4 : Nat → BitVec 4

/-- `draw_8` of R201: a destination byte of a command that a reset interrupted. A free value, as `draw4` (log 5). -/
opaque Config.draw8 : Nat → Byte

end Sys2Proof
end

