-- ==== Sys2Proof/Syntax.lean ====
section
/-! DEFINITION. The ten commands of the block (R3, R90), with the two notions they are made of: direction and width. -/

namespace Sys2Proof

/-- The supported symbol widths: exactly 4, 6, 8 and 12 bits (R2). -/
inductive Width where
  | w4
  | w6
  | w8
  | w12
deriving DecidableEq, Repr

/-- The width in bits. -/
def Width.bits : Width → Nat
  | .w4 => 4
  | .w6 => 6
  | .w8 => 8
  | .w12 => 12

/-- The direction of a command (R81). -/
inductive Dir where
  /-- symbols to bytes -/
  | pack
  /-- bytes to symbols -/
  | unpack
deriving DecidableEq, Repr

/-- The commands of R3, one constructor per row of the opcode map R90. Their buffers and count come from registers (R87);
the dispatched forms carry the run-time `bitCount`, an integer 0..255 (R84), which `Instr.wf` bounds. -/
inductive Instr where
  | pack4
  | pack6
  | pack8
  | pack12
  | unpack4
  | unpack6
  | unpack8
  | unpack12
  | pack (bitCount : Nat)
  | unpack (bitCount : Nat)
deriving DecidableEq, Repr

end Sys2Proof
end

