-- ==== Sys2Proof/Machine/State.lean ====
section
/-! DEFINITION. The state of the machine as plain data (10_state.md), the faults and refusals, and the state after reset. -/

namespace Sys2Proof.Machine

/-- The phase of a BPK block, which STATUS.BUSY shows (R41). -/
inductive Phase where
  | idle
  | busy
deriving DecidableEq, Repr

/-- The error codes of R170. The values 5, 6 and 7 are never produced (R33) and have no constructor. -/
inductive ErrCode where
  | ok
  | ecmd
  | ewidth
  | ealign
  | erange
deriving DecidableEq, Repr

/-- The byte addresses `base .. base + len - 1`. -/
structure Range where
  base : Nat
  len : Nat
deriving DecidableEq, Repr

/-- The two ranges of a command and its direction (R44): what the buffer hazard of R206 protects. -/
structure Window where
  dir : Dir
  sym : Range
  pkd : Range
deriving DecidableEq, Repr

/-- The state of one BPK block: its register window (R22), its latched operands (R40) and its phase (R41). CMD reads as
`lCmd` (R25), STATUS is made of `phase`, `done`, `drop` and `err` (R29), INFO and offset 0x1C hold nothing (R36, R37). -/
structure Inst where
  /-- `REG_BASE` of this block (R7, R62) -/
  regBase : Nat
  /-- COUNT (R26) -/
  count : Word
  /-- SYMADDR (R27) -/
  symAddr : Word
  /-- PKDADDR (R28) -/
  pkdAddr : Word
  /-- NBYTES (R35) -/
  nbytes : Word
  /-- STATUS.BUSY (R30, R41) -/
  phase : Phase
  /-- STATUS.DONE (R31) -/
  done : Bool
  /-- STATUS.DROP (R32) -/
  drop : Bool
  /-- STATUS.ERR (R33) -/
  err : ErrCode
  /-- `L_CMD` (R40) -/
  lCmd : Word
  /-- `L_COUNT` (R40) -/
  lCount : Word
  /-- `L_SYMADDR` (R40) -/
  lSymAddr : Word
  /-- `L_PKDADDR` (R40) -/
  lPkdAddr : Word
  /-- the ranges of the commands accepted here since a host last read BUSY 0 (R206; log 9) -/
  windows : List Window
deriving DecidableEq, Repr

/-- One operation of the world outside the blocks (R190, R191): register and memory accesses of a host, its cache
maintenance (R67), and the platform's reset of a block (R200). Addresses are bus addresses. -/
inductive HostOp where
  /-- a register write of `size` bytes -/
  | regWrite (addr size : Nat) (v : Word)
  /-- a register read of `size` bytes -/
  | regRead (addr size : Nat)
  /-- a host write of consecutive memory bytes -/
  | memWrite (addr : Nat) (bytes : List Byte)
  /-- a host read of `n` consecutive memory bytes -/
  | memRead (addr n : Nat)
  /-- the host cleans `n` bytes from its caches -/
  | clean (addr n : Nat)
  /-- the host invalidates `n` bytes in its caches -/
  | invalidate (addr n : Nat)
  /-- reset of block number `k` -/
  | reset (k : Nat)
deriving DecidableEq, Repr

/-- What the schedule can say next (R179: host steps and completion steps are separate, in some order; log 6). -/
inductive Input where
  /-- an operation from outside -/
  | host (op : HostOp)
  /-- WAIT of R97: poll STATUS of the block at `base` until BUSY reads 0 -/
  | wait (base : Nat)
  /-- block number `k` takes its completion step, if it is Busy -/
  | block (k : Nat)
deriving DecidableEq, Repr

/-- What the last host read returned (R23; log 16). -/
inductive Reply where
  | none
  /-- a whole register -/
  | word (v : Word)
  /-- memory bytes, lowest address first -/
  | bytes (bs : List Byte)
deriving DecidableEq, Repr

/-- The model-only faults of R176. Each is safe: the model stops where the hardware does something. -/
inductive Fault where
  /-- raised by the pack commands when a symbol word is `2^w` or more (R120). Safe. -/
  | symbolRange
  /-- raised by every command whose two ranges share a byte (R60, R103). Safe. -/
  | overlap
  /-- raised by a command, or by a host memory access, at an address `MemAdmit` does not admit (R61, R103; log 15). Safe. -/
  | busFault
  /-- raised by an access to a command's ranges against the hazard rules: by a host memory access (R206), by a command or a
  reset on another block (R186), by a host that leaves out the cache maintenance of R67 (R191). Safe. -/
  | bufferRace
deriving DecidableEq, Repr

/-- The refusals of the model. -/
inductive Refusal where
  /-- raised by an arm of `exec` whose instruction has no meaning yet (none has). Safe. -/
  | notModelled (mnemonic : String)
  /-- raised by a register access of a width other than 32 bits, at an offset that is no multiple of 4, or outside every
  register window (R23, R178). Safe. -/
  | registerAccess
  /-- raised by a schedule entry that names a block the platform does not have (log 14). Safe. -/
  | noSuchBlock
  /-- raised by every step of a state that is marked refused (R178). Safe. -/
  | stateRefused
deriving DecidableEq, Repr

/-- Memory: the bytes that differ from what an unlisted address reads as, by rising address (R50; log 4). -/
abbrev Memory := List Host.Cell

/-- What an unlisted address reads as. DESIGN CHOICE: the spec gives memory no contents before the first write (log 4). -/
def unlistedByte : Byte := 0

/-- The canonical form of a memory. -/
abbrev Memory.wf (m : Memory) : Prop :=
  m.Pairwise (fun c d => c.1 < d.1) ∧ ∀ c ∈ m, c.2 ≠ unlistedByte

/-- The whole machine (R21, R190): the platform's parameters, its blocks, its memory, the fault set `F` and the outside
world's pending operations. -/
structure State where
  /-- the parameters of R7 -/
  plat : Platform
  /-- the BPK blocks, `NINST` of them (R186) -/
  insts : List Inst
  /-- the number of the block whose step it is (log 6) -/
  turn : Nat
  /-- the platform's memory (R44, R50) -/
  mem : Memory
  /-- the fault set `F` (R43, R176), without repeats -/
  faults : List Fault
  /-- the mark of R178 -/
  refused : Bool
  /-- the schedule: what the outside world does next (log 6) -/
  inputs : List Input
  /-- how many free values have been drawn (log 5) -/
  draws : Nat
  /-- what the last host read returned (log 16) -/
  reply : Reply
  /-- addresses a host wrote and has not cleaned, where COHERENT is false (R67; log 12) -/
  uncleaned : List Nat
  /-- destination addresses of completed commands and of resets that no host has invalidated, where COHERENT is false (R67; log 12) -/
  stale : List Nat
deriving DecidableEq, Repr

/-- A block after reset (R45, R200): every register and hidden field 0, phase Idle. -/
def Inst.reset (regBase : Nat) : Inst :=
  { regBase := regBase, count := 0, symAddr := 0, pkdAddr := 0, nbytes := 0, phase := .idle, done := false, drop := false,
    err := .ok, lCmd := 0, lCount := 0, lSymAddr := 0, lPkdAddr := 0, windows := [] }

/-- The machine at power-on (R45). DESIGN CHOICE: one block, at `REG_BASE` 0 (log 2, 3); the values of the model's own
fields (log 5, 6, 12, 14, 16). -/
def State.reset : State :=
  { plat := Platform.standard, insts := [Inst.reset 0], turn := 0, mem := [], faults := [], refused := false, inputs := [],
    draws := 0, reply := .none, uncleaned := [], stale := [] }

/-- The outcome of a step of this machine. -/
abbrev Result := Host.Outcome State Fault Refusal

end Sys2Proof.Machine
end

