-- ==== Sys2Proof/Machine/Flags.lean ====
section
/-! DEFINITION. STATUS and the registers that launching and completing a command write (R29 to R35, R101, R102, R106). -/

namespace Sys2Proof.Machine

/-- The code of STATUS.ERR, bits 6:4 (R33, R170). -/
def errBits : ErrCode → BitVec 3
  | .ok => 0
  | .ecmd => 1
  | .ewidth => 2
  | .ealign => 3
  | .erange => 4

/-- STATUS.BUSY shows the phase (R41). -/
def busyBit (b : Inst) : Bool :=
  match b.phase with
  | .idle => false
  | .busy => true

/-- STATUS read whole (R29): BUSY, DONE, DROP, a reserved 0, ERR, and 25 reserved zeros. -/
def statusWord (b : Inst) : Word :=
  (0 : BitVec 25) ++ errBits b.err ++ (0 : BitVec 1) ++ BitVec.ofBool b.drop ++ BitVec.ofBool b.done ++
    BitVec.ofBool (busyBit b)

/-- A host write of STATUS: a 1 in bit 1 clears DONE, a 1 in bit 2 clears DROP, nothing else changes (R31, R32, R34). -/
def writeStatus (v : Word) (b : Inst) : Inst :=
  { b with done := b.done && !v.getLsbD 1, drop := b.drop && !v.getLsbD 2 }

/-- Acceptance of the command word `v` (R101): the operands are latched, BUSY is set, DONE, ERR and NBYTES are cleared. -/
def acceptRegs (v : Word) (b : Inst) : Inst :=
  { b with lCmd := v, lCount := b.count, lSymAddr := b.symAddr, lPkdAddr := b.pkdAddr,
           phase := .busy, done := false, err := .ok, nbytes := 0 }

/-- A CMD write that is dropped (R102). -/
def dropRegs (b : Inst) : Inst := { b with drop := true }

/-- `complete(code)` (R106): ERR takes the code, NBYTES the byte count `n` of a command that succeeded and 0 otherwise,
BUSY is cleared and DONE set. -/
def completeRegs (code : ErrCode) (n : Nat) (b : Inst) : Inst :=
  { b with err := code, nbytes := if code = .ok then BitVec.ofNat 32 n else 0, phase := .idle, done := true }

/-- Reset of a block (R200): every register and hidden field takes its value of R45. `REG_BASE` is the platform's, and the open
hazards are the host's duty, which only a STATUS read of BUSY 0 ends (R206; log 9). -/
def resetRegs (b : Inst) : Inst := { Inst.reset b.regBase with windows := b.windows }

end Sys2Proof.Machine
end

