-- ==== Sys2Proof/Machine/Memory.lean ====
section
/-! DEFINITION. Bytes and memory: the primitives of R9 and R10 over the canonical list of cells. -/

namespace Sys2Proof.Machine

/-- `byte(v)`: `v` modulo 256 (R9). -/
def byte (v : Nat) : Byte := BitVec.ofNat 8 v

/-- The byte at an address. -/
def readByte : Memory → Nat → Byte
  | [], _ => unlistedByte
  | c :: m, a => if c.1 = a then c.2 else readByte m a

/-- Put a cell into its place by address. -/
def insertCell (c : Host.Cell) : Memory → Memory
  | [] => [c]
  | d :: m => if c.1 < d.1 then c :: d :: m else d :: insertCell c m

/-- Write one byte, keeping the canonical form: the value of an unlisted address is not listed. -/
def writeByte (m : Memory) (a : Nat) (v : Byte) : Memory :=
  let others := m.filter (fun c => c.1 ≠ a)
  if v = unlistedByte then others else insertCell (a, v) others

/-- Write consecutive bytes from address `a` upwards. -/
def writeBytes : Memory → Nat → List Byte → Memory
  | m, _, [] => m
  | m, a, b :: bs => writeBytes (writeByte m a b) (a + 1) bs

/-- The `n` bytes from address `a` upwards. -/
def readBytes (m : Memory) (a n : Nat) : List Byte :=
  (List.range n).map (fun j => readByte m (a + j))

/-- Bytes as an unsigned integer, the least significant byte first (R10, R52). -/
def leValue : List Byte → Nat
  | [] => 0
  | b :: bs => b.toNat + 256 * leValue bs

/-- The low `8 * n` bits of `v` as `n` bytes, the least significant first (R10, R52). -/
def leBytes (n v : Nat) : List Byte :=
  (List.range n).map (fun j => byte (v >>> (8 * j)))

/-- `MemRead(addr, n)` (R10). -/
def memRead (m : Memory) (a n : Nat) : Nat := leValue (readBytes m a n)

/-- Write a fresh `draw_8` to each listed address (R201), the draws counted from `c` (log 5). -/
def scatterDraws : Memory → Nat → List Nat → Memory
  | m, _, [] => m
  | m, c, a :: as => scatterDraws (writeByte m a (Config.draw8 c)) (c + 1) as

end Sys2Proof.Machine
end

