-- ==== Sys2Proof/WellFormed.lean ====
section
/-! DEFINITION. Well-formed syntax and parameters: what the encoding can hold and what R7 permits. -/

namespace Sys2Proof

/-- BITCOUNT is eight bits wide: a dispatched command carries an integer 0..255 (R84, R98). -/
def Instr.wf : Instr → Bool
  | .pack b => b < 256
  | .unpack b => b < 256
  | .pack4 => true
  | .pack6 => true
  | .pack8 => true
  | .pack12 => true
  | .unpack4 => true
  | .unpack6 => true
  | .unpack8 => true
  | .unpack12 => true

/-- Addresses fit the 32-bit address registers: `ADDR_W` is at least 1 and at most 32 (R27, R35). -/
def Platform.wf (p : Platform) : Bool :=
  0 < p.addrWidth && p.addrWidth ≤ 32

end Sys2Proof
end

