-- ==== Sys2Proof/Decode.lean ====
section
/-! DEFINITION. The command word: its fields (R80 to R85), the decoder (R91, R92) and the encoder (R90). -/

namespace Sys2Proof

/-- Why a word is illegal (R92). All three complete with ECMD, so which one holds is not observable (R91). -/
inductive EncodingError where
  /-- some bit of RSVD is 1 (R85) -/
  | reservedBits
  /-- SEL = 1 and BITCOUNT is not 0 -/
  | bitCountInDirect
  /-- SEL = 0 and WCODE is not 0 -/
  | widthCodeInDispatched
deriving DecidableEq, Repr

/-- DIR, bit 0 (R81). -/
def dirField (v : Word) : Dir :=
  if v.getLsbD 0 then .unpack else .pack

/-- SEL, bit 1: true for the direct form (R82). -/
def selField (v : Word) : Bool := v.getLsbD 1

/-- WCODE, bits 3:2 (R83). -/
def wcodeField (v : Word) : BitVec 2 := v.extractLsb' 2 2

/-- BITCOUNT, bits 11:4 (R84). -/
def bitCountField (v : Word) : BitVec 8 := v.extractLsb' 4 8

/-- RSVD, bits 31:12 (R85). -/
def rsvdField (v : Word) : BitVec 20 := v.extractLsb' 12 20

/-- The closed enumeration of WCODE (R83). -/
def Width.ofCode (c : BitVec 2) : Width :=
  if c = 0b00#2 then .w4 else if c = 0b01#2 then .w6 else if c = 0b10#2 then .w8 else .w12

/-- The width code of a direct command (R83). -/
def Width.code : Width → BitVec 2
  | .w4 => 0b00#2
  | .w6 => 0b01#2
  | .w8 => 0b10#2
  | .w12 => 0b11#2

/-- The direct command of a direction and width (R82, R90). -/
def directInstr : Dir → Width → Instr
  | .pack, .w4 => .pack4
  | .pack, .w6 => .pack6
  | .pack, .w8 => .pack8
  | .pack, .w12 => .pack12
  | .unpack, .w4 => .unpack4
  | .unpack, .w6 => .unpack6
  | .unpack, .w8 => .unpack8
  | .unpack, .w12 => .unpack12

/-- The dispatched command of a direction and bit count (R82, R90). -/
def dispatchedInstr : Dir → Nat → Instr
  | .pack, b => .pack b
  | .unpack, b => .unpack b

/-- R91, total on all words: the command a word spells, or the reason it spells none. The width of a dispatched command is
found when it runs (R160), so an unsupported one is a legal encoding here (R93). -/
def decode (v : Word) : Except EncodingError Instr :=
  if rsvdField v ≠ 0 then .error .reservedBits
  else if selField v then
    if bitCountField v ≠ 0 then .error .bitCountInDirect
    else .ok (directInstr (dirField v) (Width.ofCode (wcodeField v)))
  else
    if wcodeField v ≠ 0 then .error .widthCodeInDispatched
    else .ok (dispatchedInstr (dirField v) (bitCountField v).toNat)

/-- The five fields of R80 laid out as one word, RSVD zero. -/
def layoutWord (bitCount : BitVec 8) (wcode : BitVec 2) (sel dir : BitVec 1) : Word :=
  (0 : BitVec 20) ++ bitCount ++ wcode ++ sel ++ dir

/-- The word of a command (R90): the direct words by width code, the dispatched words by bit count. -/
def encode : Instr → Word
  | .pack4 => layoutWord 0 Width.w4.code 1 0
  | .pack6 => layoutWord 0 Width.w6.code 1 0
  | .pack8 => layoutWord 0 Width.w8.code 1 0
  | .pack12 => layoutWord 0 Width.w12.code 1 0
  | .unpack4 => layoutWord 0 Width.w4.code 1 1
  | .unpack6 => layoutWord 0 Width.w6.code 1 1
  | .unpack8 => layoutWord 0 Width.w8.code 1 1
  | .unpack12 => layoutWord 0 Width.w12.code 1 1
  | .pack b => layoutWord (BitVec.ofNat 8 b) 0 0 0
  | .unpack b => layoutWord (BitVec.ofNat 8 b) 0 0 1

/-- The `mask` column of R90. -/
def rowMask : Instr → Word
  | .pack _ => 0xFFFFF00F#32
  | .unpack _ => 0xFFFFF00F#32
  | .pack4 => 0xFFFFFFFF#32
  | .pack6 => 0xFFFFFFFF#32
  | .pack8 => 0xFFFFFFFF#32
  | .pack12 => 0xFFFFFFFF#32
  | .unpack4 => 0xFFFFFFFF#32
  | .unpack6 => 0xFFFFFFFF#32
  | .unpack8 => 0xFFFFFFFF#32
  | .unpack12 => 0xFFFFFFFF#32

/-- The `match` column of R90. -/
def rowMatch : Instr → Word
  | .pack4 => 0x00000002#32
  | .pack6 => 0x00000006#32
  | .pack8 => 0x0000000A#32
  | .pack12 => 0x0000000E#32
  | .unpack4 => 0x00000003#32
  | .unpack6 => 0x00000007#32
  | .unpack8 => 0x0000000B#32
  | .unpack12 => 0x0000000F#32
  | .pack _ => 0x00000000#32
  | .unpack _ => 0x00000001#32

/-- The command word read from the low `nbits` bits of `w`, numbered as the opcode table numbers them. There is one length,
32 bits, written in one register access (R86). -/
def wordOfBits (nbits w : Nat) : Word := BitVec.ofNat 32 (w % 2 ^ nbits)

/-- The command the decoder reads from a table word; none where it refuses the word. -/
def decodeTableWord (nbits w : Nat) : Option Instr :=
  match decode (wordOfBits nbits w) with
  | .ok i => some i
  | .error _ => none

end Sys2Proof
end

