-- ==== Sys2Proof/Machine/Operands.lean ====
section
/-! DEFINITION. The operands of a command: its width, its two memory ranges, and the checks that R103 makes of them. -/

namespace Sys2Proof.Machine

/-- The width-select dispatcher (R160): no width means EWIDTH (R161, R162). -/
def dispatch (bitCount : Nat) : Option Width :=
  match bitCount with
  | 4 => some .w4
  | 6 => some .w6
  | 8 => some .w8
  | 12 => some .w12
  | _ => none

/-- The direction and width a command runs with (R91); none for a dispatched command of an unsupported width. -/
def commandJob : Instr → Option (Dir × Width)
  | .pack4 => some (.pack, .w4)
  | .pack6 => some (.pack, .w6)
  | .pack8 => some (.pack, .w8)
  | .pack12 => some (.pack, .w12)
  | .unpack4 => some (.unpack, .w4)
  | .unpack6 => some (.unpack, .w6)
  | .unpack8 => some (.unpack, .w8)
  | .unpack12 => some (.unpack, .w12)
  | .pack b => (dispatch b).map (fun w => (.pack, w))
  | .unpack b => (dispatch b).map (fun w => (.unpack, w))

/-- `SYMB` of the platform (R7). -/
def symBytes (p : Platform) : Nat := p.symWidth.bytes

/-- The first byte address past the address space, `2^ADDR_W` (R59). -/
abbrev addrLimit (p : Platform) : Nat := 2 ^ p.addrWidth

/-- `NBYTES(w, n) = ceil(n * w / 8)` (R13, R78). -/
def packedSize (w : Width) (n : Nat) : Nat := (n * w.bits + 7) / 8

/-- The range holds the byte address. -/
def rangeHas (r : Range) (a : Nat) : Bool := r.base ≤ a && a < r.base + r.len

/-- The two ranges share a byte (R60). An empty range shares none. -/
def rangesMeet (r q : Range) : Bool := max r.base q.base < min (r.base + r.len) (q.base + q.len)

/-- The byte addresses of a range, rising. -/
def rangeAddrs (r : Range) : List Nat := List.range' r.base r.len

/-- The symbol range of the command in flight (R44). -/
def symRange (p : Platform) (b : Inst) : Range := ⟨b.lSymAddr.toNat, symBytes p * b.lCount.toNat⟩

/-- The packed range of the command in flight, at width `w` (R44). -/
def pkdRange (w : Width) (b : Inst) : Range := ⟨b.lPkdAddr.toNat, packedSize w b.lCount.toNat⟩

/-- Both ranges of the command in flight. -/
def commandWindow (p : Platform) (dir : Dir) (w : Width) (b : Inst) : Window :=
  { dir := dir, sym := symRange p b, pkd := pkdRange w b }

/-- The ranges of a command whose word gives no width: no packed byte (log 9). -/
def widthlessWindow (p : Platform) (dir : Dir) (b : Inst) : Window :=
  { dir := dir, sym := symRange p b, pkd := ⟨b.lPkdAddr.toNat, 0⟩ }

/-- The range a command writes: packed bytes for a pack, symbol words for an unpack (R56, R201). -/
def destRange (v : Window) : Range :=
  match v.dir with
  | .pack => v.pkd
  | .unpack => v.sym

/-- The range a command reads (R56, R67). -/
def sourceRange (v : Window) : Range :=
  match v.dir with
  | .pack => v.sym
  | .unpack => v.pkd

/-- The symbol array is aligned to whole symbol words (R55, R104). -/
def symAligned (p : Platform) (b : Inst) : Bool := b.lSymAddr.toNat % symBytes p = 0

/-- The range ends within the address space; an end equal to `2^ADDR_W` is legal (R59, R105). -/
def rangeFits (p : Platform) (r : Range) : Bool := r.base + r.len ≤ 2 ^ p.addrWidth

/-- The checks of R104 and R105 in the order of R107: alignment of the symbol array, then the two range ends. -/
def operandError (p : Platform) (w : Width) (b : Inst) : ErrCode :=
  if !symAligned p b then .ealign
  else if !(rangeFits p (symRange p b) && rangeFits p (pkdRange w b)) then .erange
  else .ok

/-- The length of the packed range of the command in flight (R44): `NBYTES(w, n)`, and 0 where its word gives no width, since R13
defines no length without one (log 9). -/
def flightBytes (b : Inst) : Nat :=
  match decode b.lCmd with
  | .error _ => 0
  | .ok i =>
    match commandJob i with
    | none => 0
    | some (_, w) => packedSize w b.lCount.toNat

/-- The ranges of the command in flight, whatever the checks of R103 will say of it: R206 and R201 except no accepted command. The
direction is DIR of its word (R81; log 9). -/
def flightWindow (p : Platform) (b : Inst) : Window :=
  { dir := dirField b.lCmd, sym := symRange p b, pkd := ⟨b.lPkdAddr.toNat, flightBytes b⟩ }

/-- The bytes of a range that the address space has: a range never wraps (R59; log 11). -/
def cutRange (p : Platform) (r : Range) : Range := ⟨r.base, min r.len (addrLimit p - r.base)⟩

/-- `MemAdmit` (R7, R61): the platform memory answers at this address. -/
def memAdmit (p : Platform) (a : Nat) : Bool :=
  a < 2 ^ p.addrWidth && p.admitted.any (fun r => r.base ≤ a && a < r.base + r.size)

/-- Every byte of the range is admitted. -/
def rangeAdmitted (p : Platform) (r : Range) : Bool := (rangeAddrs r).all (memAdmit p)

/-- A command with the ranges `mine` breaks the hazard of the command with the ranges `v`: it writes a byte of either range
of `v`, or reads a byte `v` writes (R186, R206). Reading a shared source is permitted. -/
def windowsRace (mine v : Window) : Bool :=
  rangesMeet (destRange mine) v.sym || rangesMeet (destRange mine) v.pkd || rangesMeet (sourceRange mine) (destRange v)

/-- The drawn padding of R73: a pack of width 4 or 12 with an odd count leaves the last byte's upper nibble to one draw. -/
def drawsPadding (w : Width) (n : Nat) : Bool :=
  match w with
  | .w4 => n % 2 = 1
  | .w12 => n % 2 = 1
  | .w6 => false
  | .w8 => false

end Sys2Proof.Machine
end

