-- ==== Sys2Proof/Machine/Ops.lean ====
section
/-! DEFINITION. The shared operations: the block at work, storing with the coherence bookkeeping, launching and completing a
command, the error completion (which takes the place of an exception, R180), and reset. -/

namespace Sys2Proof.Machine

/-- Block number `k`. -/
def getInst (s : State) (k : Nat) : Inst := (s.insts[k]?).getD (Inst.reset 0)

/-- Replace block number `k`. -/
def setInst (s : State) (k : Nat) (b : Inst) : State := { s with insts := s.insts.set k b }

/-- The block whose step it is. -/
def activeInst (s : State) : Inst := getInst s s.turn

/-- Replace the block whose step it is. -/
def setActive (s : State) (b : Inst) : State := setInst s s.turn b

/-- Addresses outside a range. -/
def dropAddrs (r : Range) (l : List Nat) : List Nat := l.filter (fun a => !rangeHas r a)

/-- A rising list of addresses with those of a range put in. -/
def addAddrs (r : Range) (l : List Nat) : List Nat :=
  l.filter (fun a => a < r.base) ++ rangeAddrs r ++ l.filter (fun a => r.base + r.len ≤ a)

/-- On a platform that is not coherent, the host owes the range an invalidate: its bytes are stale until then (R67; log 12). -/
def oweInvalidate (r : Range) (s : State) : State :=
  { s with stale := if s.plat.coherent then s.stale else addAddrs r s.stale }

/-- On a platform that is not coherent, the bytes a command stores are stale in the host's caches until the host invalidates
them; what the host had not cleaned there is overwritten (R67; log 12). -/
def markStored (r : Range) (s : State) : State :=
  { oweInvalidate r s with uncleaned := if s.plat.coherent then s.uncleaned else dropAddrs r s.uncleaned }

/-- A command stores consecutive bytes. -/
def storeBytes (a : Nat) (bs : List Byte) (s : State) : State :=
  markStored ⟨a, bs.length⟩ { s with mem := writeBytes s.mem a bs }

/-- Symbol word `i` of the command in flight, `SYM(i)` (R13, R51, R52). -/
def symbolAt (s : State) (i : Nat) : Nat :=
  memRead s.mem ((activeInst s).lSymAddr.toNat + symBytes s.plat * i) (symBytes s.plat)

/-- Packed byte `j` of the command in flight, `PKD(j)` (R13, R53). -/
def packedAt (s : State) (j : Nat) : Byte := readByte s.mem ((activeInst s).lPkdAddr.toNat + j)

/-- The count of the command in flight, `L_COUNT`. -/
def countOf (s : State) : Nat := (activeInst s).lCount.toNat

/-- All symbol words the command reads (R120). -/
def sourceSymbols (s : State) : List Nat := (List.range (countOf s)).map (symbolAt s)

/-- All packed bytes the command reads (R140). -/
def sourceBytes (w : Width) (s : State) : List Byte := (List.range (packedSize w (countOf s))).map (packedAt s)

/-- The blocks other than number `k`. -/
def otherInsts (s : State) (k : Nat) : List Inst := s.insts.eraseIdx k

/-- The accesses of a command on block `k` break the hazard of a command on another block (R186, R206; log 10). -/
def racesOthers (s : State) (k : Nat) (mine : Window) : Bool :=
  (otherInsts s k).any (fun b => b.windows.any (windowsRace mine))

/-- The fault of a command that passed every check, if it has one: Overlap before BusFault (R103, R107), then a race with
another block (R186; log 10). -/
def accessFault (s : State) (v : Window) : Option Fault :=
  if rangesMeet v.sym v.pkd then some .overlap
  else if !(rangeAdmitted s.plat v.sym && rangeAdmitted s.plat v.pkd) then some .busFault
  else if racesOthers s s.turn v then some .bufferRace
  else none

/-- `complete(code)` for an error code (R106, R175, R180): STATUS and NBYTES change, no memory is accessed and no control is
transferred. -/
def completeError (code : ErrCode) (s : State) : State := setActive s (completeRegs code 0 (activeInst s))

/-- A pack or unpack command with these ranges completes with an error. R67 asks for the invalidate around every command, so the
destination is stale where COHERENT is false, as far as the address space goes (log 11, log 12). -/
def failCommand (code : ErrCode) (v : Window) (s : State) : State :=
  oweInvalidate (cutRange s.plat (destRange v)) (completeError code s)

/-- `complete(OK)` (R106) of a command of width `w`. -/
def completeOk (w : Width) (s : State) : State :=
  setActive s (completeRegs .ok (packedSize w (countOf s)) (activeInst s))

/-- Count the nibble a command drew (R73). -/
def countDraw (drawn : Bool) (s : State) : State := { s with draws := s.draws + (if drawn then 1 else 0) }

/-- The part of `complete_step` that follows decoding and dispatch (R103): the operand checks, the faults, then the body. -/
def checkedCommand (dir : Dir) (w : Width) (s : State) (body : Result) : Result :=
  let b := activeInst s
  if operandError s.plat w b = .ok then
    match accessFault s (commandWindow s.plat dir w b) with
    | some f => .fault f
    | none => body
  else .next (failCommand (operandError s.plat w b) (commandWindow s.plat dir w b) s)

/-- The command word of block `k` that its completion step decodes (R69, R103). -/
def commandWord (s : State) (k : Nat) : Word := (getInst s k).lCmd

/-- Acceptance of the command word `v` by block `k` (R101), opening the hazard of its ranges (R206; log 9). -/
def acceptCommand (k : Nat) (v : Word) (s : State) : State :=
  let b := acceptRegs v (getInst s k)
  setInst s k { b with windows := b.windows ++ [flightWindow s.plat b] }

/-- The host left a byte of the source range of the accepted command uncleaned, where COHERENT is false (R67). An illegal word is
no PACK or UNPACK, so R67 gives it no source, and R101 accepts it (log 12). -/
def sourceUncleaned (s : State) (b : Inst) : Bool :=
  !s.plat.coherent &&
    (match decode b.lCmd with
     | .error _ => false
     | .ok _ => s.uncleaned.any (rangeHas (sourceRange (flightWindow s.plat b))))

/-- A host write of CMD (R100): accepted when Idle, dropped when Busy. A host that broke the cleaning duty of R67 gets
BufferRace (R191; log 12). -/
def launch (k : Nat) (v : Word) (s : State) : Result :=
  match (getInst s k).phase with
  | .busy => .next (setInst s k (dropRegs (getInst s k)))
  | .idle =>
    if sourceUncleaned s (acceptRegs v (getInst s k)) then .fault .bufferRace
    else .next (acceptCommand k v s)

/-- Give each listed address a fresh `draw_8` (R201). -/
def drawAddrs (l : List Nat) (s : State) : State :=
  { s with mem := scatterDraws s.mem s.draws l, draws := s.draws + l.length }

/-- Give each byte of an abandoned destination that the address space has a fresh draw (R201; log 11). DESIGN CHOICE: where COHERENT
is false these bytes count as stored by the command, so they are stale until the host invalidates them, and what the host had not
cleaned there is settled; R67 and R201 do not say (log 12). -/
def abandonRange (r : Range) (s : State) : State :=
  markStored (cutRange s.plat r) (drawAddrs (rangeAddrs (cutRange s.plat r)) s)

/-- Reset of block `k` (R200 to R202): its registers and hidden fields take their reset values, and each destination byte of
a command in flight takes a fresh draw, on a platform that is not coherent to be invalidated as one a command stored (DESIGN CHOICE,
log 12). `F` is not touched (R43). -/
def resetBlock (k : Nat) (s : State) : Result :=
  if s.insts.length ≤ k then .refused .noSuchBlock
  else
    match (getInst s k).phase with
    | .idle => .next (setInst s k (resetRegs (getInst s k)))
    | .busy =>
      if racesOthers s k (flightWindow s.plat (getInst s k)) then .fault .bufferRace
      else
        .next (setInst (abandonRange (destRange (flightWindow s.plat (getInst s k))) s) k (resetRegs (getInst s k)))

end Sys2Proof.Machine
end

