-- ==== Sys2Proof/Machine/HostPort.lean ====
section
/-! DEFINITION. What the outside world can do to the machine: the register window (10_state.md section 2), host memory accesses under
the buffer hazard (R206), cache maintenance (R67) and reset (R200). -/

namespace Sys2Proof.Machine

/-- The registers of the window (R22). -/
inductive Reg where
  | cmd
  | count
  | symAddr
  | pkdAddr
  | status
  | nbytes
  | info
  | reserved
deriving DecidableEq, Repr

/-- The register at an offset (R22); none at any other offset (R23). -/
def regAt (offset : Nat) : Option Reg :=
  match offset with
  | 0x00 => some .cmd
  | 0x04 => some .count
  | 0x08 => some .symAddr
  | 0x0C => some .pkdAddr
  | 0x10 => some .status
  | 0x14 => some .nbytes
  | 0x18 => some .info
  | 0x1C => some .reserved
  | _ => none

/-- The offset of a register (R22). -/
def regOffset : Reg → Nat
  | .cmd => 0x00
  | .count => 0x04
  | .symAddr => 0x08
  | .pkdAddr => 0x0C
  | .status => 0x10
  | .nbytes => 0x14
  | .info => 0x18
  | .reserved => 0x1C

/-- The address lies in the 32-byte register window of the block (R22, R23). -/
def inWindow (b : Inst) (addr : Nat) : Bool := b.regBase ≤ addr && addr < b.regBase + 0x20

/-- The block and register that an access of `size` bytes spells; none where it spells no register access (R23, R178). -/
def findReg (s : State) (addr size : Nat) : Option (Nat × Reg) :=
  match s.insts.findIdx? (fun b => inWindow b addr) with
  | none => none
  | some k =>
    if size = 4 then (regAt (addr - (getInst s k).regBase)).map (fun r => (k, r))
    else none

/-- INFO (R36): `SYMW` in bits 7:0, `ADDR_W` in bits 15:8, zeros above. -/
def infoWord (p : Platform) : Word := (0 : BitVec 16) ++ BitVec.ofNat 8 p.addrWidth ++ BitVec.ofNat 8 (8 * symBytes p)

/-- An address register keeps the low `ADDR_W` bits; the others read as zero and ignore writes (R27, R28). -/
def keepAddrBits (p : Platform) (v : Word) : Word := BitVec.ofNat 32 (v.toNat % addrLimit p)

/-- What a register reads as (R25 to R29, R35 to R37). -/
def readReg (p : Platform) (b : Inst) : Reg → Word
  | .cmd => b.lCmd
  | .count => b.count
  | .symAddr => b.symAddr
  | .pkdAddr => b.pkdAddr
  | .status => statusWord b
  | .nbytes => b.nbytes
  | .info => infoWord p
  | .reserved => 0

/-- A host read of STATUS that returns BUSY = 0 observes the completion of every command accepted so far and ends their
hazard (R65, R206; log 9). -/
def observeStatus (r : Reg) (b : Inst) : Inst :=
  match r, b.phase with
  | .status, .idle => { b with windows := [] }
  | _, _ => b

/-- A register read (R38): no register changes; the value goes to `reply`. -/
def hostRegRead (k : Nat) (r : Reg) (s : State) : State :=
  { setInst s k (observeStatus r (getInst s k)) with reply := .word (readReg s.plat (getInst s k) r) }

/-- A register write (R24, R26 to R28, R31, R32, R34 to R37). -/
def hostRegWrite (k : Nat) (r : Reg) (v : Word) (s : State) : Result :=
  let b := getInst s k
  match r with
  | .cmd => launch k v s
  | .count => .next (setInst s k { b with count := v })
  | .symAddr => .next (setInst s k { b with symAddr := keepAddrBits s.plat v })
  | .pkdAddr => .next (setInst s k { b with pkdAddr := keepAddrBits s.plat v })
  | .status => .next (setInst s k (writeStatus v b))
  | .nbytes => .next s
  | .info => .next s
  | .reserved => .next s

/-- All commands under the buffer hazard, on every block (R206). -/
def openWindows (s : State) : List Window := s.insts.flatMap (fun b => b.windows)

/-- A host write of the range breaks the buffer hazard: it meets either range of an open command (R206). -/
def writeRaces (s : State) (r : Range) : Bool :=
  (openWindows s).any (fun v => rangesMeet r v.sym || rangesMeet r v.pkd)

/-- A host read of the range breaks the buffer hazard: it meets the destination of an open command. Reading the source is
permitted (R206). -/
def readRaces (s : State) (r : Range) : Bool := (openWindows s).any (fun v => rangesMeet r (destRange v))

/-- A host write of memory bytes (R190). The hazard of R206 comes first, since it excepts no byte of an open range; past it, a byte
that MemAdmit does not admit is a BusFault (log 15). Where COHERENT is false they stay uncleaned until the host cleans them (R67). -/
def hostMemWrite (addr : Nat) (bs : List Byte) (s : State) : Result :=
  let r : Range := ⟨addr, bs.length⟩
  if writeRaces s r then .fault .bufferRace
  else if !rangeAdmitted s.plat r then .fault .busFault
  else
    let t := { s with mem := writeBytes s.mem addr bs }
    .next (if s.plat.coherent then t else { t with uncleaned := addAddrs r s.uncleaned })

/-- A host read of memory bytes (R190). Where COHERENT is false, reading a byte of a command's destination before invalidating it breaks
the duty of R67 (R191; log 12). The races come before BusFault, as for a write (log 15). -/
def hostMemRead (addr n : Nat) (s : State) : Result :=
  let r : Range := ⟨addr, n⟩
  if readRaces s r then .fault .bufferRace
  else if s.stale.any (rangeHas r) then .fault .bufferRace
  else if !rangeAdmitted s.plat r then .fault .busFault
  else .next { s with reply := .bytes (readBytes s.mem addr n) }

/-- The host writes a range back from its caches (R67). DESIGN CHOICE: a clean is no host write in the sense of R206 and R191, also in
a range of an open command: no BufferRace, no byte of memory changes, and what a command stores there stands (log 12). -/
def hostClean (addr n : Nat) (s : State) : State := { s with uncleaned := dropAddrs ⟨addr, n⟩ s.uncleaned }

/-- A byte of the destination of a command whose completion is not observed (R206). -/
def inOpenDest (s : State) (a : Nat) : Bool := (openWindows s).any (fun v => rangeHas (destRange v) a)

/-- The host invalidates a range in its caches (R67): stale bytes outside the destination of an unobserved command become
fresh, since only an invalidate after observing completion counts. A byte the host wrote and did not clean may be lost, so it
takes a free value. DESIGN CHOICE: an invalidate is no touch in the sense of R206 and R191, also in a range of an open command: no
BufferRace, and an uncleaned byte there takes its free value all the same (log 12). -/
def hostInvalidate (addr n : Nat) (s : State) : State :=
  let r : Range := ⟨addr, n⟩
  drawAddrs (s.uncleaned.filter (rangeHas r))
    { s with stale := s.stale.filter (fun a => !rangeHas r a || inOpenDest s a), uncleaned := dropAddrs r s.uncleaned }

/-- One operation of the outside world (R190, R191). -/
def hostStep (op : HostOp) (s : State) : Result :=
  match op with
  | .regWrite addr size v =>
    match findReg s addr size with
    | none => .refused .registerAccess
    | some (k, r) => hostRegWrite k r v s
  | .regRead addr size =>
    match findReg s addr size with
    | none => .refused .registerAccess
    | some (k, r) => .next (hostRegRead k r s)
  | .memWrite addr bs => hostMemWrite addr bs s
  | .memRead addr n => hostMemRead addr n s
  | .clean addr n => .next (hostClean addr n s)
  | .invalidate addr n => .next (hostInvalidate addr n s)
  | .reset k => resetBlock k s

end Sys2Proof.Machine
end

