-- ==== Sys2Proof/Machine/Assembler.lean ====
section
/-! DEFINITION. The assembler syntax (R96 to R98): each mnemonic is a host pseudo-instruction that expands to register writes and a WAIT. -/

namespace Sys2Proof.Machine

/-- A line of host assembler, its operands in the order of R96, with WAIT and CLRST of R97. -/
inductive AsmLine where
  | pack4 (dest symbols count : Nat)
  | pack6 (dest symbols count : Nat)
  | pack8 (dest symbols count : Nat)
  | pack12 (dest symbols count : Nat)
  | unpack4 (symbols packed count : Nat)
  | unpack6 (symbols packed count : Nat)
  | unpack8 (symbols packed count : Nat)
  | unpack12 (symbols packed count : Nat)
  | pack (bitCount dest symbols count : Nat)
  | unpack (bitCount symbols packed count : Nat)
  | wait
  | clrst
deriving DecidableEq, Repr

/-- `WR R, x` at the block based at `base` (R97). -/
def writeReg (base : Nat) (r : Reg) (x : Nat) : Input := .host (.regWrite (base + regOffset r) 4 (BitVec.ofNat 32 x))

/-- The operands are in the bounds of R98. -/
def asmOperandsOk (p : Platform) (i : Instr) (pkd sym count : Nat) : Bool :=
  i.wf && pkd < addrLimit p && sym < addrLimit p && count < 2 ^ 32

/-- The register writes and the WAIT of a command mnemonic (R97); none where the assembler refuses an operand (R98). -/
def expandCommand (p : Platform) (base : Nat) (i : Instr) (pkd sym count : Nat) : Option (List Input) :=
  if asmOperandsOk p i pkd sym count then
    some [writeReg base .pkdAddr pkd, writeReg base .symAddr sym, writeReg base .count count,
      writeReg base .cmd (encode i).toNat, .wait base]
  else none

/-- The expansion of a line (R97). -/
def assemble (p : Platform) (base : Nat) : AsmLine → Option (List Input)
  | .pack4 d s n => expandCommand p base .pack4 d s n
  | .pack6 d s n => expandCommand p base .pack6 d s n
  | .pack8 d s n => expandCommand p base .pack8 d s n
  | .pack12 d s n => expandCommand p base .pack12 d s n
  | .unpack4 s d n => expandCommand p base .unpack4 d s n
  | .unpack6 s d n => expandCommand p base .unpack6 d s n
  | .unpack8 s d n => expandCommand p base .unpack8 d s n
  | .unpack12 s d n => expandCommand p base .unpack12 d s n
  | .pack b d s n => expandCommand p base (.pack b) d s n
  | .unpack b s d n => expandCommand p base (.unpack b) d s n
  | .wait => some [.wait base]
  | .clrst => some [writeReg base .status 0x00000006]

/-- The value of a digit, decimal or hexadecimal. -/
def digitOf (c : Char) : Option Nat :=
  if '0'.toNat ≤ c.toNat ∧ c.toNat ≤ '9'.toNat then some (c.toNat - '0'.toNat)
  else if 'a'.toNat ≤ c.toNat ∧ c.toNat ≤ 'f'.toNat then some (c.toNat - 'a'.toNat + 10)
  else if 'A'.toNat ≤ c.toNat ∧ c.toNat ≤ 'F'.toNat then some (c.toNat - 'A'.toNat + 10)
  else none

/-- Digits in a base, read after the value `acc`. -/
def digitsValue (base : Nat) : Nat → List Char → Option Nat
  | acc, [] => some acc
  | acc, c :: cs =>
    match digitOf c with
    | none => none
    | some d => if d < base then digitsValue base (base * acc + d) cs else none

/-- A number of the assembler: decimal, or hexadecimal behind `0x` (R96). -/
def numberValue : List Char → Option Nat
  | [] => none
  | '0' :: 'x' :: c :: cs => digitsValue 16 0 (c :: cs)
  | c :: cs => digitsValue 10 0 (c :: cs)

/-- The numbers of an operand list. -/
def numberValues : List String → Option (List Nat)
  | [] => some []
  | x :: xs =>
    match numberValue x.toList, numberValues xs with
    | some n, some ns => some (n :: ns)
    | _, _ => none

/-- The line that a mnemonic and its operands spell (R96); no mnemonic names another width in the direct form (R98). -/
def lineOf (mnemonic : String) (operands : List Nat) : Option AsmLine :=
  match mnemonic, operands with
  | "PACK4", [d, s, n] => some (.pack4 d s n)
  | "PACK6", [d, s, n] => some (.pack6 d s n)
  | "PACK8", [d, s, n] => some (.pack8 d s n)
  | "PACK12", [d, s, n] => some (.pack12 d s n)
  | "UNPACK4", [s, d, n] => some (.unpack4 s d n)
  | "UNPACK6", [s, d, n] => some (.unpack6 s d n)
  | "UNPACK8", [s, d, n] => some (.unpack8 s d n)
  | "UNPACK12", [s, d, n] => some (.unpack12 s d n)
  | "PACK", [b, d, s, n] => some (.pack b d s n)
  | "UNPACK", [b, s, d, n] => some (.unpack b s d n)
  | "WAIT", [] => some .wait
  | "CLRST", [] => some .clrst
  | _, _ => none

/-- A source line, its mnemonic and operands already separated, for the block based at `base`. -/
def assembleText (p : Platform) (base : Nat) (mnemonic : String) (operands : List String) : Option (List Input) :=
  match numberValues operands with
  | none => none
  | some ns => (lineOf mnemonic ns).bind (assemble p base)

end Sys2Proof.Machine
end

