-- ==== Sys2Proof/Machine/Pack.lean ====
section
/-! DEFINITION. The packer (41_pack.md): the per-width layouts of R71 to R77 and the commands PACK4, PACK6, PACK8, PACK12. -/

namespace Sys2Proof.Machine

/-- PACK4_BODY (R72, R121): two symbols a byte; `pad` is the drawn nibble over an odd last symbol. -/
def pack4Bytes (pad : BitVec 4) : List Nat → List Byte
  | [] => []
  | [a] => [byte (a ||| (pad.toNat <<< 4))]
  | a :: b :: rest => byte (a ||| (b <<< 4)) :: pack4Bytes pad rest

/-- PACK6_BODY (R74, R75, R122): four symbols in three bytes; a tail of 1, 2 or 3 symbols in as many bytes, zero padded. -/
def pack6Bytes : List Nat → List Byte
  | [] => []
  | [a] => [byte a]
  | [a, b] => [byte (a ||| ((b &&& 0b11) <<< 6)), byte ((b >>> 2) &&& 0b1111)]
  | [a, b, c] =>
    [byte (a ||| ((b &&& 0b11) <<< 6)), byte (((b >>> 2) &&& 0b1111) ||| ((c &&& 0b1111) <<< 4)), byte ((c >>> 4) &&& 0b11)]
  | a :: b :: c :: d :: rest =>
    byte (a ||| ((b &&& 0b11) <<< 6)) :: byte (((b >>> 2) &&& 0b1111) ||| ((c &&& 0b1111) <<< 4)) ::
      byte (((c >>> 4) &&& 0b11) ||| (d <<< 2)) :: pack6Bytes rest

/-- PACK8_BODY (R71, R123): one symbol a byte. -/
def pack8Bytes (syms : List Nat) : List Byte := syms.map byte

/-- PACK12_BODY (R76, R77, R124): two symbols in three bytes; an odd last symbol in two, `pad` the drawn nibble over it. -/
def pack12Bytes (pad : BitVec 4) : List Nat → List Byte
  | [] => []
  | [a] => [byte (a &&& 0xFF), byte (((a >>> 8) &&& 0x0F) ||| (pad.toNat <<< 4))]
  | a :: b :: rest =>
    byte (a &&& 0xFF) :: byte (((a >>> 8) &&& 0x0F) ||| ((b &&& 0x0F) <<< 4)) :: byte ((b >>> 4) &&& 0xFF) ::
      pack12Bytes pad rest

/-- The packed bytes of a symbol array at a width (R120). -/
def packBytes (w : Width) (pad : BitVec 4) (syms : List Nat) : List Byte :=
  match w with
  | .w4 => pack4Bytes pad syms
  | .w6 => pack6Bytes syms
  | .w8 => pack8Bytes syms
  | .w12 => pack12Bytes pad syms

/-- Some symbol word is `2^w` or more (R120): every bit at or above bit `w` must be 0. -/
def symbolsOutOfRange (w : Width) (syms : List Nat) : Bool := syms.any (fun v => 2 ^ w.bits ≤ v)

/-- PACK_BODY and `complete(OK)` (R120, R106), the padding nibble taken from the next free value (R73). -/
def packBody (w : Width) (s : State) : Result :=
  let syms := sourceSymbols s
  if symbolsOutOfRange w syms then .fault .symbolRange
  else
    .next (completeOk w (countDraw (drawsPadding w (countOf s))
      (storeBytes (activeInst s).lPkdAddr.toNat (packBytes w (Config.draw4 s.draws) syms) s)))

/-- A pack command of width `w`, once decoding and dispatch have given the width (R103). -/
def packCommand (w : Width) (s : State) : Result := checkedCommand .pack w s (packBody w s)

/-- PACK4 (R121). -/
def execPack4 (s : State) : Result := packCommand .w4 s

/-- PACK6 (R122). -/
def execPack6 (s : State) : Result := packCommand .w6 s

/-- PACK8 (R123). -/
def execPack8 (s : State) : Result := packCommand .w8 s

/-- PACK12 (R124). -/
def execPack12 (s : State) : Result := packCommand .w12 s

end Sys2Proof.Machine
end

