-- ==== Sys2Proof/Machine/Unpack.lean ====
section
/-! DEFINITION. The unpacker (42_unpack.md): the inverse formulas and the commands UNPACK4, UNPACK6, UNPACK8, UNPACK12. -/

namespace Sys2Proof.Machine

/-- Packed byte `j` as a number. -/
def byteAt (bs : List Byte) (j : Nat) : Nat := (bs.getD j 0).toNat

/-- Symbol `i` of UNPACK4_BODY (R141). -/
def unpack4At (bs : List Byte) (i : Nat) : Nat :=
  if i % 2 = 0 then byteAt bs (i / 2) &&& 0x0F else (byteAt bs (i / 2) >>> 4) &&& 0x0F

/-- Symbol `i` of UNPACK6_BODY (R142). -/
def unpack6At (bs : List Byte) (i : Nat) : Nat :=
  let k := i / 4
  let b0 := byteAt bs (3 * k)
  let b1 := byteAt bs (3 * k + 1)
  let b2 := byteAt bs (3 * k + 2)
  match i % 4 with
  | 0 => b0 &&& 0x3F
  | 1 => ((b0 >>> 6) &&& 0b11) ||| ((b1 &&& 0x0F) <<< 2)
  | 2 => ((b1 >>> 4) &&& 0x0F) ||| ((b2 &&& 0b11) <<< 4)
  | _ => (b2 >>> 2) &&& 0x3F

/-- Symbol `i` of UNPACK8_BODY (R143). -/
def unpack8At (bs : List Byte) (i : Nat) : Nat := byteAt bs i

/-- Symbol `i` of UNPACK12_BODY (R144). -/
def unpack12At (bs : List Byte) (i : Nat) : Nat :=
  let k := i / 2
  if i % 2 = 0 then byteAt bs (3 * k) ||| ((byteAt bs (3 * k + 1) &&& 0x0F) <<< 8)
  else ((byteAt bs (3 * k + 1) >>> 4) &&& 0x0F) ||| (byteAt bs (3 * k + 2) <<< 4)

/-- Symbol `i` of the packed bytes at a width (R140). -/
def unpackAt (w : Width) (bs : List Byte) (i : Nat) : Nat :=
  match w with
  | .w4 => unpack4At bs i
  | .w6 => unpack6At bs i
  | .w8 => unpack8At bs i
  | .w12 => unpack12At bs i

/-- The `n` symbols of the packed bytes at a width (R140). -/
def unpackSymbols (w : Width) (bs : List Byte) (n : Nat) : List Nat := (List.range n).map (unpackAt w bs)

/-- Symbols as whole little-endian symbol words, zero-extended, one after the other (R52, R140, R145). -/
def symbolBytes (p : Platform) (syms : List Nat) : List Byte := syms.flatMap (leBytes (symBytes p))

/-- UNPACK_BODY and `complete(OK)` (R140, R106). -/
def unpackBody (w : Width) (s : State) : Result :=
  .next (completeOk w (storeBytes (activeInst s).lSymAddr.toNat
    (symbolBytes s.plat (unpackSymbols w (sourceBytes w s) (countOf s))) s))

/-- An unpack command of width `w`, once decoding and dispatch have given the width (R103). -/
def unpackCommand (w : Width) (s : State) : Result := checkedCommand .unpack w s (unpackBody w s)

/-- UNPACK4 (R141). -/
def execUnpack4 (s : State) : Result := unpackCommand .w4 s

/-- UNPACK6 (R142). -/
def execUnpack6 (s : State) : Result := unpackCommand .w6 s

/-- UNPACK8 (R143). -/
def execUnpack8 (s : State) : Result := unpackCommand .w8 s

/-- UNPACK12 (R144). -/
def execUnpack12 (s : State) : Result := unpackCommand .w12 s

end Sys2Proof.Machine
end

