-- ==== Sys2Proof/Machine/Select.lean ====
section
/-! DEFINITION. The dispatched commands PACK and UNPACK (43_dispatch.md). -/

namespace Sys2Proof.Machine

/-- PACK (R163): the width is dispatched from BITCOUNT; an unsupported one completes with EWIDTH (R161). -/
def execPack (bitCount : Nat) (s : State) : Result :=
  match dispatch bitCount with
  | none => .next (failCommand .ewidth (widthlessWindow s.plat .pack (activeInst s)) s)
  | some w => packCommand w s

/-- UNPACK (R164), as PACK. -/
def execUnpack (bitCount : Nat) (s : State) : Result :=
  match dispatch bitCount with
  | none => .next (failCommand .ewidth (widthlessWindow s.plat .unpack (activeInst s)) s)
  | some w => unpackCommand w s

end Sys2Proof.Machine
end

