-- ==== Sys2Proof/Machine/Dispatch.lean ====
section
/-! DEFINITION. What each command does when its block completes it (R103): one arm per row of the opcode map R90. -/

namespace Sys2Proof.Machine

def exec (i : Instr) (s : State) : Host.Outcome State Fault Refusal :=
  match i with
  | .pack4 => Sys2Proof.Machine.execPack4 s
  | .pack6 => Sys2Proof.Machine.execPack6 s
  | .pack8 => Sys2Proof.Machine.execPack8 s
  | .pack12 => Sys2Proof.Machine.execPack12 s
  | .unpack4 => Sys2Proof.Machine.execUnpack4 s
  | .unpack6 => Sys2Proof.Machine.execUnpack6 s
  | .unpack8 => Sys2Proof.Machine.execUnpack8 s
  | .unpack12 => Sys2Proof.Machine.execUnpack12 s
  | .pack b => Sys2Proof.Machine.execPack b s
  | .unpack b => Sys2Proof.Machine.execUnpack b s

end Sys2Proof.Machine
end

