-- ==== Sys2Proof/Machine/Complete.lean ====
section
/-! DEFINITION. The completion step of a block (R103). -/

namespace Sys2Proof.Machine

/-- Block number `k` is Busy (R41). -/
def isBusy (s : State) (k : Nat) : Bool := (getInst s k).phase = .busy

/-- `complete_step` of block `k` (R103): enabled while Busy; an illegal word completes with ECMD, any other runs its command.
An Idle block has no step to take. -/
def completeStep (k : Nat) (s : State) : Result :=
  if isBusy s k then
    match decode (commandWord s k) with
    | .error _ => .next (completeError .ecmd { s with turn := k })
    | .ok i => exec i { s with turn := k }
  else .next s

end Sys2Proof.Machine
end

