-- ==== Sys2Proof/Machine/Schedule.lean ====
section
/-! DEFINITION. Which agent moves next (R179, R190, R214): read from the state's schedule. -/

namespace Sys2Proof.Machine

/-- The move the schedule selects, with the state that the moving agent finds. -/
inductive Move where
  /-- the completion step of block `k` -/
  | block (k : Nat) (s : State)
  /-- an operation from outside -/
  | host (op : HostOp) (s : State)
  /-- nothing can move: every block is Idle and no input is left (R188, R192) -/
  | rest
  /-- the state is faulted (R43) -/
  | stop (f : Fault)
  /-- no move is spelled -/
  | refuse (r : Refusal)
deriving DecidableEq, Repr

/-- The lowest Busy block. -/
def firstBusy (s : State) : Option Nat := s.insts.findIdx? (fun b => b.phase = .busy)

/-- The address of the STATUS register of the block based at `base` (R22). -/
def statusAddr (base : Nat) : Nat := base + regOffset .status

/-- WAIT (R97): while the polled block is Busy it takes its completion step and the WAIT stays; once it is Idle, WAIT is the
STATUS read that ends it (log 6). DESIGN CHOICE: a WAIT whose `base` is no block's `REG_BASE`, so that `base + 0x10` spells no
STATUS register, is refused, also where that address spells another register: R97 gives WAIT no meaning there (log 14). -/
def pickWait (base : Nat) (rest : List Input) (s : State) : Move :=
  match findReg s (statusAddr base) 4 with
  | some (k, .status) =>
    if isBusy s k then .block k s else .host (.regRead (statusAddr base) 4) { s with inputs := rest }
  | _ => .refuse .registerAccess

/-- The move of a state whose fault set is empty: the head of the schedule, or, with nothing scheduled, the completion step
of the lowest Busy block (R214; log 6). -/
def pickSound (s : State) : Move :=
  match s.inputs with
  | [] =>
    match firstBusy s with
    | some k => .block k s
    | none => .rest
  | .block k :: rest => if k < s.insts.length then .block k { s with inputs := rest } else .refuse .noSuchBlock
  | .wait base :: rest => pickWait base rest s
  | .host op :: rest => .host op { s with inputs := rest }

/-- The move of a state with a fault in `F`: the run does not continue (R12); only a reset, which has priority over
everything (R179) and keeps `F` (R43), still applies (log 13). -/
def pickFaulted (f : Fault) (s : State) : Move :=
  match s.inputs with
  | .host (.reset k) :: rest => .host (.reset k) { s with inputs := rest }
  | _ => .stop f

/-- Which agent moves next. -/
def pick (s : State) : Move :=
  if s.refused then .refuse .stateRefused
  else
    match s.faults with
    | [] => pickSound s
    | f :: _ => pickFaulted f s

/-- A word placed as the command in flight of block 0, as a host's CMD write places it (R101), with the completion step of
block 0 the next move (log 7). -/
def placeCommand (v : Word) (s : State) : State :=
  let t := acceptCommand 0 v s
  { t with inputs := .block 0 :: s.inputs }

end Sys2Proof.Machine
end

