-- ==== Sys2Proof/Machine/Step.lean ====
section
/-! DEFINITION. One step of the machine. -/

namespace Sys2Proof.Machine

/-- One step: the agent the schedule selects makes its move. -/
def step (s : State) : Host.Outcome State Fault Refusal :=
  match pick s with
  | .block k t => completeStep k t
  | .host op t => hostStep op t
  | .rest => .next s
  | .stop f => .fault f
  | .refuse r => .refused r

/-- The state with the command word `w` in flight on block 0 and its completion step next. -/
def State.withFetchWord (s : State) (nbits w : Nat) : State := placeCommand (wordOfBits nbits w) s

end Sys2Proof.Machine
end

