-- ==== Sys2Proof/Safety.lean ====
section
/-! DEFINITION. What counts as a sound run, in the terms claims use: the fault set's growth (R43), the end of a run (R192), when a
command runs its body (R103), what completing it may change (R106), and the invariant of the machine. -/

namespace Sys2Proof.Machine

/-- `F` with a fault put in (R43). -/
def addFault (f : Fault) (l : List Fault) : List Fault := if f ∈ l then l else l ++ [f]

/-- One move of the spec's own transition system, the outcome written back into the state: a fault goes into `F` (R43, R176)
and a refusal marks the whole state (R178). -/
def State.advance (s : State) : State :=
  match step s with
  | .next t => t
  | .fault f => { s with faults := addFault f s.faults }
  | .refused _ => { s with refused := true }

/-- A completed run (R192): every block Idle, no host step left, `F` empty, and the state not refused. -/
def State.runEnded (s : State) : Bool :=
  s.insts.all (fun b => b.phase = .idle) && s.inputs = [] && s.faults = [] && !s.refused

/-- The state can move: it is not refused and its fault set is empty. -/
structure State.Sound (s : State) : Prop where
  unmarked : s.refused = false
  unfaulted : s.faults = []

/-- The machine can move and its next move is this operation of the outside world. -/
structure HostMoves (op : HostOp) (rest : List Input) (s : State) : Prop where
  sound : s.Sound
  scheduled : s.inputs = .host op :: rest

/-- The machine can move and its next move is the completion step of the Busy block `k`. -/
structure BlockMoves (k : Nat) (rest : List Input) (s : State) : Prop where
  sound : s.Sound
  scheduled : s.inputs = .block k :: rest
  present : k < s.insts.length
  busy : (getInst s k).phase = .busy

/-- The register windows of the platform's blocks share no address (R186: each block has its own window). -/
def State.windowsApart (s : State) : Prop :=
  s.insts.Pairwise (fun b c => b.regBase + 0x20 ≤ c.regBase ∨ c.regBase + 0x20 ≤ b.regBase)

/-- How many blocks are Busy. -/
def State.busyBlocks (s : State) : Nat := (s.insts.filter (fun b => b.phase = .busy)).length

/-- The operand checks of R104 and R105 pass for a command of width `w` on the active block. -/
structure OperandsFit (w : Width) (s : State) : Prop where
  aligned : (activeInst s).lSymAddr.toNat % symBytes s.plat = 0
  symbolsFit : (activeInst s).lSymAddr.toNat + symBytes s.plat * countOf s ≤ 2 ^ s.plat.addrWidth
  packedFits : (activeInst s).lPkdAddr.toNat + packedSize w (countOf s) ≤ 2 ^ s.plat.addrWidth

/-- The ranges of the active block's command, at a direction and width. -/
def activeWindow (dir : Dir) (w : Width) (s : State) : Window := commandWindow s.plat dir w (activeInst s)

/-- A command of this direction and width on the active block reaches its body (R103): it passes every check, its ranges share
no byte (R60), every byte of them is admitted (R61), and no other block's command forbids its accesses (R186, R206). -/
structure CommandRuns (dir : Dir) (w : Width) (s : State) : Prop where
  parameters : s.plat.wf = true
  present : s.turn < s.insts.length
  operands : OperandsFit w s
  apart : rangesMeet (activeWindow dir w s).sym (activeWindow dir w s).pkd = false
  admitted : rangeAdmitted s.plat (activeWindow dir w s).sym = true ∧ rangeAdmitted s.plat (activeWindow dir w s).pkd = true
  unraced : racesOthers s s.turn (activeWindow dir w s) = false

/-- What no command changes in the block that runs it: the live operand registers, the latched operands, DROP (R102, R103,
R106), and the model's `regBase` and open hazards. -/
structure SameOperands (b c : Inst) : Prop where
  regBase : c.regBase = b.regBase
  count : c.count = b.count
  symAddr : c.symAddr = b.symAddr
  pkdAddr : c.pkdAddr = b.pkdAddr
  drop : c.drop = b.drop
  lCmd : c.lCmd = b.lCmd
  lCount : c.lCount = b.lCount
  lSymAddr : c.lSymAddr = b.lSymAddr
  lPkdAddr : c.lPkdAddr = b.lPkdAddr
  windows : c.windows = b.windows

/-- `t` differs from `s` at most in memory, in the active block, in the count of draws and in the coherence bookkeeping. -/
structure SameElsewhere (s t : State) : Prop where
  plat : t.plat = s.plat
  turn : t.turn = s.turn
  blocks : t.insts.length = s.insts.length
  others : ∀ k, k ≠ s.turn → t.insts[k]? = s.insts[k]?
  operands : SameOperands (activeInst s) (activeInst t)
  faults : t.faults = s.faults
  refused : t.refused = s.refused
  inputs : t.inputs = s.inputs
  reply : t.reply = s.reply

/-- What a completion leaves in the block's registers (R106): the code, NBYTES, BUSY 0 and DONE 1. -/
structure CompletedWith (code : ErrCode) (n : Nat) (b : Inst) : Prop where
  err : b.err = code
  nbytes : b.nbytes.toNat = n
  phase : b.phase = .idle
  done : b.done = true

/-- Every address outside a range reads as before. -/
def SameOutside (r : Range) (s t : State) : Prop :=
  ∀ a, rangeHas r a = false → readByte t.mem a = readByte s.mem a

/-- What a command that completed with OK leaves, its destination's new contents apart (R56, R106): NBYTES is the packed size,
no byte outside the destination range changes, and one nibble is drawn exactly by an odd pack of width 4 or 12 (R73, R110). -/
structure CompletedOk (dir : Dir) (w : Width) (s t : State) : Prop where
  registers : CompletedWith .ok (packedSize w (countOf s)) (activeInst t)
  elsewhere : SameElsewhere s t
  outside : SameOutside (destRange (activeWindow dir w s)) s t
  draws : t.draws = s.draws + (if dir = .pack ∧ (w = .w4 ∨ w = .w12) ∧ countOf s % 2 = 1 then 1 else 0)

/-- What a command that completed with an error leaves (R106, R175): the code in ERR, NBYTES 0, and no memory changed. -/
structure CompletedError (code : ErrCode) (s t : State) : Prop where
  registers : CompletedWith code 0 (activeInst t)
  elsewhere : SameElsewhere s t
  memory : t.mem = s.mem
  draws : t.draws = s.draws
  uncleaned : t.uncleaned = s.uncleaned
  stale : s.plat.coherent = true → t.stale = s.stale

/-- What a command line of the assembler means (R97, R98). Its operands within their bounds, `ok` being that of the bit count, it
expands to four register writes and a WAIT on the block at `base`; they leave that block, if Idle, Busy with the word and the three
operands latched, and the WAIT next. Out of their bounds it is refused. -/
def LaunchesAs (base : Nat) (line : Platform → Option (List Input)) (ok : Prop) (word : Word) (pkd sym count : Nat) : Prop :=
  ∀ p : Platform, p.wf = true →
    (¬(ok ∧ pkd < 2 ^ p.addrWidth ∧ sym < 2 ^ p.addrWidth ∧ count < 2 ^ 32) → line p = none) ∧
    (ok → pkd < 2 ^ p.addrWidth → sym < 2 ^ p.addrWidth → count < 2 ^ 32 →
      ∃ writes, line p = some (writes ++ [.wait base]) ∧
        ∀ (s : State) (k : Nat) (rest : List Input), s.plat = p → s.Sound → (p.coherent = true ∨ s.uncleaned = []) →
          (∀ r, findReg s (base + regOffset r) 4 = some (k, r)) → (getInst s k).phase = .idle →
          s.inputs = writes ++ .wait base :: rest →
          ∃ t, Host.Core.run core 4 s = .next t ∧ (getInst t k).phase = .busy ∧ (getInst t k).lCmd = word ∧
            (getInst t k).lCount.toNat = count ∧ (getInst t k).lSymAddr.toNat = sym ∧ (getInst t k).lPkdAddr.toNat = pkd ∧
            t.mem = s.mem ∧ t.inputs = .wait base :: rest)

/-- What every reachable state of one block satisfies: its addresses fit `ADDR_W`, a command in flight shows DONE 0, ERR 0 and
NBYTES 0 (R101, R112), and its ranges are under the buffer hazard (R206). -/
structure Inst.Inv (p : Platform) (b : Inst) : Prop where
  symAddr : b.symAddr.toNat < addrLimit p
  pkdAddr : b.pkdAddr.toNat < addrLimit p
  lSymAddr : b.lSymAddr.toNat < addrLimit p
  lPkdAddr : b.lPkdAddr.toNat < addrLimit p
  inFlight : b.phase = .busy → b.done = false ∧ b.err = .ok ∧ b.nbytes = 0
  guarded : b.phase = .busy → flightWindow p b ∈ b.windows

/-- The invariant of the machine. -/
structure State.Inv (s : State) : Prop where
  plat : s.plat.wf = true
  turn : s.turn < s.insts.length
  blocks : ∀ b ∈ s.insts, Inst.Inv s.plat b
  memory : Memory.wf s.mem
  inSpace : ∀ c ∈ s.mem, c.1 < addrLimit s.plat
  faults : s.faults.Nodup
  uncleaned : s.uncleaned.Pairwise (· < ·)
  uncleanedInSpace : ∀ a ∈ s.uncleaned, a < addrLimit s.plat
  stale : s.stale.Pairwise (· < ·)
  staleInSpace : ∀ a ∈ s.stale, a < addrLimit s.plat
  coherent : s.plat.coherent = true → s.uncleaned = [] ∧ s.stale = []

end Sys2Proof.Machine
end

