-- ==== Sys2Proof/Certificates/Slice0/Obligations.lean ====
section
/-! DEFINITION. The statements for the provers. Each says which rule of the spec it formalises; where it rests on a choice of the model, it
names the log entry. -/

open Sys2Proof Sys2Proof.Machine

/-! ### Encoding -/

/-- R90, R91: every command is the one the decoder reads from its own word, with BITCOUNT at each of its 256 values. -/
def Obligations.DecodeOfEncode : Prop :=
  ∀ i : Instr, i.wf = true → decode (encode i) = .ok i

/-- R91: the word of a decoded command is the word decoded, so no two words spell one command. -/
def Obligations.EncodeOfDecode : Prop :=
  ∀ (v : Word) (i : Instr), decode v = .ok i → i.wf = true ∧ encode i = v

/-- R90: a word spells the command of a row exactly when the word masked is the row's match; the bits left over are BITCOUNT. -/
def Obligations.WordSpellsItsRow : Prop :=
  (∀ (dir : Dir) (w : Width) (v : Word),
    decode v = .ok (directInstr dir w) ↔ v &&& rowMask (directInstr dir w) = rowMatch (directInstr dir w)) ∧
  (∀ (dir : Dir) (v : Word),
    (∃ b, decode v = .ok (dispatchedInstr dir b)) ↔
      v &&& rowMask (dispatchedInstr dir 0) = rowMatch (dispatchedInstr dir 0)) ∧
  (∀ (dir : Dir) (v : Word) (b : Nat), decode v = .ok (dispatchedInstr dir b) → b = v.toNat / 2 ^ 4 % 2 ^ 8)

/-- R92: exactly three kinds of words are illegal. -/
def Obligations.IllegalWords : Prop :=
  ∀ v : Word, (∃ e, decode v = .error e) ↔
    (v.toNat / 2 ^ 12 ≠ 0 ∨ (v.toNat / 2 % 2 = 1 ∧ v.toNat / 2 ^ 4 % 2 ^ 8 ≠ 0) ∨
      (v.toNat / 2 % 2 = 0 ∧ v.toNat / 2 ^ 2 % 2 ^ 2 ≠ 0))

/-- R90: a few words of the opcode map, as the spec writes them. -/
def Obligations.OpcodeMapWords : Prop :=
  decode 0x00000002#32 = .ok .pack4 ∧ decode 0x0000000E#32 = .ok .pack12 ∧ decode 0x00000007#32 = .ok .unpack6 ∧
  decode 0x0000000B#32 = .ok .unpack8 ∧ decode 0x00000060#32 = .ok (.pack 6) ∧ decode 0x000000C1#32 = .ok (.unpack 12) ∧
  decode 0x00001002#32 = .error .reservedBits

/-! ### Steps -/

/-- R103: the completion step of a Busy block. When its command word spells a command, it is that command, run for that block; an illegal
word completes with ECMD (R92). The schedule names the block, or is empty and no lower block is Busy, or polls the block with WAIT
(log 6). -/
def Obligations.StepRunsDecoded : Prop :=
  ∀ (s : State) (k : Nat), s.Sound → k < s.insts.length → (getInst s k).phase = .busy →
    (∀ i, decode (getInst s k).lCmd = .ok i →
      (∀ rest, s.inputs = .block k :: rest → step s = exec i { s with inputs := rest, turn := k }) ∧
      (s.inputs = [] → (∀ j < k, (getInst s j).phase = .idle) → step s = exec i { s with turn := k }) ∧
      (∀ base rest, s.inputs = .wait base :: rest → findReg s (base + 0x10) 4 = some (k, .status) →
        step s = exec i { s with turn := k })) ∧
    (∀ e, decode (getInst s k).lCmd = .error e →
      (∀ rest, s.inputs = .block k :: rest →
        ∃ t, step s = .next t ∧ CompletedError .ecmd { s with inputs := rest, turn := k } t) ∧
      (s.inputs = [] → (∀ j < k, (getInst s j).phase = .idle) →
        ∃ t, step s = .next t ∧ CompletedError .ecmd { s with turn := k } t) ∧
      (∀ base rest, s.inputs = .wait base :: rest → findReg s (base + 0x10) 4 = some (k, .status) →
        ∃ t, step s = .next t ∧ CompletedError .ecmd { s with turn := k } t))

/-- R107: of several conditions of one command, the one reported is the first of ECMD, EWIDTH, EALIGN, ERANGE, and only past
all four come Overlap and then BusFault. -/
def Obligations.ChecksInOrder : Prop :=
  ∀ (s : State) (k : Nat) (rest : List Input), BlockMoves k rest s →
    let u : State := { s with inputs := rest, turn := k }
    (∀ e, decode (getInst s k).lCmd = .error e → ∃ t, step s = .next t ∧ CompletedError .ecmd u t) ∧
    (∀ i, decode (getInst s k).lCmd = .ok i →
      (commandJob i = none → ∃ t, step s = .next t ∧ CompletedError .ewidth u t) ∧
      (∀ dir w, commandJob i = some (dir, w) →
        ((getInst s k).lSymAddr.toNat % symBytes s.plat ≠ 0 → ∃ t, step s = .next t ∧ CompletedError .ealign u t) ∧
        ((getInst s k).lSymAddr.toNat % symBytes s.plat = 0 → ¬ OperandsFit w u →
          ∃ t, step s = .next t ∧ CompletedError .erange u t) ∧
        (OperandsFit w u → rangesMeet (activeWindow dir w u).sym (activeWindow dir w u).pkd = true →
          step s = .fault .overlap) ∧
        (OperandsFit w u → rangesMeet (activeWindow dir w u).sym (activeWindow dir w u).pkd = false →
          ¬ (rangeAdmitted s.plat (activeWindow dir w u).sym = true ∧ rangeAdmitted s.plat (activeWindow dir w u).pkd = true) →
          step s = .fault .busFault)))

/-- R103, R188, R192: with every block Idle and nothing scheduled, nothing happens; a schedule entry that names an Idle block is
consumed and changes nothing else, since the completion step is enabled only while Busy (log 6). -/
def Obligations.IdleBlocksRest : Prop :=
  (∀ s : State, s.Sound → s.inputs = [] → (∀ b ∈ s.insts, b.phase = .idle) → step s = .next s) ∧
  (∀ (s : State) (k : Nat) (rest : List Input), s.Sound → s.inputs = .block k :: rest → k < s.insts.length →
    (getInst s k).phase = .idle → step s = .next { s with inputs := rest })

/-- R214 with log 6: once the outside world's operations are used up, each step that answers a next state completes one command in
flight and starts none, so that no command stays Busy. -/
def Obligations.BusyBlocksComplete : Prop :=
  ∀ s t : State, s.Sound → s.inputs = [] → 0 < s.busyBlocks → step s = .next t →
    t.inputs = [] ∧ t.busyBlocks + 1 = s.busyBlocks

/-! ### The packer -/

/-- R72: 4-bit format. The padding nibble over an odd last symbol is left open. -/
def Obligations.Pack4Layout : Prop :=
  ∀ s : State, CommandRuns .pack .w4 s → (∀ i < countOf s, symbolAt s i < 2 ^ 4) →
    ∃ t, exec .pack4 s = .next t ∧ CompletedOk .pack .w4 s t ∧
      (∀ k, 2 * k + 1 < countOf s → (packedAt t k).toNat = symbolAt s (2 * k) + 2 ^ 4 * symbolAt s (2 * k + 1)) ∧
      (countOf s % 2 = 1 → (packedAt t (countOf s / 2)).toNat % 2 ^ 4 = symbolAt s (countOf s - 1))

/-- R74, R75: 6-bit format, full groups and the tails of 1, 2 and 3 symbols, whose padding bits are 0. -/
def Obligations.Pack6Layout : Prop :=
  ∀ s : State, CommandRuns .pack .w6 s → (∀ i < countOf s, symbolAt s i < 2 ^ 6) →
    ∃ t, exec .pack6 s = .next t ∧ CompletedOk .pack .w6 s t ∧
      (∀ g, 4 * g + 3 < countOf s →
        (packedAt t (3 * g)).toNat = symbolAt s (4 * g) + 2 ^ 6 * (symbolAt s (4 * g + 1) % 2 ^ 2) ∧
        (packedAt t (3 * g + 1)).toNat = symbolAt s (4 * g + 1) / 2 ^ 2 + 2 ^ 4 * (symbolAt s (4 * g + 2) % 2 ^ 4) ∧
        (packedAt t (3 * g + 2)).toNat = symbolAt s (4 * g + 2) / 2 ^ 4 + 2 ^ 2 * symbolAt s (4 * g + 3)) ∧
      (∀ g, countOf s = 4 * g + 1 → (packedAt t (3 * g)).toNat = symbolAt s (4 * g)) ∧
      (∀ g, countOf s = 4 * g + 2 →
        (packedAt t (3 * g)).toNat = symbolAt s (4 * g) + 2 ^ 6 * (symbolAt s (4 * g + 1) % 2 ^ 2) ∧
        (packedAt t (3 * g + 1)).toNat = symbolAt s (4 * g + 1) / 2 ^ 2) ∧
      (∀ g, countOf s = 4 * g + 3 →
        (packedAt t (3 * g)).toNat = symbolAt s (4 * g) + 2 ^ 6 * (symbolAt s (4 * g + 1) % 2 ^ 2) ∧
        (packedAt t (3 * g + 1)).toNat = symbolAt s (4 * g + 1) / 2 ^ 2 + 2 ^ 4 * (symbolAt s (4 * g + 2) % 2 ^ 4) ∧
        (packedAt t (3 * g + 2)).toNat = symbolAt s (4 * g + 2) / 2 ^ 4)

/-- R71: 8-bit format, byte i is symbol i. -/
def Obligations.Pack8Layout : Prop :=
  ∀ s : State, CommandRuns .pack .w8 s → (∀ i < countOf s, symbolAt s i < 2 ^ 8) →
    ∃ t, exec .pack8 s = .next t ∧ CompletedOk .pack .w8 s t ∧
      ∀ i < countOf s, (packedAt t i).toNat = symbolAt s i

/-- R76, R77: 12-bit format, full pairs and an odd last symbol, whose padding nibble is left open. -/
def Obligations.Pack12Layout : Prop :=
  ∀ s : State, CommandRuns .pack .w12 s → (∀ i < countOf s, symbolAt s i < 2 ^ 12) →
    ∃ t, exec .pack12 s = .next t ∧ CompletedOk .pack .w12 s t ∧
      (∀ g, 2 * g + 1 < countOf s →
        (packedAt t (3 * g)).toNat = symbolAt s (2 * g) % 2 ^ 8 ∧
        (packedAt t (3 * g + 1)).toNat = symbolAt s (2 * g) / 2 ^ 8 + 2 ^ 4 * (symbolAt s (2 * g + 1) % 2 ^ 4) ∧
        (packedAt t (3 * g + 2)).toNat = symbolAt s (2 * g + 1) / 2 ^ 4) ∧
      (countOf s % 2 = 1 →
        (packedAt t (3 * (countOf s / 2))).toNat = symbolAt s (countOf s - 1) % 2 ^ 8 ∧
        (packedAt t (3 * (countOf s / 2) + 1)).toNat % 2 ^ 4 = symbolAt s (countOf s - 1) / 2 ^ 8)

/-- R126: every pack body is the single stream rule, for symbols in range: bit `p` of the stream is bit `p mod w` of symbol
`p div w`; past the last symbol it is 0 for width 6 and a bit of the drawn nibble for widths 4 and 12. -/
def Obligations.PackIsStream : Prop :=
  ∀ (w : Width) (pad : BitVec 4) (syms : List Nat), (∀ v ∈ syms, v < 2 ^ w.bits) →
    (packBytes w pad syms).length = packedSize w syms.length ∧
    ∀ j < packedSize w syms.length, ∀ t < 8,
      ((packBytes w pad syms).getD j 0).getLsbD t =
        (if 8 * j + t < syms.length * w.bits then (syms.getD ((8 * j + t) / w.bits) 0).testBit ((8 * j + t) % w.bits)
         else if w = .w6 then false else pad.getLsbD (t - 4))

/-- R120, R176: a pack that reads a symbol word of `2^w` or more records the fault SymbolRange. -/
def Obligations.OutOfRangeSymbolFaults : Prop :=
  ∀ (w : Width) (s : State) (i : Nat), CommandRuns .pack w s → i < countOf s → 2 ^ w.bits ≤ symbolAt s i →
    exec (directInstr .pack w) s = .fault .symbolRange ∧ exec (.pack w.bits) s = .fault .symbolRange

/-! ### The unpacker -/

/-- R141: UNPACK4. -/
def Obligations.Unpack4Symbols : Prop :=
  ∀ s : State, CommandRuns .unpack .w4 s →
    ∃ t, exec .unpack4 s = .next t ∧ CompletedOk .unpack .w4 s t ∧
      ∀ i < countOf s, symbolAt t i =
        (if i % 2 = 0 then (packedAt s (i / 2)).toNat % 2 ^ 4 else (packedAt s (i / 2)).toNat / 2 ^ 4)

/-- R142: UNPACK6. -/
def Obligations.Unpack6Symbols : Prop :=
  ∀ s : State, CommandRuns .unpack .w6 s →
    ∃ t, exec .unpack6 s = .next t ∧ CompletedOk .unpack .w6 s t ∧
      ∀ k m, m < 4 → 4 * k + m < countOf s → symbolAt t (4 * k + m) =
        (if m = 0 then (packedAt s (3 * k)).toNat % 2 ^ 6
         else if m = 1 then (packedAt s (3 * k)).toNat / 2 ^ 6 + 2 ^ 2 * ((packedAt s (3 * k + 1)).toNat % 2 ^ 4)
         else if m = 2 then (packedAt s (3 * k + 1)).toNat / 2 ^ 4 + 2 ^ 4 * ((packedAt s (3 * k + 2)).toNat % 2 ^ 2)
         else (packedAt s (3 * k + 2)).toNat / 2 ^ 2)

/-- R143: UNPACK8, bytes copied and never sign-extended. -/
def Obligations.Unpack8Symbols : Prop :=
  ∀ s : State, CommandRuns .unpack .w8 s →
    ∃ t, exec .unpack8 s = .next t ∧ CompletedOk .unpack .w8 s t ∧
      ∀ i < countOf s, symbolAt t i = (packedAt s i).toNat

/-- R144: UNPACK12. -/
def Obligations.Unpack12Symbols : Prop :=
  ∀ s : State, CommandRuns .unpack .w12 s →
    ∃ t, exec .unpack12 s = .next t ∧ CompletedOk .unpack .w12 s t ∧
      ∀ i < countOf s, symbolAt t i =
        (if i % 2 = 0 then (packedAt s (3 * (i / 2))).toNat + 2 ^ 8 * ((packedAt s (3 * (i / 2) + 1)).toNat % 2 ^ 4)
         else (packedAt s (3 * (i / 2) + 1)).toNat / 2 ^ 4 + 2 ^ 4 * (packedAt s (3 * (i / 2) + 2)).toNat)

/-- R79: unpacking with the same width and count the bytes a pack wrote gives the symbols back, whatever the padding holds. -/
def Obligations.UnpackInvertsPack : Prop :=
  ∀ (w : Width) (pad : BitVec 4) (syms : List Nat), (∀ v ∈ syms, v < 2 ^ w.bits) →
    unpackSymbols w (packBytes w pad syms) syms.length = syms

/-- R147 (b): packing the symbols an unpack read from any bytes gives those bytes back in every bit of the stream, and zero
padding for width 6. -/
def Obligations.PackInvertsUnpack : Prop :=
  ∀ (w : Width) (pad : BitVec 4) (n : Nat) (bs : List Byte), bs.length = packedSize w n →
    (∀ v ∈ unpackSymbols w bs n, v < 2 ^ w.bits) ∧
    ∀ j < packedSize w n, ∀ t < 8,
      ((packBytes w pad (unpackSymbols w bs n)).getD j 0).getLsbD t =
        (if 8 * j + t < n * w.bits then (bs.getD j 0).getLsbD t else if w = .w6 then false else pad.getLsbD (t - 4))

/-- R79, R147 (a) and (c) on the machine: an unpack command, of either form, that runs on the bytes a pack command of either form
left, with the same width and count, writes the packed symbols back. -/
def Obligations.UnpackAfterPackRestores : Prop :=
  ∀ (c d : Instr) (w : Width) (s t u : State), commandJob c = some (.pack, w) → commandJob d = some (.unpack, w) →
    CommandRuns .pack w s → (∀ i < countOf s, symbolAt s i < 2 ^ w.bits) →
    exec c s = .next t → CommandRuns .unpack w u → countOf u = countOf s →
    (∀ j < packedSize w (countOf s), packedAt u j = packedAt t j) →
    ∃ v, exec d u = .next v ∧ CompletedOk .unpack w u v ∧
      ∀ i < countOf s, symbolAt v i = symbolAt s i

/-! ### The dispatcher -/

/-- R70: every pack command, dispatched or width-specific, completes, and bit `k` of symbol `i` is bit `w*i + k` of the packed
stream; the padding nibble of an odd pack of width 4 or 12 is the next free value (R73, log 5), which it uses up. -/
def Obligations.PackCommandStream : Prop :=
  ∀ (c : Instr) (w : Width) (s : State), c = .pack w.bits ∨ c = directInstr .pack w →
    CommandRuns .pack w s → (∀ i < countOf s, symbolAt s i < 2 ^ w.bits) →
    ∃ t, exec c s = .next t ∧ CompletedOk .pack w s t ∧
      (∀ i < countOf s, ∀ k < w.bits,
        (packedAt t ((w.bits * i + k) / 8)).getLsbD ((w.bits * i + k) % 8) = (symbolAt s i).testBit k) ∧
      ((w = .w4 ∨ w = .w12) → countOf s % 2 = 1 →
        (packedAt t (packedSize w (countOf s) - 1)).toNat / 2 ^ 4 = (Config.draw4 s.draws).toNat ∧ t.draws = s.draws + 1)

/-- R70, R145: every unpack command, dispatched or width-specific, completes; bit `k` of symbol `i` is bit `w*i + k` of the packed
stream, and every bit of the symbol word from `w` up is 0. -/
def Obligations.UnpackCommandStream : Prop :=
  ∀ (c : Instr) (w : Width) (s : State), c = .unpack w.bits ∨ c = directInstr .unpack w → CommandRuns .unpack w s →
    ∃ t, exec c s = .next t ∧ CompletedOk .unpack w s t ∧
      ∀ i < countOf s, ∀ k, (symbolAt t i).testBit k =
        (decide (k < w.bits) && (packedAt s ((w.bits * i + k) / 8)).getLsbD ((w.bits * i + k) % 8))

/-- R165: the dispatched command with BITCOUNT = w and the width-specific command, given the same latched operands and memory
and each its own command word, leave the same state but for CMD, or the same fault. R165 leaves the padding nibble of an odd 4-bit or
12-bit pack free in each; that it is equal here rests on log 5, since both draws have the same number. -/
def Obligations.DispatchEquivalence : Prop :=
  ∀ (dir : Dir) (w : Width) (s : State),
    let word (v : Word) (u : State) : State := setActive u { activeInst u with lCmd := v }
    let dispatched := word (encode (dispatchedInstr dir w.bits)) s
    let direct := word (encode (directInstr dir w)) s
    (∀ t, exec (directInstr dir w) direct = .next t →
      exec (dispatchedInstr dir w.bits) dispatched = .next (word (encode (dispatchedInstr dir w.bits)) t)) ∧
    (∀ f, exec (directInstr dir w) direct = .fault f → exec (dispatchedInstr dir w.bits) dispatched = .fault f)

/-- R161: a dispatched command of an unsupported width completes with EWIDTH, NBYTES 0 and memory untouched, for every bit
count outside 4, 6, 8 and 12 and every count of symbols. A bit count of 256 or more, which no word holds, is unsupported too (log 19). -/
def Obligations.UnsupportedWidth : Prop :=
  ∀ (b : Nat) (s : State), b ≠ 4 → b ≠ 6 → b ≠ 8 → b ≠ 12 → s.turn < s.insts.length →
    (∃ t, exec (.pack b) s = .next t ∧ CompletedError .ewidth s t) ∧
    (∃ t, exec (.unpack b) s = .next t ∧ CompletedError .ewidth s t)

/-! ### Checks, errors and faults -/

/-- R104: a command that passed decoding completes with EALIGN, and no memory access, exactly when its symbol address is not a
multiple of `SYMB`. -/
def Obligations.AlignmentCheck : Prop :=
  ∀ (i : Instr) (dir : Dir) (w : Width) (s : State), commandJob i = some (dir, w) → s.turn < s.insts.length →
    ((activeInst s).lSymAddr.toNat % symBytes s.plat ≠ 0 → ∃ t, exec i s = .next t ∧ CompletedError .ealign s t) ∧
    ((activeInst s).lSymAddr.toNat % symBytes s.plat = 0 → ∀ t, exec i s = .next t → (activeInst t).err ≠ .ealign)

/-- R105: an aligned command completes with ERANGE, and no memory access, exactly when a range end passes `2^ADDR_W`; with
`SYMB` = 4 and `ADDR_W` = 32 a command that passes has a count of at most 2^30; with a count of 0 the check passes. -/
def Obligations.RangeCheck : Prop :=
  ∀ (i : Instr) (dir : Dir) (w : Width) (s : State), commandJob i = some (dir, w) → s.turn < s.insts.length →
    (activeInst s).lSymAddr.toNat % symBytes s.plat = 0 →
    ((2 ^ s.plat.addrWidth < (activeInst s).lSymAddr.toNat + symBytes s.plat * countOf s ∨
        2 ^ s.plat.addrWidth < (activeInst s).lPkdAddr.toNat + packedSize w (countOf s)) →
      ∃ t, exec i s = .next t ∧ CompletedError .erange s t) ∧
    (OperandsFit w s → ∀ t, exec i s = .next t → (activeInst t).err ≠ .erange) ∧
    (OperandsFit w s → s.plat.symWidth = .w32 → s.plat.addrWidth = 32 → countOf s ≤ 2 ^ 30) ∧
    (countOf s = 0 → (activeInst s).lSymAddr.toNat < 2 ^ s.plat.addrWidth →
      (activeInst s).lPkdAddr.toNat < 2 ^ s.plat.addrWidth → OperandsFit w s)

/-- R60, R61: of a command that passed every check, two ranges that share a byte give the fault Overlap, and otherwise a byte
that is not admitted gives the fault BusFault. -/
def Obligations.OverlapAndBusFaults : Prop :=
  ∀ (i : Instr) (dir : Dir) (w : Width) (s : State), commandJob i = some (dir, w) → OperandsFit w s →
    let v := activeWindow dir w s
    ((∃ a, rangeHas v.sym a = true ∧ rangeHas v.pkd a = true) → exec i s = .fault .overlap) ∧
    ((¬∃ a, rangeHas v.sym a = true ∧ rangeHas v.pkd a = true) →
      (∃ a, (rangeHas v.sym a = true ∨ rangeHas v.pkd a = true) ∧ memAdmit s.plat a = false) → exec i s = .fault .busFault)

/-- R186, R206 with log 10: a command that would otherwise run faults with BufferRace when it writes a byte of a range of another
block's unobserved command, or reads a byte that command writes; when it does neither with any of them, there is no race, a source that
both read included. -/
def Obligations.BlocksRace : Prop :=
  ∀ (i : Instr) (dir : Dir) (w : Width) (s : State), commandJob i = some (dir, w) →
    let mine := activeWindow dir w s
    let touches (v : Window) (a : Nat) : Prop :=
      (rangeHas (destRange mine) a = true ∧ (rangeHas v.sym a = true ∨ rangeHas v.pkd a = true)) ∨
        (rangeHas (sourceRange mine) a = true ∧ rangeHas (destRange v) a = true)
    (∀ (k : Nat) (b : Inst) (v : Window) (a : Nat), OperandsFit w s → rangesMeet mine.sym mine.pkd = false →
      rangeAdmitted s.plat mine.sym = true → rangeAdmitted s.plat mine.pkd = true →
      k ≠ s.turn → s.insts[k]? = some b → v ∈ b.windows → touches v a → exec i s = .fault .bufferRace) ∧
    ((∀ (k : Nat) (b : Inst) (v : Window) (a : Nat), k ≠ s.turn → s.insts[k]? = some b → v ∈ b.windows → ¬ touches v a) →
      racesOthers s s.turn mine = false)

/-- R108: a command with a count of 0 that passes decoding and the checks touches no memory and completes with OK and NBYTES 0;
decoding errors and EALIGN are still reported. -/
def Obligations.ZeroCount : Prop :=
  ∀ (i : Instr) (s : State), s.turn < s.insts.length → countOf s = 0 →
    (∀ dir w, commandJob i = some (dir, w) → OperandsFit w s →
      ∃ t, exec i s = .next t ∧ CompletedWith .ok 0 (activeInst t) ∧ SameElsewhere s t ∧ t.mem = s.mem) ∧
    (commandJob i = none → ∃ t, exec i s = .next t ∧ CompletedError .ewidth s t) ∧
    (∀ dir w, commandJob i = some (dir, w) → (activeInst s).lSymAddr.toNat % symBytes s.plat ≠ 0 →
      ∃ t, exec i s = .next t ∧ CompletedError .ealign s t)

/-- R175: a command that completes with an error code has changed no memory and no register other than those of R106. -/
def Obligations.ErrorsArePrecise : Prop :=
  ∀ (i : Instr) (s t : State), s.turn < s.insts.length → exec i s = .next t → (activeInst t).err ≠ .ok →
    ∃ code, CompletedError code s t

/-- R56, R102, R106, R186: what no command changes: anything but its block's STATUS and NBYTES, its destination range, the count of
draws and the coherence bookkeeping of a platform that is not coherent. There (R67 with log 12) the destination becomes stale, that of a
failing command included as far as the address space has it (log 11), and stops being uncleaned if the command stored into it. -/
def Obligations.CommandFrame : Prop :=
  ∀ (i : Instr) (s t : State), exec i s = .next t →
    SameElsewhere s t ∧
    (∀ a, (∀ dir w, commandJob i = some (dir, w) → rangeHas (destRange (activeWindow dir w s)) a = false) →
      readByte t.mem a = readByte s.mem a) ∧
    (s.plat.coherent = true → t.uncleaned = s.uncleaned ∧ t.stale = s.stale) ∧
    (s.plat.coherent = false → ∀ dir w, commandJob i = some (dir, w) →
      let dest := destRange (activeWindow dir w s)
      (∀ a, a ∈ t.stale ↔ (a ∈ s.stale ∨ (rangeHas dest a = true ∧ a < 2 ^ s.plat.addrWidth))) ∧
      (OperandsFit w s → ∀ a, a ∈ t.uncleaned ↔ (a ∈ s.uncleaned ∧ rangeHas dest a = false)) ∧
      (¬ OperandsFit w s → t.uncleaned = s.uncleaned)) ∧
    (s.plat.coherent = false → ∀ b, dispatch b = none →
      (i = .pack b → ∀ a, a ∈ t.stale ↔ a ∈ s.stale) ∧
      (i = .unpack b → ∀ a, a ∈ t.stale ↔
        (a ∈ s.stale ∨ (rangeHas (symRange s.plat (activeInst s)) a = true ∧ a < 2 ^ s.plat.addrWidth)))) ∧
    (∀ w, commandJob i = some (.unpack, w) → t.draws = s.draws)

/-- R56: a command reads exactly its source range: with the same bytes there and any bytes elsewhere, it ends the same way, with the
same registers and the same destination, and touches nothing else. That the padding nibble is equal as well (R73) rests on log 5, since it is
a function of the count of draws. -/
def Obligations.ReadsOnlyItsSource : Prop :=
  ∀ (i : Instr) (dir : Dir) (w : Width) (s : State) (m : Memory), commandJob i = some (dir, w) →
    (∀ a, rangeHas (sourceRange (activeWindow dir w s)) a = true → readByte m a = readByte s.mem a) →
    (∀ t, exec i s = .next t → ∃ u, exec i { s with mem := m } = .next u ∧ activeInst u = activeInst t ∧
      (∀ a, rangeHas (destRange (activeWindow dir w s)) a = true → (activeInst t).err = .ok →
        readByte u.mem a = readByte t.mem a) ∧
      (∀ a, rangeHas (destRange (activeWindow dir w s)) a = false → readByte u.mem a = readByte m a) ∧
      ((activeInst t).err ≠ .ok → u.mem = m)) ∧
    (∀ f, exec i s = .fault f → exec i { s with mem := m } = .fault f)

/-- R111: a command does not depend on DROP or on the live COUNT, SYMADDR and PKDADDR. -/
def Obligations.IndependentOfLiveRegisters : Prop :=
  ∀ (i : Instr) (s : State) (c y p : Word) (d : Bool),
    let live (u : State) : State :=
      setActive u { activeInst u with count := c, symAddr := y, pkdAddr := p, drop := d }
    (∀ t, exec i s = .next t → exec i (live s) = .next (live t)) ∧
    (∀ f, exec i s = .fault f → exec i (live s) = .fault f)

/-- R110: the only part of a command's result that its latched operands and memory leave open is the padding nibble of a pack of
width 4 or 12 with an odd count: a different state of the free values changes no other bit. -/
def Obligations.DeterminedButPadding : Prop :=
  ∀ (i : Instr) (s t : State) (d : Nat), exec i s = .next t →
    ∃ u, exec i { s with draws := d } = .next u ∧ activeInst u = activeInst t ∧
      (∀ a, (∀ w, commandJob i = some (.pack, w) → drawsPadding w (countOf s) = true →
          a + 1 ≠ (activeInst s).lPkdAddr.toNat + packedSize w (countOf s)) → readByte u.mem a = readByte t.mem a) ∧
      (∀ a, (readByte u.mem a).toNat % 2 ^ 4 = (readByte t.mem a).toNat % 2 ^ 4)

/-! ### The register window -/

/-- R22: in windows that share no address, the access of 32 bits at `REG_BASE` plus a register's offset spells that register of
that block. -/
def Obligations.WindowLayout : Prop :=
  ∀ (s : State) (k : Nat) (r : Reg), s.windowsApart → k < s.insts.length →
    findReg s ((getInst s k).regBase + regOffset r) 4 = some (k, r)

/-- R178: an access of a width other than 32 bits, at an offset that is not a multiple of 4, or outside every window, is refused:
neither a fault nor an effect, and the whole state is marked refused. -/
def Obligations.BadAccessesRefused : Prop :=
  ∀ (s : State) (a size : Nat) (v : Word) (rest : List Input), s.windowsApart →
    (size ≠ 4 ∨ (∃ b ∈ s.insts, b.regBase ≤ a ∧ a < b.regBase + 0x20 ∧ (a - b.regBase) % 4 ≠ 0) ∨
      (∀ b ∈ s.insts, ¬(b.regBase ≤ a ∧ a < b.regBase + 0x20))) →
    (HostMoves (.regWrite a size v) rest s → step s = .refused .registerAccess ∧ s.advance = { s with refused := true }) ∧
    (HostMoves (.regRead a size) rest s → step s = .refused .registerAccess ∧ s.advance = { s with refused := true })

/-- R101: acceptance. Every word is accepted by an Idle block; the operands are latched, BUSY is set, DONE, ERR and NBYTES cleared,
DROP and memory kept. The command's ranges come under the buffer hazard (R206, log 9): for a word that gives a width they are the two of
R44. On a platform that is not coherent the host must have cleaned the source of a pack or unpack command first (R67, log 12). -/
def Obligations.CommandAccepted : Prop :=
  ∀ (s : State) (a k : Nat) (v : Word) (rest : List Input), HostMoves (.regWrite a 4 v) rest s →
    findReg s a 4 = some (k, .cmd) → (getInst s k).phase = .idle →
    (s.plat.coherent = true ∨ ∀ i, decode v = .ok i → ∀ x ∈ s.uncleaned,
      rangeHas (sourceRange (flightWindow s.plat (acceptRegs v (getInst s k)))) x = false) →
    let b := getInst s k
    ∃ z : Window, step s = .next { s with
        inputs := rest
        insts := s.insts.set k { b with
          lCmd := v, lCount := b.count, lSymAddr := b.symAddr, lPkdAddr := b.pkdAddr,
          phase := .busy, done := false, err := .ok, nbytes := 0, windows := b.windows ++ [z] } } ∧
      z.sym = ⟨b.symAddr.toNat, symBytes s.plat * b.count.toNat⟩ ∧
      ∀ i dir w, decode v = .ok i → commandJob i = some (dir, w) →
        z.dir = dir ∧ z.pkd = ⟨b.pkdAddr.toNat, packedSize w b.count.toNat⟩

/-- R102: a CMD write while Busy sets DROP and changes nothing else. -/
def Obligations.CommandDropped : Prop :=
  ∀ (s : State) (a k : Nat) (v : Word) (rest : List Input), HostMoves (.regWrite a 4 v) rest s →
    findReg s a 4 = some (k, .cmd) → (getInst s k).phase = .busy →
    step s = .next { s with inputs := rest, insts := s.insts.set k { getInst s k with drop := true } }

/-- R26, R27, R28, R112: a write of an operand register changes that register only, also while Busy; an address register keeps the
low `ADDR_W` bits. -/
def Obligations.OperandWrites : Prop :=
  ∀ (s : State) (a k : Nat) (v : Word) (rest : List Input), HostMoves (.regWrite a 4 v) rest s →
    (findReg s a 4 = some (k, .count) →
      step s = .next { s with inputs := rest, insts := s.insts.set k { getInst s k with count := v } }) ∧
    (findReg s a 4 = some (k, .symAddr) →
      ∃ x : Word, x.toNat = v.toNat % 2 ^ s.plat.addrWidth ∧
        step s = .next { s with inputs := rest, insts := s.insts.set k { getInst s k with symAddr := x } }) ∧
    (findReg s a 4 = some (k, .pkdAddr) →
      ∃ x : Word, x.toNat = v.toNat % 2 ^ s.plat.addrWidth ∧
        step s = .next { s with inputs := rest, insts := s.insts.set k { getInst s k with pkdAddr := x } })

/-- R34: a host write to STATUS changes only DONE and DROP: a 1 in bit 1 clears DONE, a 1 in bit 2 clears DROP. -/
def Obligations.StatusWrite : Prop :=
  ∀ (s : State) (a k : Nat) (v : Word) (rest : List Input), HostMoves (.regWrite a 4 v) rest s →
    findReg s a 4 = some (k, .status) →
    let b := getInst s k
    step s = .next { s with
      inputs := rest
      insts := s.insts.set k { b with
        done := if v.toNat / 2 % 2 = 1 then false else b.done,
        drop := if v.toNat / 4 % 2 = 1 then false else b.drop } }

/-- R35, R36, R37: writes to NBYTES, INFO and the reserved offset change nothing. -/
def Obligations.ReadOnlyWrites : Prop :=
  ∀ (s : State) (a k : Nat) (v : Word) (r : Reg) (rest : List Input), HostMoves (.regWrite a 4 v) rest s →
    findReg s a 4 = some (k, r) → (r = .nbytes ∨ r = .info ∨ r = .reserved) → step s = .next { s with inputs := rest }

/-- R25 to R28, R35, R37, R38: a register read returns the register and changes none; reading STATUS with BUSY 0 ends the buffer
hazard of the block's commands (R206, log 9). -/
def Obligations.RegisterReads : Prop :=
  ∀ (s : State) (a k : Nat) (r : Reg) (rest : List Input), HostMoves (.regRead a 4) rest s → findReg s a 4 = some (k, r) →
    let b := getInst s k
    let value : Word :=
      match r with
      | .cmd => b.lCmd
      | .count => b.count
      | .symAddr => b.symAddr
      | .pkdAddr => b.pkdAddr
      | .status => statusWord b
      | .nbytes => b.nbytes
      | .info => infoWord s.plat
      | .reserved => 0
    step s = .next { s with
      inputs := rest
      reply := .word value
      insts := s.insts.set k { b with windows := if r = .status ∧ b.phase = .idle then [] else b.windows } }

/-- R29, R33, R170: the fields of STATUS. -/
def Obligations.StatusFields : Prop :=
  ∀ b : Inst, (statusWord b).toNat =
    (match b.phase with | .idle => 0 | .busy => 1) + 2 * b.done.toNat + 4 * b.drop.toNat +
      16 * (match b.err with | .ok => 0 | .ecmd => 1 | .ewidth => 2 | .ealign => 3 | .erange => 4)

/-- R36: INFO holds `SYMW` and `ADDR_W`, reads 0x00002020 with the fixed parameters, and no step changes it. -/
def Obligations.InfoConstant : Prop :=
  (∀ p : Platform, p.wf = true → (infoWord p).toNat = 8 * symBytes p + 2 ^ 8 * p.addrWidth) ∧
  infoWord Platform.standard = 0x00002020#32 ∧
  (∀ s t : State, step s = .next t → infoWord t.plat = infoWord s.plat)

/-- R96, R97, R98: each mnemonic, with its operands in the source's order (the packed buffer before the symbols for a pack, after them
for an unpack), launches the command of its word; an operand past its bound is refused; WAIT is the wait, and CLRST the STATUS write
that clears DONE and DROP. On a platform that is not coherent the host must have cleaned what it wrote (log 12). -/
def Obligations.MnemonicLaunches : Prop :=
  ∀ base a b c x : Nat,
    LaunchesAs base (fun p => assemble p base (.pack4 a b c)) True 0x00000002#32 a b c ∧
    LaunchesAs base (fun p => assemble p base (.pack6 a b c)) True 0x00000006#32 a b c ∧
    LaunchesAs base (fun p => assemble p base (.pack8 a b c)) True 0x0000000A#32 a b c ∧
    LaunchesAs base (fun p => assemble p base (.pack12 a b c)) True 0x0000000E#32 a b c ∧
    LaunchesAs base (fun p => assemble p base (.unpack4 a b c)) True 0x00000003#32 b a c ∧
    LaunchesAs base (fun p => assemble p base (.unpack6 a b c)) True 0x00000007#32 b a c ∧
    LaunchesAs base (fun p => assemble p base (.unpack8 a b c)) True 0x0000000B#32 b a c ∧
    LaunchesAs base (fun p => assemble p base (.unpack12 a b c)) True 0x0000000F#32 b a c ∧
    LaunchesAs base (fun p => assemble p base (.pack x a b c)) (x < 256) (BitVec.ofNat 32 (x * 2 ^ 4)) a b c ∧
    LaunchesAs base (fun p => assemble p base (.unpack x a b c)) (x < 256) (BitVec.ofNat 32 (x * 2 ^ 4 + 1)) b a c ∧
    ∀ p : Platform, assemble p base .wait = some [.wait base] ∧
      ∃ clear, assemble p base .clrst = some [clear] ∧
        ∀ (s : State) (k : Nat) (rest : List Input), s.Sound → s.inputs = clear :: rest →
          findReg s (base + 0x10) 4 = some (k, .status) →
          step s = .next { s with
            inputs := rest
            insts := s.insts.set k { getInst s k with done := false, drop := false } }

/-! ### Host memory accesses and the buffer hazard -/

/-- R206, R191: a host write that meets either range of an open command, and a host read that meets its destination, is a BufferRace;
a read that meets no open destination, of a source or with no command open, returns the bytes, where COHERENT is false if none of them
is stale (log 12). Only an access that breaks no hazard can be a BusFault, at a byte that is not admitted (log 15). -/
def Obligations.BufferHazard : Prop :=
  ∀ (s : State) (addr n : Nat) (bs : List Byte) (rest : List Input),
    (∀ (x : Nat) (b : Inst) (v : Window), b ∈ s.insts → v ∈ b.windows →
      (HostMoves (.memWrite addr bs) rest s → rangeHas ⟨addr, bs.length⟩ x = true →
        (rangeHas v.sym x = true ∨ rangeHas v.pkd x = true) → step s = .fault .bufferRace) ∧
      (HostMoves (.memRead addr n) rest s → rangeHas ⟨addr, n⟩ x = true → rangeHas (destRange v) x = true →
        step s = .fault .bufferRace)) ∧
    (HostMoves (.memRead addr n) rest s → rangeAdmitted s.plat ⟨addr, n⟩ = true →
      (∀ x ∈ s.stale, rangeHas ⟨addr, n⟩ x = false) →
      (∀ c ∈ s.insts, ∀ z ∈ c.windows, rangesMeet ⟨addr, n⟩ (destRange z) = false) →
      step s = .next { s with inputs := rest, reply := .bytes (readBytes s.mem addr n) }) ∧
    (HostMoves (.memWrite addr bs) rest s → rangeAdmitted s.plat ⟨addr, bs.length⟩ = false →
      (∀ c ∈ s.insts, ∀ z ∈ c.windows,
        rangesMeet ⟨addr, bs.length⟩ z.sym = false ∧ rangesMeet ⟨addr, bs.length⟩ z.pkd = false) →
      step s = .fault .busFault) ∧
    (HostMoves (.memRead addr n) rest s → rangeAdmitted s.plat ⟨addr, n⟩ = false →
      (∀ x ∈ s.stale, rangeHas ⟨addr, n⟩ x = false) →
      (∀ c ∈ s.insts, ∀ z ∈ c.windows, rangesMeet ⟨addr, n⟩ (destRange z) = false) →
      step s = .fault .busFault)

/-- R190, R64: a host write of admitted memory that no hazard forbids stores exactly its bytes; on a platform that is not coherent exactly
these bytes become uncleaned (R67 with log 12). -/
def Obligations.HostWriteStores : Prop :=
  ∀ (s : State) (addr : Nat) (bs : List Byte) (rest : List Input), HostMoves (.memWrite addr bs) rest s →
    rangeAdmitted s.plat ⟨addr, bs.length⟩ = true →
    (∀ c ∈ s.insts, ∀ v ∈ c.windows, rangesMeet ⟨addr, bs.length⟩ v.sym = false ∧ rangesMeet ⟨addr, bs.length⟩ v.pkd = false) →
    ∃ t, step s = .next t ∧ t.insts = s.insts ∧ t.plat = s.plat ∧ t.stale = s.stale ∧
      (∀ j < bs.length, readByte t.mem (addr + j) = bs.getD j 0) ∧ SameOutside ⟨addr, bs.length⟩ s t ∧
      (s.plat.coherent = true → t.uncleaned = s.uncleaned) ∧
      (s.plat.coherent = false → ∀ x, x ∈ t.uncleaned ↔ (x ∈ s.uncleaned ∨ rangeHas ⟨addr, bs.length⟩ x = true))

/-- R67, R191 with log 12: on a platform that is not coherent, launching a pack or unpack command with an uncleaned source byte and
reading a byte that was not invalidated are faults. -/
def Obligations.CacheDuties : Prop :=
  ∀ (s : State) (a k addr n x : Nat) (v : Word) (i : Instr) (rest : List Input), s.plat.coherent = false →
    (HostMoves (.regWrite a 4 v) rest s → findReg s a 4 = some (k, .cmd) → (getInst s k).phase = .idle → decode v = .ok i →
      x ∈ s.uncleaned → rangeHas (sourceRange (flightWindow s.plat (acceptRegs v (getInst s k)))) x = true →
      step s = .fault .bufferRace) ∧
    (HostMoves (.memRead addr n) rest s → x ∈ s.stale → rangeHas ⟨addr, n⟩ x = true → step s = .fault .bufferRace)

/-- R67 with log 12: cleaning a range leaves none of its bytes uncleaned; invalidating a range leaves none of its bytes stale but those
of a destination whose completion is unobserved. Neither changes a block, nor a byte that was not left uncleaned there. -/
def Obligations.CacheMaintenance : Prop :=
  ∀ (s : State) (addr n : Nat) (rest : List Input),
    (HostMoves (.clean addr n) rest s → ∃ t, step s = .next t ∧ t.insts = s.insts ∧ t.mem = s.mem ∧ t.stale = s.stale ∧
      ∀ x, x ∈ t.uncleaned ↔ (x ∈ s.uncleaned ∧ rangeHas ⟨addr, n⟩ x = false)) ∧
    (HostMoves (.invalidate addr n) rest s → ∃ t, step s = .next t ∧ t.insts = s.insts ∧
      (∀ x, x ∈ t.uncleaned ↔ (x ∈ s.uncleaned ∧ rangeHas ⟨addr, n⟩ x = false)) ∧
      (∀ x, x ∈ t.stale ↔ (x ∈ s.stale ∧ (rangeHas ⟨addr, n⟩ x = false ∨ inOpenDest s x = true))) ∧
      (∀ x, (x ∉ s.uncleaned ∨ rangeHas ⟨addr, n⟩ x = false) → readByte t.mem x = readByte s.mem x))

/-- R97 with log 6: WAIT of an Idle block is the STATUS read that returns BUSY 0, which ends the buffer hazard of its commands (R206). -/
def Obligations.WaitEnds : Prop :=
  ∀ (s : State) (base k : Nat) (rest : List Input), s.Sound → s.inputs = .wait base :: rest →
    findReg s (base + 0x10) 4 = some (k, .status) → (getInst s k).phase = .idle →
    step s = .next { s with
      inputs := rest
      reply := .word (statusWord (getInst s k))
      insts := s.insts.set k { getInst s k with windows := [] } }

/-! ### Reset, the fault set and invariants -/

/-- R45: the state after reset, the values the spec gives. -/
def Obligations.ResetState : Prop :=
  State.reset.faults = [] ∧
  ∀ b ∈ State.reset.insts, b.lCmd = 0 ∧ b.count = 0 ∧ b.symAddr = 0 ∧ b.pkdAddr = 0 ∧ statusWord b = 0 ∧ b.nbytes = 0 ∧
    b.lCount = 0 ∧ b.lSymAddr = 0 ∧ b.lPkdAddr = 0 ∧ b.phase = .idle ∧ infoWord State.reset.plat = 0x00002020#32

/-- R200, R202: reset of an Idle block gives every register and hidden field its reset value, in one step, and changes no memory, no
other block and no fault of `F`, also in a state that is already faulted. The buffer hazard lasts on (R206, log 9). -/
def Obligations.IdleReset : Prop :=
  ∀ (s : State) (k : Nat) (rest : List Input), s.refused = false → s.inputs = .host (.reset k) :: rest →
    k < s.insts.length → (getInst s k).phase = .idle →
    step s = .next { s with
      inputs := rest
      insts := s.insts.set k { Inst.reset (getInst s k).regBase with windows := (getInst s k).windows } }

/-- R200, R201: reset of a Busy block abandons the command, whatever the checks would have said of it: each destination byte that the
address space has (log 11) is a fresh draw, one number each, every other byte and the other blocks are unchanged, and the block is
reset, its hazard lasting on (R206, log 9). On a platform that is not coherent the bytes drawn become stale and stop being uncleaned
(log 12). A race with another block's command is excluded (log 10). -/
def Obligations.BusyReset : Prop :=
  ∀ (s : State) (k : Nat) (rest : List Input), s.refused = false → s.inputs = .host (.reset k) :: rest →
    k < s.insts.length → (getInst s k).phase = .busy → racesOthers s k (flightWindow s.plat (getInst s k)) = false →
    let b := getInst s k
    let dest := destRange (flightWindow s.plat b)
    (∀ i w, decode b.lCmd = .ok i → commandJob i = some (.pack, w) → dest = ⟨b.lPkdAddr.toNat, packedSize w b.lCount.toNat⟩) ∧
    (∀ i w, decode b.lCmd = .ok i → commandJob i = some (.unpack, w) →
      dest = ⟨b.lSymAddr.toNat, symBytes s.plat * b.lCount.toNat⟩) ∧
    ∃ t, step s = .next t ∧
      t.insts = s.insts.set k { Inst.reset b.regBase with windows := b.windows } ∧ t.faults = s.faults ∧
      (∀ j < dest.len, dest.base + j < 2 ^ s.plat.addrWidth → readByte t.mem (dest.base + j) = Config.draw8 (s.draws + j)) ∧
      t.draws = s.draws + min dest.len (2 ^ s.plat.addrWidth - dest.base) ∧
      SameOutside dest s t ∧
      (s.plat.coherent = false → ∀ x,
        (x ∈ t.stale ↔ (x ∈ s.stale ∨ (rangeHas dest x = true ∧ x < 2 ^ s.plat.addrWidth))) ∧
        (x ∈ t.uncleaned ↔ (x ∈ s.uncleaned ∧ ¬(rangeHas dest x = true ∧ x < 2 ^ s.plat.addrWidth))))

/-- R43: `F` is empty at the start of a run, a fault is put into it, and no later step removes one, a reset included. -/
def Obligations.FaultSetGrows : Prop :=
  State.reset.faults = [] ∧
  (∀ (s : State) (f : Fault), step s = .fault f → f ∈ s.advance.faults) ∧
  (∀ (s : State) (f : Fault), f ∈ s.faults → f ∈ s.advance.faults)

/-- R12, R43, R176, R178, R179 with log 13 and 14: a state with a fault in `F` makes no move but a reset that is next in the schedule,
and a state marked refused makes none. -/
def Obligations.StoppedStates : Prop :=
  (∀ s : State, s.refused = false → s.faults ≠ [] → (∀ k rest, s.inputs ≠ .host (.reset k) :: rest) →
    (∃ f ∈ s.faults, step s = .fault f) ∧ s.advance = s) ∧
  (∀ s : State, s.refused = true → step s = .refused .stateRefused ∧ s.advance = s)

/-- R186: no step changes more than one block. -/
def Obligations.OneBlockPerStep : Prop :=
  ∀ s t : State, step s = .next t → ∃ k : Nat, ∀ j : Nat, j ≠ k → t.insts[j]? = s.insts[j]?

/-- Every step keeps the invariant: memory in canonical form and inside the address space, addresses within `ADDR_W`, a command in
flight with DONE 0, ERR 0 and NBYTES 0 (R101, R112) and its ranges under the buffer hazard (R206, log 9), `F` without repeats, and the
model's cache bookkeeping (log 12) rising, inside the address space, and empty where COHERENT is true. -/
def Obligations.StepKeepsInv : Prop :=
  ∀ s t : State, s.Inv → step s = .next t → t.Inv

/-- The state after reset meets the invariant. -/
def Obligations.ResetMeetsInv : Prop := State.reset.Inv
end

