-- ==== Sys2Proof/Laws/Memory.lean ====
section
/-! SUPPORT. The laws of memory: read after write, and that every write keeps the canonical form. -/

namespace Sys2Proof.Machine

theorem readByte_filter_ne (m : Memory) (a x : Nat) :
    readByte (m.filter (fun c => c.1 ≠ a)) x = if x = a then unlistedByte else readByte m x := by
  induction m with
  | nil => simp [readByte]
  | cons c m ih =>
    by_cases hc : c.1 = a
    · subst hc
      simp only [ne_eq, not_true_eq_false, decide_false, Bool.false_eq_true, not_false_eq_true, List.filter_cons_of_neg]
      rw [ih]
      by_cases hx : x = c.1
      · simp [hx]
      · simp [readByte, hx, Ne.symm hx]
    · simp only [ne_eq, hc, not_false_eq_true, decide_true, List.filter_cons_of_pos, readByte]
      rw [ih]
      by_cases hx : x = a
      · subst hx; simp [hc]
      · simp [hx]

theorem readByte_insertCell (m : Memory) (a x : Nat) (v : Byte) (h : readByte m a = unlistedByte) (hm : ∀ c ∈ m, c.1 ≠ a) :
    readByte (insertCell (a, v) m) x = if x = a then v else readByte m x := by
  induction m with
  | nil => simp [insertCell, readByte, eq_comm]
  | cons d m ih =>
    have hd : d.1 ≠ a := hm d (by simp)
    simp only [insertCell]
    split
    · simp [readByte, eq_comm]
    · have h' : readByte m a = unlistedByte := by simpa [readByte, hd] using h
      simp only [readByte]
      rw [ih h' (fun c hc => hm c (by simp [hc]))]
      by_cases hx : x = a
      · subst hx; simp [hd]
      · simp [hx]

/-- Read after write: the value at the address written, the old value everywhere else. -/
theorem readByte_writeByte (m : Memory) (a x : Nat) (v : Byte) :
    readByte (writeByte m a v) x = if x = a then v else readByte m x := by
  have hf := readByte_filter_ne m a
  simp only [writeByte]
  split
  · next h => rw [hf, h]
  · rw [readByte_insertCell _ _ _ _ (by rw [hf]; simp) (by intro c hc; simpa using (List.mem_filter.1 hc).2), hf]
    split <;> rfl

/-- Read after a block write: byte `x - a` of the block inside it, the old value outside. -/
theorem readByte_writeBytes (bs : List Byte) :
    ∀ (m : Memory) (a x : Nat),
      readByte (writeBytes m a bs) x = if a ≤ x ∧ x < a + bs.length then bs.getD (x - a) 0 else readByte m x := by
  induction bs with
  | nil => intro m a x; simp [writeBytes]
  | cons b bs ih =>
    intro m a x
    rw [writeBytes, ih, readByte_writeByte]
    by_cases h1 : x = a
    · subst h1; simp
    · by_cases h2 : a + 1 ≤ x ∧ x < a + 1 + bs.length
      · rw [if_pos h2, if_pos (by simp; omega)]
        obtain ⟨d, rfl⟩ : ∃ d, x = a + 1 + d := ⟨x - (a + 1), by omega⟩
        simp [show a + 1 + d - a = d + 1 by omega]
      · rw [if_neg h2, if_neg h1, if_neg (by simp; omega)]

theorem readByte_writeBytes_outside (m : Memory) (a x : Nat) (bs : List Byte) (h : ¬(a ≤ x ∧ x < a + bs.length)) :
    readByte (writeBytes m a bs) x = readByte m x := by
  rw [readByte_writeBytes, if_neg h]

theorem readByte_writeBytes_inside (m : Memory) (a j : Nat) (bs : List Byte) (h : j < bs.length) :
    readByte (writeBytes m a bs) (a + j) = bs.getD j 0 := by
  rw [readByte_writeBytes, if_pos (by omega), Nat.add_sub_cancel_left]

/-- Draws change listed addresses only. -/
theorem readByte_scatterDraws_outside (l : List Nat) :
    ∀ (m : Memory) (c x : Nat), x ∉ l → readByte (scatterDraws m c l) x = readByte m x := by
  induction l with
  | nil => intro m c x _; rfl
  | cons a l ih =>
    intro m c x h
    simp only [List.mem_cons, not_or] at h
    rw [scatterDraws, ih _ _ _ h.2, readByte_writeByte, if_neg h.1]

/-- Draws scattered over consecutive addresses lie there in the order of their numbers (R201). -/
theorem readByte_scatterDraws_inside (m : Memory) (a n c j : Nat) (h : j < n) :
    readByte (scatterDraws m c (List.range' a n)) (a + j) = Config.draw8 (c + j) := by
  induction n generalizing a m c j with
  | zero => omega
  | succ n ih =>
    rw [List.range'_succ, scatterDraws]
    cases j with
    | zero => rw [readByte_scatterDraws_outside _ _ _ _ (by simp [List.mem_range'_1]), readByte_writeByte]; simp
    | succ j => rw [show a + (j + 1) = a + 1 + j by ring, ih _ _ _ _ (by omega)]; congr 1; ring

theorem mem_insertCell {c d : Host.Cell} {m : Memory} : d ∈ insertCell c m ↔ d = c ∨ d ∈ m := by
  induction m with
  | nil => simp [insertCell]
  | cons e m ih =>
    simp only [insertCell]
    split
    · simp
    · simp only [List.mem_cons, ih]; tauto

theorem pairwise_insertCell {c : Host.Cell} {m : Memory} (hm : m.Pairwise (fun c d => c.1 < d.1)) (hc : ∀ d ∈ m, d.1 ≠ c.1) :
    (insertCell c m).Pairwise (fun c d => c.1 < d.1) := by
  induction m with
  | nil => simp [insertCell]
  | cons e m ih =>
    rw [List.pairwise_cons] at hm
    have he : e.1 ≠ c.1 := hc e (by simp)
    simp only [insertCell]
    split
    · next h =>
      refine List.pairwise_cons.2 ⟨?_, List.pairwise_cons.2 hm⟩
      intro d hd
      rcases List.mem_cons.1 hd with rfl | hd
      · exact h
      · exact lt_trans h (hm.1 d hd)
    · next h =>
      refine List.pairwise_cons.2 ⟨?_, ih hm.2 (fun d hd => hc d (by simp [hd]))⟩
      intro d hd
      rcases mem_insertCell.1 hd with rfl | hd
      · omega
      · exact hm.1 d hd

/-- Writing one byte keeps the canonical form. -/
theorem writeByte_wf {m : Memory} (h : Memory.wf m) (a : Nat) (v : Byte) : Memory.wf (writeByte m a v) := by
  have hp : (m.filter (fun c => c.1 ≠ a)).Pairwise (fun c d => c.1 < d.1) := h.1.filter _
  have hv : ∀ c ∈ m.filter (fun c => c.1 ≠ a), c.2 ≠ unlistedByte := fun c hc => h.2 c (List.mem_filter.1 hc).1
  simp only [writeByte]
  split
  · exact ⟨hp, hv⟩
  · next hne =>
    refine ⟨pairwise_insertCell hp (fun d hd => by simpa using (List.mem_filter.1 hd).2), ?_⟩
    intro c hc
    rcases mem_insertCell.1 hc with rfl | hc
    · exact hne
    · exact hv c hc

/-- Writing a block keeps the canonical form. -/
theorem writeBytes_wf (bs : List Byte) : ∀ {m : Memory} (_ : Memory.wf m) (a : Nat), Memory.wf (writeBytes m a bs) := by
  induction bs with
  | nil => intro m h a; exact h
  | cons b bs ih => intro m h a; exact ih (writeByte_wf h a b) (a + 1)

/-- Draws keep the canonical form. -/
theorem scatterDraws_wf (l : List Nat) : ∀ {m : Memory} (_ : Memory.wf m) (c : Nat), Memory.wf (scatterDraws m c l) := by
  induction l with
  | nil => intro m h c; exact h
  | cons a l ih => intro m h c; exact ih (writeByte_wf h a _) (c + 1)

/-- A write lists no address but the one written and those listed before. -/
theorem mem_writeByte {m : Memory} {a : Nat} {v : Byte} {c : Host.Cell} (h : c ∈ writeByte m a v) : c.1 = a ∨ c ∈ m := by
  simp only [writeByte] at h
  split at h
  · exact .inr (List.mem_filter.1 h).1
  · rcases mem_insertCell.1 h with rfl | h
    · exact .inl rfl
    · exact .inr (List.mem_filter.1 h).1

theorem mem_writeBytes (bs : List Byte) : ∀ {m : Memory} {a : Nat} {c : Host.Cell}, c ∈ writeBytes m a bs →
    (a ≤ c.1 ∧ c.1 < a + bs.length) ∨ c ∈ m := by
  induction bs with
  | nil => intro m a c h; exact .inr h
  | cons b bs ih =>
    intro m a c h
    rcases ih h with h | h
    · left; simp only [List.length_cons]; omega
    · rcases mem_writeByte h with h | h
      · left; simp only [List.length_cons]; omega
      · exact .inr h

theorem mem_scatterDraws (l : List Nat) : ∀ {m : Memory} {n : Nat} {c : Host.Cell}, c ∈ scatterDraws m n l →
    c.1 ∈ l ∨ c ∈ m := by
  induction l with
  | nil => intro m n c h; exact .inr h
  | cons a l ih =>
    intro m n c h
    rcases ih h with h | h
    · left; simp [h]
    · rcases mem_writeByte h with h | h
      · left; simp [h]
      · exact .inr h

/-- Two canonical memories that read alike at every address are equal. -/
theorem Memory.ext_of_readByte : ∀ {m n : Memory}, Memory.wf m → Memory.wf n → (∀ a, readByte m a = readByte n a) → m = n := by
  have low : ∀ {m : Memory} {a : Nat}, (∀ c ∈ m, a < c.1) → readByte m a = unlistedByte := by
    intro m
    induction m with
    | nil => intro a _; rfl
    | cons c m ih =>
      intro a h
      have := h c (by simp)
      simp only [readByte]
      rw [if_neg (by omega)]
      exact ih (fun d hd => h d (by simp [hd]))
  intro m
  induction m with
  | nil =>
    intro n _ hn h
    cases n with
    | nil => rfl
    | cons d n => exact absurd (by simpa [readByte] using (h d.1).symm) (hn.2 d (by simp))
  | cons c m ih =>
    intro n hm hn h
    cases n with
    | nil => exact absurd (by simpa [readByte] using h c.1) (hm.2 c (by simp))
    | cons d n =>
      have hm1 := List.pairwise_cons.1 hm.1
      have hn1 := List.pairwise_cons.1 hn.1
      have key : c.1 = d.1 := by
        rcases lt_trichotomy c.1 d.1 with hlt | heq | hgt
        · have h1 := h c.1
          rw [low (m := d :: n) (a := c.1) (by
            intro e he
            rcases List.mem_cons.1 he with rfl | he
            · exact hlt
            · exact lt_trans hlt (hn1.1 e he))] at h1
          exact absurd (by simpa [readByte] using h1) (hm.2 c (by simp))
        · exact heq
        · have h1 := h d.1
          rw [low (m := c :: m) (a := d.1) (by
            intro e he
            rcases List.mem_cons.1 he with rfl | he
            · exact hgt
            · exact lt_trans hgt (hm1.1 e he))] at h1
          exact absurd (by simpa [readByte] using h1.symm) (hn.2 d (by simp))
      have hv : c.2 = d.2 := by
        have h1 := h c.1
        simpa [readByte, key] using h1
      have htail : ∀ a, readByte m a = readByte n a := by
        intro a
        by_cases ha : a = c.1
        · subst ha
          rw [low hm1.1, low (m := n) (a := c.1) (by intro e he; rw [key]; exact hn1.1 e he)]
        · have h1 := h a
          simpa [readByte, Ne.symm ha, ← key] using h1
      rw [ih ⟨hm1.2, fun e he => hm.2 e (by simp [he])⟩ ⟨hn1.2, fun e he => hn.2 e (by simp [he])⟩ htail]
      rw [show c = d from Prod.ext key hv]

@[simp] theorem readBytes_length (m : Memory) (a n : Nat) : (readBytes m a n).length = n := by simp [readBytes]

@[simp] theorem leBytes_length (n v : Nat) : (leBytes n v).length = n := by simp [leBytes]

@[simp] theorem byte_toNat (v : Nat) : (byte v).toNat = v % 256 := by simp [byte]

theorem leValue_shifted_bytes (n : Nat) : ∀ v : Nat, leValue ((List.range n).map (fun j => byte (v >>> (8 * j)))) = v % 256 ^ n := by
  induction n with
  | zero => intro v; simp [leValue, Nat.mod_one]
  | succ n ih =>
    intro v
    have hshift : ((fun j => byte (v >>> (8 * j))) ∘ Nat.succ) = fun j => byte ((v / 256) >>> (8 * j)) := by
      funext j
      have : v >>> (8 * (j + 1)) = (v / 256) >>> (8 * j) := by
        rw [show 8 * (j + 1) = 8 + 8 * j by ring, Nat.shiftRight_add, Nat.shiftRight_eq_div_pow v 8]
      simp [Function.comp, this]
    rw [List.range_succ_eq_map, List.map_cons, List.map_map, hshift, leValue, ih]
    simp only [Nat.mul_zero, Nat.shiftRight_zero, byte_toNat]
    rw [pow_succ, Nat.mul_comm (256 ^ n) 256, Nat.mod_mul]

/-- Reading back the bytes of a number gives the number modulo the width. -/
theorem leValue_leBytes (n v : Nat) : leValue (leBytes n v) = v % 256 ^ n := leValue_shifted_bytes n v

end Sys2Proof.Machine
end

