-- ==== Sys2Proof/Laws/Codec.lean ====
section
/-! SUPPORT. Ranges, packed sizes and the lengths of what the packer and the unpacker produce. -/

namespace Sys2Proof.Machine

theorem rangeHas_iff {r : Range} {a : Nat} : rangeHas r a = true ↔ r.base ≤ a ∧ a < r.base + r.len := by
  simp [rangeHas]

theorem mem_rangeAddrs {r : Range} {a : Nat} : a ∈ rangeAddrs r ↔ r.base ≤ a ∧ a < r.base + r.len := by
  simp [rangeAddrs, List.mem_range'_1]

@[simp] theorem rangeAddrs_length (r : Range) : (rangeAddrs r).length = r.len := by simp [rangeAddrs]

/-- The bytes of a range that the address space has. -/
theorem rangeHas_cutRange {p : Platform} {r : Range} {a : Nat} :
    rangeHas (cutRange p r) a = true ↔ rangeHas r a = true ∧ a < addrLimit p := by
  rw [rangeHas_iff, rangeHas_iff]
  simp only [cutRange]
  omega

theorem mem_cutRange {p : Platform} {r : Range} {a : Nat} :
    a ∈ rangeAddrs (cutRange p r) ↔ rangeHas r a = true ∧ a < addrLimit p := by
  rw [← rangeHas_cutRange, rangeHas_iff, mem_rangeAddrs]

theorem mem_addAddrs {r : Range} {l : List Nat} {a : Nat} : a ∈ addAddrs r l ↔ a ∈ l ∨ rangeHas r a = true := by
  simp only [addAddrs, List.mem_append, mem_rangeAddrs, List.mem_filter, rangeHas_iff, decide_eq_true_eq]
  constructor
  · tauto
  · intro h; rcases h with h | h
    · rcases Nat.lt_or_ge a r.base with h1 | h1
      · tauto
      · rcases Nat.lt_or_ge a (r.base + r.len) with h2 | h2 <;> tauto
    · tauto

theorem mem_dropAddrs {r : Range} {l : List Nat} {a : Nat} : a ∈ dropAddrs r l ↔ a ∈ l ∧ rangeHas r a = false := by
  simp [dropAddrs]

/-- Two ranges meet exactly when some byte address lies in both (R60). -/
theorem rangesMeet_iff {r q : Range} : rangesMeet r q = true ↔ ∃ a, rangeHas r a = true ∧ rangeHas q a = true := by
  simp only [rangesMeet, decide_eq_true_eq, rangeHas_iff]
  constructor
  · intro h; exact ⟨max r.base q.base, by omega, by omega⟩
  · rintro ⟨a, h1, h2⟩; omega

theorem rangeFits_iff {p : Platform} {r : Range} : rangeFits p r = true ↔ r.base + r.len ≤ 2 ^ p.addrWidth := by
  simp [rangeFits]

theorem symAligned_iff {p : Platform} {b : Inst} : symAligned p b = true ↔ b.lSymAddr.toNat % symBytes p = 0 := by
  simp [symAligned]

theorem memAdmit_lt {p : Platform} {a : Nat} (h : memAdmit p a = true) : a < 2 ^ p.addrWidth := by
  simp only [memAdmit, Bool.and_eq_true, decide_eq_true_eq] at h; exact h.1

theorem rangeAdmitted_iff {p : Platform} {r : Range} :
    rangeAdmitted p r = true ↔ ∀ a, rangeHas r a = true → memAdmit p a = true := by
  simp [rangeAdmitted, mem_rangeAddrs, rangeHas_iff]

/-- The ranges of a command in flight depend on its latched operands alone (R40). -/
theorem flightWindow_congr {p : Platform} {b c : Inst} (h1 : c.lCmd = b.lCmd) (h2 : c.lCount = b.lCount)
    (h3 : c.lSymAddr = b.lSymAddr) (h4 : c.lPkdAddr = b.lPkdAddr) : flightWindow p c = flightWindow p b := by
  simp only [flightWindow, flightBytes, symRange, h1, h2, h3, h4]

/-- A word that spells a command has that command's direction in its DIR bit (R81, R91). -/
theorem dirField_of_decode {v : Word} {i : Instr} {dir : Dir} {w : Width} (hd : decode v = .ok i)
    (hj : commandJob i = some (dir, w)) : dirField v = dir := by
  unfold decode at hd
  split at hd
  · cases hd
  · split at hd <;> split at hd <;> cases hd
    · revert hj; cases dirField v <;> cases Width.ofCode (wcodeField v) <;> simp +contextual [directInstr, commandJob]
    · revert hj; cases dirField v <;> simp +contextual [dispatchedInstr, commandJob]

/-- The ranges of a command in flight that has a width (R44). -/
theorem flightWindow_of_decode {p : Platform} {b : Inst} {i : Instr} {dir : Dir} {w : Width} (hd : decode b.lCmd = .ok i)
    (hj : commandJob i = some (dir, w)) : flightWindow p b = commandWindow p dir w b := by
  simp only [flightWindow, flightBytes, commandWindow, pkdRange, hd, hj, dirField_of_decode hd hj]

/-! ### Packed sizes (R78) -/

theorem packedSize_w4 (n : Nat) : packedSize .w4 n = n / 2 + n % 2 := by simp only [packedSize, Width.bits]; omega

theorem packedSize_w6 (n : Nat) : packedSize .w6 n = 3 * (n / 4) + n % 4 := by simp only [packedSize, Width.bits]; omega

theorem packedSize_w8 (n : Nat) : packedSize .w8 n = n := by simp only [packedSize, Width.bits]; omega

theorem packedSize_w12 (n : Nat) : packedSize .w12 n = 3 * (n / 2) + 2 * (n % 2) := by
  simp only [packedSize, Width.bits]; omega

/-- A packed buffer is never longer than one and a half bytes a symbol. -/
theorem packedSize_le (w : Width) (n : Nat) : packedSize w n ≤ 2 * n := by
  cases w <;> simp only [packedSize, Width.bits] <;> omega

theorem symBytes_ge_two (p : Platform) : 2 ≤ symBytes p := by
  unfold symBytes; cases p.symWidth <;> simp [SymWidth.bytes]

/-! ### Lengths (R125, R146) -/

theorem pack4Bytes_length (pad : BitVec 4) : ∀ syms, (pack4Bytes pad syms).length = packedSize .w4 syms.length
  | [] => rfl
  | [_] => by simp [pack4Bytes, packedSize_w4]
  | _ :: _ :: rest => by
    simp only [pack4Bytes, List.length_cons, pack4Bytes_length pad rest, packedSize_w4]; omega

theorem pack6Bytes_length : ∀ syms, (pack6Bytes syms).length = packedSize .w6 syms.length
  | [] => rfl
  | [_] => by simp [pack6Bytes, packedSize_w6]
  | [_, _] => by simp [pack6Bytes, packedSize_w6]
  | [_, _, _] => by simp [pack6Bytes, packedSize_w6]
  | _ :: _ :: _ :: _ :: rest => by
    simp only [pack6Bytes, List.length_cons, pack6Bytes_length rest, packedSize_w6]; omega

theorem pack12Bytes_length (pad : BitVec 4) : ∀ syms, (pack12Bytes pad syms).length = packedSize .w12 syms.length
  | [] => rfl
  | [_] => by simp [pack12Bytes, packedSize_w12]
  | _ :: _ :: rest => by
    simp only [pack12Bytes, List.length_cons, pack12Bytes_length pad rest, packedSize_w12]; omega

@[simp] theorem packBytes_length (w : Width) (pad : BitVec 4) (syms : List Nat) :
    (packBytes w pad syms).length = packedSize w syms.length := by
  cases w with
  | w4 => exact pack4Bytes_length pad syms
  | w6 => exact pack6Bytes_length syms
  | w8 => simp [packBytes, pack8Bytes, packedSize_w8]
  | w12 => exact pack12Bytes_length pad syms

@[simp] theorem unpackSymbols_length (w : Width) (bs : List Byte) (n : Nat) : (unpackSymbols w bs n).length = n := by
  simp [unpackSymbols]

@[simp] theorem symbolBytes_length (p : Platform) (syms : List Nat) :
    (symbolBytes p syms).length = symBytes p * syms.length := by
  induction syms with
  | nil => rfl
  | cons v syms ih =>
    simp only [symbolBytes, List.flatMap_cons, List.length_append, leBytes_length, List.length_cons] at ih ⊢
    rw [ih]; ring

@[simp] theorem sourceSymbols_length (s : State) : (sourceSymbols s).length = countOf s := by simp [sourceSymbols]

@[simp] theorem sourceBytes_length (w : Width) (s : State) : (sourceBytes w s).length = packedSize w (countOf s) := by
  simp [sourceBytes]

end Sys2Proof.Machine
end

