-- ==== Sys2Proof/Laws/State.lean ====
section
/-! SUPPORT. The small lemmas of the state's update operations: one per operation and field. -/

namespace Sys2Proof.Machine

/-! ### Replacing a block -/

@[simp] theorem setInst_plat (s : State) (k : Nat) (b : Inst) : (setInst s k b).plat = s.plat := rfl
@[simp] theorem setInst_insts (s : State) (k : Nat) (b : Inst) : (setInst s k b).insts = s.insts.set k b := rfl
@[simp] theorem setInst_turn (s : State) (k : Nat) (b : Inst) : (setInst s k b).turn = s.turn := rfl
@[simp] theorem setInst_mem (s : State) (k : Nat) (b : Inst) : (setInst s k b).mem = s.mem := rfl
@[simp] theorem setInst_faults (s : State) (k : Nat) (b : Inst) : (setInst s k b).faults = s.faults := rfl
@[simp] theorem setInst_refused (s : State) (k : Nat) (b : Inst) : (setInst s k b).refused = s.refused := rfl
@[simp] theorem setInst_inputs (s : State) (k : Nat) (b : Inst) : (setInst s k b).inputs = s.inputs := rfl
@[simp] theorem setInst_draws (s : State) (k : Nat) (b : Inst) : (setInst s k b).draws = s.draws := rfl
@[simp] theorem setInst_reply (s : State) (k : Nat) (b : Inst) : (setInst s k b).reply = s.reply := rfl
@[simp] theorem setInst_uncleaned (s : State) (k : Nat) (b : Inst) : (setInst s k b).uncleaned = s.uncleaned := rfl
@[simp] theorem setInst_stale (s : State) (k : Nat) (b : Inst) : (setInst s k b).stale = s.stale := rfl

theorem getInst_setInst (s : State) (k j : Nat) (b : Inst) (h : k < s.insts.length) :
    getInst (setInst s k b) j = if j = k then b else getInst s j := by
  simp only [getInst, setInst_insts, List.getElem?_set, h, if_true, eq_comm (a := k)]
  split <;> simp_all

@[simp] theorem getInst_setInst_same {s : State} {k : Nat} (b : Inst) (h : k < s.insts.length) :
    getInst (setInst s k b) k = b := by
  rw [getInst_setInst _ _ _ _ h, if_pos rfl]

@[simp] theorem getInst_setInst_other (s : State) {k j : Nat} (b : Inst) (h : j ≠ k) :
    getInst (setInst s k b) j = getInst s j := by
  simp [getInst, Ne.symm h]

theorem getInst_mem {s : State} {k : Nat} (h : k < s.insts.length) : getInst s k ∈ s.insts := by
  simp [getInst, h]

theorem getInst_eq_getElem {s : State} {k : Nat} (h : k < s.insts.length) : getInst s k = s.insts[k] := by
  simp [getInst, h]

/-! ### Storing, drawing and completing -/

@[simp] theorem oweInvalidate_plat (r : Range) (s : State) : (oweInvalidate r s).plat = s.plat := rfl
@[simp] theorem oweInvalidate_insts (r : Range) (s : State) : (oweInvalidate r s).insts = s.insts := rfl
@[simp] theorem oweInvalidate_turn (r : Range) (s : State) : (oweInvalidate r s).turn = s.turn := rfl
@[simp] theorem oweInvalidate_mem (r : Range) (s : State) : (oweInvalidate r s).mem = s.mem := rfl
@[simp] theorem oweInvalidate_faults (r : Range) (s : State) : (oweInvalidate r s).faults = s.faults := rfl
@[simp] theorem oweInvalidate_refused (r : Range) (s : State) : (oweInvalidate r s).refused = s.refused := rfl
@[simp] theorem oweInvalidate_inputs (r : Range) (s : State) : (oweInvalidate r s).inputs = s.inputs := rfl
@[simp] theorem oweInvalidate_draws (r : Range) (s : State) : (oweInvalidate r s).draws = s.draws := rfl
@[simp] theorem oweInvalidate_reply (r : Range) (s : State) : (oweInvalidate r s).reply = s.reply := rfl
@[simp] theorem oweInvalidate_uncleaned (r : Range) (s : State) : (oweInvalidate r s).uncleaned = s.uncleaned := rfl
@[simp] theorem oweInvalidate_stale (r : Range) (s : State) : (oweInvalidate r s).stale = if s.plat.coherent then s.stale else addAddrs r s.stale := rfl

@[simp] theorem markStored_plat (r : Range) (s : State) : (markStored r s).plat = s.plat := rfl
@[simp] theorem markStored_insts (r : Range) (s : State) : (markStored r s).insts = s.insts := rfl
@[simp] theorem markStored_turn (r : Range) (s : State) : (markStored r s).turn = s.turn := rfl
@[simp] theorem markStored_mem (r : Range) (s : State) : (markStored r s).mem = s.mem := rfl
@[simp] theorem markStored_faults (r : Range) (s : State) : (markStored r s).faults = s.faults := rfl
@[simp] theorem markStored_refused (r : Range) (s : State) : (markStored r s).refused = s.refused := rfl
@[simp] theorem markStored_inputs (r : Range) (s : State) : (markStored r s).inputs = s.inputs := rfl
@[simp] theorem markStored_draws (r : Range) (s : State) : (markStored r s).draws = s.draws := rfl
@[simp] theorem markStored_reply (r : Range) (s : State) : (markStored r s).reply = s.reply := rfl
@[simp] theorem markStored_uncleaned (r : Range) (s : State) : (markStored r s).uncleaned = if s.plat.coherent then s.uncleaned else dropAddrs r s.uncleaned := rfl
@[simp] theorem markStored_stale (r : Range) (s : State) : (markStored r s).stale = if s.plat.coherent then s.stale else addAddrs r s.stale := rfl

@[simp] theorem storeBytes_plat (a : Nat) (bs : List Byte) (s : State) : (storeBytes a bs s).plat = s.plat := by simp [storeBytes]
@[simp] theorem storeBytes_insts (a : Nat) (bs : List Byte) (s : State) : (storeBytes a bs s).insts = s.insts := by simp [storeBytes]
@[simp] theorem storeBytes_turn (a : Nat) (bs : List Byte) (s : State) : (storeBytes a bs s).turn = s.turn := by simp [storeBytes]
@[simp] theorem storeBytes_mem (a : Nat) (bs : List Byte) (s : State) : (storeBytes a bs s).mem = writeBytes s.mem a bs := by simp [storeBytes]
@[simp] theorem storeBytes_faults (a : Nat) (bs : List Byte) (s : State) : (storeBytes a bs s).faults = s.faults := by simp [storeBytes]
@[simp] theorem storeBytes_refused (a : Nat) (bs : List Byte) (s : State) : (storeBytes a bs s).refused = s.refused := by simp [storeBytes]
@[simp] theorem storeBytes_inputs (a : Nat) (bs : List Byte) (s : State) : (storeBytes a bs s).inputs = s.inputs := by simp [storeBytes]
@[simp] theorem storeBytes_draws (a : Nat) (bs : List Byte) (s : State) : (storeBytes a bs s).draws = s.draws := by simp [storeBytes]
@[simp] theorem storeBytes_reply (a : Nat) (bs : List Byte) (s : State) : (storeBytes a bs s).reply = s.reply := by simp [storeBytes]
@[simp] theorem storeBytes_uncleaned (a : Nat) (bs : List Byte) (s : State) : (storeBytes a bs s).uncleaned = if s.plat.coherent then s.uncleaned else dropAddrs ⟨a, bs.length⟩ s.uncleaned := by simp [storeBytes]
@[simp] theorem storeBytes_stale (a : Nat) (bs : List Byte) (s : State) : (storeBytes a bs s).stale = if s.plat.coherent then s.stale else addAddrs ⟨a, bs.length⟩ s.stale := by simp [storeBytes]

@[simp] theorem countDraw_plat (d : Bool) (s : State) : (countDraw d s).plat = s.plat := rfl
@[simp] theorem countDraw_insts (d : Bool) (s : State) : (countDraw d s).insts = s.insts := rfl
@[simp] theorem countDraw_turn (d : Bool) (s : State) : (countDraw d s).turn = s.turn := rfl
@[simp] theorem countDraw_mem (d : Bool) (s : State) : (countDraw d s).mem = s.mem := rfl
@[simp] theorem countDraw_faults (d : Bool) (s : State) : (countDraw d s).faults = s.faults := rfl
@[simp] theorem countDraw_refused (d : Bool) (s : State) : (countDraw d s).refused = s.refused := rfl
@[simp] theorem countDraw_inputs (d : Bool) (s : State) : (countDraw d s).inputs = s.inputs := rfl
@[simp] theorem countDraw_draws (d : Bool) (s : State) : (countDraw d s).draws = s.draws + (if d then 1 else 0) := rfl
@[simp] theorem countDraw_reply (d : Bool) (s : State) : (countDraw d s).reply = s.reply := rfl
@[simp] theorem countDraw_uncleaned (d : Bool) (s : State) : (countDraw d s).uncleaned = s.uncleaned := rfl
@[simp] theorem countDraw_stale (d : Bool) (s : State) : (countDraw d s).stale = s.stale := rfl

@[simp] theorem drawAddrs_plat (l : List Nat) (s : State) : (drawAddrs l s).plat = s.plat := rfl
@[simp] theorem drawAddrs_insts (l : List Nat) (s : State) : (drawAddrs l s).insts = s.insts := rfl
@[simp] theorem drawAddrs_turn (l : List Nat) (s : State) : (drawAddrs l s).turn = s.turn := rfl
@[simp] theorem drawAddrs_mem (l : List Nat) (s : State) : (drawAddrs l s).mem = scatterDraws s.mem s.draws l := rfl
@[simp] theorem drawAddrs_faults (l : List Nat) (s : State) : (drawAddrs l s).faults = s.faults := rfl
@[simp] theorem drawAddrs_refused (l : List Nat) (s : State) : (drawAddrs l s).refused = s.refused := rfl
@[simp] theorem drawAddrs_inputs (l : List Nat) (s : State) : (drawAddrs l s).inputs = s.inputs := rfl
@[simp] theorem drawAddrs_draws (l : List Nat) (s : State) : (drawAddrs l s).draws = s.draws + l.length := rfl
@[simp] theorem drawAddrs_reply (l : List Nat) (s : State) : (drawAddrs l s).reply = s.reply := rfl
@[simp] theorem drawAddrs_uncleaned (l : List Nat) (s : State) : (drawAddrs l s).uncleaned = s.uncleaned := rfl
@[simp] theorem drawAddrs_stale (l : List Nat) (s : State) : (drawAddrs l s).stale = s.stale := rfl

@[simp] theorem abandonRange_plat (r : Range) (s : State) : (abandonRange r s).plat = s.plat := by simp [abandonRange]
@[simp] theorem abandonRange_insts (r : Range) (s : State) : (abandonRange r s).insts = s.insts := by simp [abandonRange]
@[simp] theorem abandonRange_turn (r : Range) (s : State) : (abandonRange r s).turn = s.turn := by simp [abandonRange]
@[simp] theorem abandonRange_mem (r : Range) (s : State) : (abandonRange r s).mem = scatterDraws s.mem s.draws (rangeAddrs (cutRange s.plat r)) := by simp [abandonRange]
@[simp] theorem abandonRange_faults (r : Range) (s : State) : (abandonRange r s).faults = s.faults := by simp [abandonRange]
@[simp] theorem abandonRange_refused (r : Range) (s : State) : (abandonRange r s).refused = s.refused := by simp [abandonRange]
@[simp] theorem abandonRange_inputs (r : Range) (s : State) : (abandonRange r s).inputs = s.inputs := by simp [abandonRange]
@[simp] theorem abandonRange_draws (r : Range) (s : State) : (abandonRange r s).draws = s.draws + (cutRange s.plat r).len := by simp [abandonRange, rangeAddrs]
@[simp] theorem abandonRange_reply (r : Range) (s : State) : (abandonRange r s).reply = s.reply := by simp [abandonRange]
@[simp] theorem abandonRange_uncleaned (r : Range) (s : State) : (abandonRange r s).uncleaned = if s.plat.coherent then s.uncleaned else dropAddrs (cutRange s.plat r) s.uncleaned := rfl
@[simp] theorem abandonRange_stale (r : Range) (s : State) : (abandonRange r s).stale = if s.plat.coherent then s.stale else addAddrs (cutRange s.plat r) s.stale := rfl

@[simp] theorem completeError_plat (c : ErrCode) (s : State) : (completeError c s).plat = s.plat := rfl
@[simp] theorem completeError_insts (c : ErrCode) (s : State) : (completeError c s).insts = s.insts.set s.turn (completeRegs c 0 (activeInst s)) := rfl
@[simp] theorem completeError_turn (c : ErrCode) (s : State) : (completeError c s).turn = s.turn := rfl
@[simp] theorem completeError_mem (c : ErrCode) (s : State) : (completeError c s).mem = s.mem := rfl
@[simp] theorem completeError_faults (c : ErrCode) (s : State) : (completeError c s).faults = s.faults := rfl
@[simp] theorem completeError_refused (c : ErrCode) (s : State) : (completeError c s).refused = s.refused := rfl
@[simp] theorem completeError_inputs (c : ErrCode) (s : State) : (completeError c s).inputs = s.inputs := rfl
@[simp] theorem completeError_draws (c : ErrCode) (s : State) : (completeError c s).draws = s.draws := rfl
@[simp] theorem completeError_reply (c : ErrCode) (s : State) : (completeError c s).reply = s.reply := rfl
@[simp] theorem completeError_uncleaned (c : ErrCode) (s : State) : (completeError c s).uncleaned = s.uncleaned := rfl
@[simp] theorem completeError_stale (c : ErrCode) (s : State) : (completeError c s).stale = s.stale := rfl

@[simp] theorem failCommand_plat (c : ErrCode) (v : Window) (s : State) : (failCommand c v s).plat = s.plat := rfl
@[simp] theorem failCommand_insts (c : ErrCode) (v : Window) (s : State) : (failCommand c v s).insts = s.insts.set s.turn (completeRegs c 0 (activeInst s)) := rfl
@[simp] theorem failCommand_turn (c : ErrCode) (v : Window) (s : State) : (failCommand c v s).turn = s.turn := rfl
@[simp] theorem failCommand_mem (c : ErrCode) (v : Window) (s : State) : (failCommand c v s).mem = s.mem := rfl
@[simp] theorem failCommand_faults (c : ErrCode) (v : Window) (s : State) : (failCommand c v s).faults = s.faults := rfl
@[simp] theorem failCommand_refused (c : ErrCode) (v : Window) (s : State) : (failCommand c v s).refused = s.refused := rfl
@[simp] theorem failCommand_inputs (c : ErrCode) (v : Window) (s : State) : (failCommand c v s).inputs = s.inputs := rfl
@[simp] theorem failCommand_draws (c : ErrCode) (v : Window) (s : State) : (failCommand c v s).draws = s.draws := rfl
@[simp] theorem failCommand_reply (c : ErrCode) (v : Window) (s : State) : (failCommand c v s).reply = s.reply := rfl
@[simp] theorem failCommand_uncleaned (c : ErrCode) (v : Window) (s : State) : (failCommand c v s).uncleaned = s.uncleaned := rfl
@[simp] theorem failCommand_stale (c : ErrCode) (v : Window) (s : State) : (failCommand c v s).stale = if s.plat.coherent then s.stale else addAddrs (cutRange s.plat (destRange v)) s.stale := rfl

@[simp] theorem completeOk_plat (w : Width) (s : State) : (completeOk w s).plat = s.plat := rfl
@[simp] theorem completeOk_insts (w : Width) (s : State) : (completeOk w s).insts = s.insts.set s.turn (completeRegs .ok (packedSize w (countOf s)) (activeInst s)) := rfl
@[simp] theorem completeOk_turn (w : Width) (s : State) : (completeOk w s).turn = s.turn := rfl
@[simp] theorem completeOk_mem (w : Width) (s : State) : (completeOk w s).mem = s.mem := rfl
@[simp] theorem completeOk_faults (w : Width) (s : State) : (completeOk w s).faults = s.faults := rfl
@[simp] theorem completeOk_refused (w : Width) (s : State) : (completeOk w s).refused = s.refused := rfl
@[simp] theorem completeOk_inputs (w : Width) (s : State) : (completeOk w s).inputs = s.inputs := rfl
@[simp] theorem completeOk_draws (w : Width) (s : State) : (completeOk w s).draws = s.draws := rfl
@[simp] theorem completeOk_reply (w : Width) (s : State) : (completeOk w s).reply = s.reply := rfl
@[simp] theorem completeOk_uncleaned (w : Width) (s : State) : (completeOk w s).uncleaned = s.uncleaned := rfl
@[simp] theorem completeOk_stale (w : Width) (s : State) : (completeOk w s).stale = s.stale := rfl

@[simp] theorem activeInst_markStored (r : Range) (s : State) : activeInst (markStored r s) = activeInst s := by simp [activeInst, getInst]
@[simp] theorem countOf_markStored (r : Range) (s : State) : countOf (markStored r s) = countOf s := by simp [countOf]
@[simp] theorem getInst_markStored (r : Range) (s : State) (k : Nat) : getInst (markStored r s) k = getInst s k := by simp [getInst]
@[simp] theorem activeInst_storeBytes (a : Nat) (bs : List Byte) (s : State) : activeInst (storeBytes a bs s) = activeInst s := by simp [activeInst, getInst]
@[simp] theorem countOf_storeBytes (a : Nat) (bs : List Byte) (s : State) : countOf (storeBytes a bs s) = countOf s := by simp [countOf]
@[simp] theorem getInst_storeBytes (a : Nat) (bs : List Byte) (s : State) (k : Nat) : getInst (storeBytes a bs s) k = getInst s k := by simp [getInst]
@[simp] theorem activeInst_countDraw (d : Bool) (s : State) : activeInst (countDraw d s) = activeInst s := by simp [activeInst, getInst]
@[simp] theorem countOf_countDraw (d : Bool) (s : State) : countOf (countDraw d s) = countOf s := by simp [countOf]
@[simp] theorem getInst_countDraw (d : Bool) (s : State) (k : Nat) : getInst (countDraw d s) k = getInst s k := by simp [getInst]
@[simp] theorem activeInst_drawAddrs (l : List Nat) (s : State) : activeInst (drawAddrs l s) = activeInst s := by simp [activeInst, getInst]
@[simp] theorem countOf_drawAddrs (l : List Nat) (s : State) : countOf (drawAddrs l s) = countOf s := by simp [countOf]
@[simp] theorem getInst_drawAddrs (l : List Nat) (s : State) (k : Nat) : getInst (drawAddrs l s) k = getInst s k := by simp [getInst]

@[simp] theorem activeInst_setActive {s : State} (b : Inst) (h : s.turn < s.insts.length) :
    activeInst (setActive s b) = b := by
  simp [activeInst, setActive, h]

@[simp] theorem activeInst_completeOk (w : Width) {s : State} (h : s.turn < s.insts.length) :
    activeInst (completeOk w s) = completeRegs .ok (packedSize w (countOf s)) (activeInst s) :=
  activeInst_setActive _ h

@[simp] theorem activeInst_completeError (c : ErrCode) {s : State} (h : s.turn < s.insts.length) :
    activeInst (completeError c s) = completeRegs c 0 (activeInst s) :=
  activeInst_setActive _ h

@[simp] theorem activeInst_failCommand (c : ErrCode) (v : Window) {s : State} (h : s.turn < s.insts.length) :
    activeInst (failCommand c v s) = completeRegs c 0 (activeInst s) :=
  activeInst_completeError c h

/-! ### What completing a command leaves in the block -/

theorem completeRegs_operands (c : ErrCode) (n : Nat) (b : Inst) : SameOperands b (completeRegs c n b) :=
  ⟨rfl, rfl, rfl, rfl, rfl, rfl, rfl, rfl, rfl, rfl⟩

theorem sameOperands_refl (b : Inst) : SameOperands b b := ⟨rfl, rfl, rfl, rfl, rfl, rfl, rfl, rfl, rfl, rfl⟩

/-- Replacing the active block by one with the same operands, where memory, draws and coherence marks may differ too. -/
theorem setActive_elsewhere {s t : State} (b : Inst) (hp : t.plat = s.plat) (ht : t.turn = s.turn) (hi : t.insts = s.insts)
    (hf : t.faults = s.faults) (hr : t.refused = s.refused) (hn : t.inputs = s.inputs) (hy : t.reply = s.reply)
    (hb : SameOperands (activeInst s) b) : SameElsewhere s (setActive t b) := by
  refine ⟨hp, ht, by simp [setActive, hi], ?_, ?_, hf, hr, hn, hy⟩
  · intro k hk
    simp [setActive, ht, hi, Ne.symm hk]
  · by_cases h : s.turn < s.insts.length
    · rw [activeInst_setActive b (by rw [ht, hi]; exact h)]; exact hb
    · have : activeInst (setActive t b) = activeInst s := by
        simp [activeInst, getInst, setActive, ht, hi, List.set_eq_of_length_le (Nat.le_of_not_lt h)]
      rw [this]; exact sameOperands_refl _

end Sys2Proof.Machine
end

