-- ==== Sys2Proof/Laws/Commands.lean ====
section
/-! SUPPORT. Everything a command can do, said once: the cases of the checks, and of a command that answers a next state. -/

namespace Sys2Proof.Machine

/-- The three ways through the checks of R103. -/
theorem checkedCommand_cases (dir : Dir) (w : Width) (s : State) (body : Result) :
    (operandError s.plat w (activeInst s) ≠ .ok ∧
      checkedCommand dir w s body = .next (failCommand (operandError s.plat w (activeInst s)) (activeWindow dir w s) s)) ∨
    (operandError s.plat w (activeInst s) = .ok ∧ ∃ f, accessFault s (activeWindow dir w s) = some f ∧
      checkedCommand dir w s body = .fault f) ∨
    (operandError s.plat w (activeInst s) = .ok ∧ accessFault s (activeWindow dir w s) = none ∧
      checkedCommand dir w s body = body) := by
  by_cases h : operandError s.plat w (activeInst s) = .ok
  · right
    cases hf : accessFault s (activeWindow dir w s) with
    | none => right; simp only [activeWindow] at hf; simp [checkedCommand, h, hf]
    | some f => left; simp only [activeWindow] at hf; simp [checkedCommand, h, hf]
  · left; simp [checkedCommand, h, activeWindow]

/-- What a pack body leaves when no symbol is out of range (R120). -/
theorem packBody_of_inRange {w : Width} {s : State} (h : symbolsOutOfRange w (sourceSymbols s) = false) :
    packBody w s = .next (completeOk w (countDraw (drawsPadding w (countOf s))
      (storeBytes (activeInst s).lPkdAddr.toNat (packBytes w (Config.draw4 s.draws) (sourceSymbols s)) s))) := by
  simp [packBody, h]

theorem packBody_of_outOfRange {w : Width} {s : State} (h : symbolsOutOfRange w (sourceSymbols s) = true) :
    packBody w s = .fault .symbolRange := by
  simp [packBody, h]

/-- The ways a command of a given direction and width answers a next state: an operand error, or its body's stores into exactly
its destination range and `complete(OK)`. -/
inductive JobOutcome (dir : Dir) (w : Width) (s t : State) : Prop where
  | error (code : ErrCode) (hc : operandError s.plat w (activeInst s) = code) (ne : code ≠ .ok)
      (ht : t = failCommand code (activeWindow dir w s) s)
  | stored (bs : List Byte) (drawn : Bool) (ok : operandError s.plat w (activeInst s) = .ok)
      (clear : accessFault s (activeWindow dir w s) = none) (len : bs.length = (destRange (activeWindow dir w s)).len)
      (draw : drawn = (match dir with | .pack => drawsPadding w (countOf s) | .unpack => false))
      (ht : t = completeOk w (countDraw drawn (storeBytes (destRange (activeWindow dir w s)).base bs s)))

theorem countDraw_false (s : State) : countDraw false s = s := rfl

theorem packCommand_next {w : Width} {s t : State} (h : packCommand w s = .next t) : JobOutcome .pack w s t := by
  rcases checkedCommand_cases .pack w s (packBody w s) with ⟨hne, he⟩ | ⟨_, f, _, he⟩ | ⟨hok, hcl, he⟩
  · rw [packCommand, he] at h; cases h; exact .error _ rfl hne rfl
  · rw [packCommand, he] at h; cases h
  · rw [packCommand, he] at h
    cases hr : symbolsOutOfRange w (sourceSymbols s) with
    | true => rw [packBody_of_outOfRange hr] at h; cases h
    | false =>
      rw [packBody_of_inRange hr] at h; cases h
      exact .stored _ _ hok hcl (by simp [destRange, activeWindow, commandWindow, pkdRange, countOf]) rfl rfl

theorem unpackCommand_next {w : Width} {s t : State} (h : unpackCommand w s = .next t) : JobOutcome .unpack w s t := by
  rcases checkedCommand_cases .unpack w s (unpackBody w s) with ⟨hne, he⟩ | ⟨_, f, _, he⟩ | ⟨hok, hcl, he⟩
  · rw [unpackCommand, he] at h; cases h; exact .error _ rfl hne rfl
  · rw [unpackCommand, he] at h; cases h
  · rw [unpackCommand, he] at h; cases h
    exact .stored _ false hok hcl (by simp [destRange, activeWindow, commandWindow, symRange, countOf]) rfl rfl

/-- Everything a command can do when it answers a next state: EWIDTH where it has no width (R161), else its job's outcome. -/
theorem exec_next {i : Instr} {s t : State} (h : exec i s = .next t) :
    (commandJob i = none ∧ ∃ dir, (∃ b, i = dispatchedInstr dir b) ∧
      t = failCommand .ewidth (widthlessWindow s.plat dir (activeInst s)) s) ∨
    ∃ dir w, commandJob i = some (dir, w) ∧ JobOutcome dir w s t := by
  cases i with
  | pack b =>
    cases hd : dispatch b with
    | none =>
      left; simp only [exec, execPack, hd] at h; cases h
      exact ⟨by simp [commandJob, hd], .pack, ⟨b, rfl⟩, rfl⟩
    | some w =>
      right; simp only [exec, execPack, hd] at h; exact ⟨.pack, w, by simp [commandJob, hd], packCommand_next h⟩
  | unpack b =>
    cases hd : dispatch b with
    | none =>
      left; simp only [exec, execUnpack, hd] at h; cases h
      exact ⟨by simp [commandJob, hd], .unpack, ⟨b, rfl⟩, rfl⟩
    | some w =>
      right; simp only [exec, execUnpack, hd] at h; exact ⟨.unpack, w, by simp [commandJob, hd], unpackCommand_next h⟩
  | pack4 => exact .inr ⟨_, _, rfl, packCommand_next h⟩
  | pack6 => exact .inr ⟨_, _, rfl, packCommand_next h⟩
  | pack8 => exact .inr ⟨_, _, rfl, packCommand_next h⟩
  | pack12 => exact .inr ⟨_, _, rfl, packCommand_next h⟩
  | unpack4 => exact .inr ⟨_, _, rfl, unpackCommand_next h⟩
  | unpack6 => exact .inr ⟨_, _, rfl, unpackCommand_next h⟩
  | unpack8 => exact .inr ⟨_, _, rfl, unpackCommand_next h⟩
  | unpack12 => exact .inr ⟨_, _, rfl, unpackCommand_next h⟩

/-- A command of a given direction and width is that direction's shared command. -/
theorem exec_of_job {i : Instr} {dir : Dir} {w : Width} (h : commandJob i = some (dir, w)) (s : State) :
    exec i s = (match dir with | .pack => packCommand w s | .unpack => unpackCommand w s) := by
  cases i with
  | pack b =>
    cases hd : dispatch b with
    | none => simp [commandJob, hd] at h
    | some v =>
      simp only [commandJob, hd, Option.map_some, Option.some.injEq, Prod.mk.injEq] at h
      obtain ⟨rfl, rfl⟩ := h
      simp [exec, execPack, hd]
  | unpack b =>
    cases hd : dispatch b with
    | none => simp [commandJob, hd] at h
    | some v =>
      simp only [commandJob, hd, Option.map_some, Option.some.injEq, Prod.mk.injEq] at h
      obtain ⟨rfl, rfl⟩ := h
      simp [exec, execUnpack, hd]
  | pack4 => cases h; rfl
  | pack6 => cases h; rfl
  | pack8 => cases h; rfl
  | pack12 => cases h; rfl
  | unpack4 => cases h; rfl
  | unpack6 => cases h; rfl
  | unpack8 => cases h; rfl
  | unpack12 => cases h; rfl

theorem operandError_ok_iff {w : Width} {s : State} :
    operandError s.plat w (activeInst s) = .ok ↔ OperandsFit w s := by
  have key : operandError s.plat w (activeInst s) = .ok ↔
      symAligned s.plat (activeInst s) = true ∧ rangeFits s.plat (symRange s.plat (activeInst s)) = true ∧
        rangeFits s.plat (pkdRange w (activeInst s)) = true := by
    unfold operandError
    cases symAligned s.plat (activeInst s) <;> cases rangeFits s.plat (symRange s.plat (activeInst s)) <;>
      cases rangeFits s.plat (pkdRange w (activeInst s)) <;> simp
  rw [key]
  simp only [symAligned_iff, rangeFits_iff]
  exact ⟨fun ⟨h1, h2, h3⟩ => ⟨h1, h2, h3⟩, fun ⟨h1, h2, h3⟩ => ⟨h1, h2, h3⟩⟩

theorem operandError_ealign {w : Width} {s : State} (h : (activeInst s).lSymAddr.toNat % symBytes s.plat ≠ 0) :
    operandError s.plat w (activeInst s) = .ealign := by
  simp [operandError, symAligned, h]

theorem operandError_erange {w : Width} {s : State} (ha : (activeInst s).lSymAddr.toNat % symBytes s.plat = 0)
    (h : 2 ^ s.plat.addrWidth < (activeInst s).lSymAddr.toNat + symBytes s.plat * countOf s ∨
      2 ^ s.plat.addrWidth < (activeInst s).lPkdAddr.toNat + packedSize w (countOf s)) :
    operandError s.plat w (activeInst s) = .erange := by
  have : (rangeFits s.plat (symRange s.plat (activeInst s)) && rangeFits s.plat (pkdRange w (activeInst s))) = false := by
    rw [Bool.and_eq_false_iff, ← Bool.not_eq_true, ← Bool.not_eq_true, rangeFits_iff, rangeFits_iff, not_le, not_le]
    exact h
  simp [operandError, symAligned, ha, this]

/-- Under `CommandRuns` the checks pass and no fault is raised before the body. -/
theorem CommandRuns.checks {dir : Dir} {w : Width} {s : State} (h : CommandRuns dir w s) :
    operandError s.plat w (activeInst s) = .ok ∧ accessFault s (activeWindow dir w s) = none := by
  refine ⟨operandError_ok_iff.2 h.operands, ?_⟩
  simp [accessFault, h.apart, h.admitted.1, h.admitted.2, h.unraced]

theorem checkedCommand_runs {dir : Dir} {w : Width} {s : State} (h : CommandRuns dir w s) (body : Result) :
    checkedCommand dir w s body = body := by
  rcases checkedCommand_cases dir w s body with ⟨hne, _⟩ | ⟨_, f, hf, _⟩ | ⟨_, _, he⟩
  · exact absurd h.checks.1 hne
  · rw [h.checks.2] at hf; cases hf
  · exact he

theorem completeError_elsewhere (c : ErrCode) (s : State) : SameElsewhere s (completeError c s) :=
  setActive_elsewhere _ rfl rfl rfl rfl rfl rfl rfl (completeRegs_operands _ _ _)

theorem completeOk_elsewhere (w : Width) (a : Nat) (bs : List Byte) (d : Bool) (s : State) :
    SameElsewhere s (completeOk w (countDraw d (storeBytes a bs s))) := by
  refine setActive_elsewhere _ ?_ ?_ ?_ ?_ ?_ ?_ ?_ ?_ <;> simp
  exact completeRegs_operands _ _ _

theorem failCommand_elsewhere (c : ErrCode) (v : Window) (s : State) : SameElsewhere s (failCommand c v s) := by
  have h := completeError_elsewhere c s
  exact ⟨h.plat, h.turn, h.blocks, h.others, h.operands, h.faults, h.refused, h.inputs, h.reply⟩

/-- A command that completed with an error (R106, R175). -/
theorem completeError_spec {c : ErrCode} (hc : c ≠ .ok) {s : State} (h : s.turn < s.insts.length) :
    CompletedError c s (completeError c s) := by
  refine ⟨?_, completeError_elsewhere c s, by simp, by simp, by simp, by simp⟩
  rw [activeInst_completeError c h]
  exact ⟨rfl, by simp [completeRegs, hc], rfl, rfl⟩

/-- A pack or unpack command that completed with an error (R106, R175); the invalidate of R67 is owed where COHERENT is false. -/
theorem failCommand_spec {c : ErrCode} (hc : c ≠ .ok) (v : Window) {s : State} (h : s.turn < s.insts.length) :
    CompletedError c s (failCommand c v s) := by
  obtain ⟨hr, _, hm, hd, hu, _⟩ := completeError_spec hc h
  exact ⟨hr, failCommand_elsewhere c v s, hm, hd, hu, fun hco => by simp [hco]⟩

/-- The packed size of a command that passed the range check fits NBYTES (R35). -/
theorem CommandRuns.packedSize_lt {dir : Dir} {w : Width} {s : State} (h : CommandRuns dir w s) :
    packedSize w (countOf s) < 2 ^ 32 := by
  have h1 := h.operands.symbolsFit
  have h2 := symBytes_ge_two s.plat
  have h3 : 2 ^ s.plat.addrWidth ≤ 2 ^ 32 := by
    have := h.parameters
    simp only [Platform.wf, Bool.and_eq_true, decide_eq_true_eq] at this
    exact Nat.pow_le_pow_right (by norm_num) this.2
  have h4 : 2 * countOf s ≤ symBytes s.plat * countOf s := Nat.mul_le_mul_right _ h2
  rcases Nat.eq_zero_or_pos (countOf s) with h0 | h0
  · rw [h0]; cases w <;> simp [packedSize, Width.bits]
  · have h5 : packedSize w (countOf s) ≤ 2 * countOf s - countOf s / 2 := by
      cases w <;> simp only [packedSize, Width.bits] <;> omega
    rcases Nat.lt_or_ge (countOf s) 2 with h6 | h6
    · have : packedSize w (countOf s) ≤ 2 * countOf s := packedSize_le w _
      omega
    · omega

/-- `complete(OK)` after a store into exactly the destination range (R56, R106). -/
theorem completedOk_of_store {dir : Dir} {w : Width} {s : State} (h : CommandRuns dir w s) (bs : List Byte) (d : Bool)
    (len : bs.length = (destRange (activeWindow dir w s)).len)
    (hd : d = (match dir with | .pack => drawsPadding w (countOf s) | .unpack => false)) :
    CompletedOk dir w s (completeOk w (countDraw d (storeBytes (destRange (activeWindow dir w s)).base bs s))) := by
  refine ⟨?_, completeOk_elsewhere w _ bs d s, ?_, ?_⟩
  · rw [activeInst_completeOk w (by simpa using h.present)]
    simp only [countOf_countDraw, countOf_storeBytes]
    refine ⟨rfl, ?_, rfl, rfl⟩
    rw [completeRegs, if_pos rfl, BitVec.toNat_ofNat, Nat.mod_eq_of_lt h.packedSize_lt]
  · intro a ha
    have ha' : ¬((destRange (activeWindow dir w s)).base ≤ a ∧ a < (destRange (activeWindow dir w s)).base + bs.length) := by
      rw [len, ← rangeHas_iff, ha]; simp
    simp only [completeOk_mem, countDraw_mem, storeBytes_mem]
    exact readByte_writeBytes_outside _ _ _ _ ha'
  · subst hd
    simp only [completeOk_draws, countDraw_draws, storeBytes_draws]
    cases dir <;> cases w <;> simp [drawsPadding]

/-- A pack command that reaches its body, with every symbol in range (R120). -/
theorem packCommand_runs {w : Width} {s : State} (h : CommandRuns .pack w s) (hr : ∀ i < countOf s, symbolAt s i < 2 ^ w.bits) :
    packCommand w s = .next (completeOk w (countDraw (drawsPadding w (countOf s))
      (storeBytes (activeInst s).lPkdAddr.toNat (packBytes w (Config.draw4 s.draws) (sourceSymbols s)) s))) := by
  rw [packCommand, checkedCommand_runs h, packBody_of_inRange]
  simpa [symbolsOutOfRange, sourceSymbols] using hr

/-- An unpack command that reaches its body (R140). -/
theorem unpackCommand_runs {w : Width} {s : State} (h : CommandRuns .unpack w s) :
    unpackCommand w s = .next (completeOk w (storeBytes (activeInst s).lSymAddr.toNat
      (symbolBytes s.plat (unpackSymbols w (sourceBytes w s) (countOf s))) s)) := by
  rw [unpackCommand, checkedCommand_runs h, unpackBody]

/-- A pack command's result in full: its completion, and the packed bytes in the packed range. -/
theorem packCommand_spec {w : Width} {s : State} (h : CommandRuns .pack w s) (hr : ∀ i < countOf s, symbolAt s i < 2 ^ w.bits) :
    ∃ t, packCommand w s = .next t ∧ CompletedOk .pack w s t ∧
      ∀ j < packedSize w (countOf s), packedAt t j = (packBytes w (Config.draw4 s.draws) (sourceSymbols s)).getD j 0 := by
  refine ⟨_, packCommand_runs h hr, completedOk_of_store h _ _ (by
    simp [destRange, activeWindow, commandWindow, pkdRange, countOf]) rfl, ?_⟩
  intro j hj
  have hl : (activeInst (completeOk w (countDraw (drawsPadding w (countOf s)) (storeBytes (activeInst s).lPkdAddr.toNat
      (packBytes w (Config.draw4 s.draws) (sourceSymbols s)) s)))).lPkdAddr = (activeInst s).lPkdAddr :=
    (completeOk_elsewhere w _ _ _ s).operands.lPkdAddr
  rw [packedAt, hl]
  simp only [completeOk_mem, countDraw_mem, storeBytes_mem]
  exact readByte_writeBytes_inside _ _ _ _ (by simpa using hj)

/-- The bytes of symbol `i` within a whole symbol array. -/
theorem symbolBytes_getD (p : Platform) : ∀ (syms : List Nat) (i j : Nat), i < syms.length → j < symBytes p →
    (symbolBytes p syms).getD (symBytes p * i + j) 0 = (leBytes (symBytes p) (syms.getD i 0)).getD j 0
  | [], i, j, hi, _ => by simp at hi
  | v :: syms, 0, j, _, hj => by
    simp only [symbolBytes, List.flatMap_cons, Nat.mul_zero, Nat.zero_add, List.getD_cons_zero]
    rw [List.getD_append _ _ _ _ (by simpa using hj)]
  | v :: syms, i + 1, j, hi, hj => by
    have ih := symbolBytes_getD p syms i j (by simpa using hi) hj
    simp only [symbolBytes, List.flatMap_cons, List.getD_cons_succ] at ih ⊢
    rw [List.getD_append_right _ _ _ _ (by simp only [leBytes_length]; rw [Nat.mul_add]; omega), ← ih]
    congr 1
    simp only [leBytes_length]; rw [Nat.mul_add]; omega

/-- An unpack command's result in full: its completion, and each symbol word in the symbol range (R140, R145). -/
theorem unpackCommand_spec {w : Width} {s : State} (h : CommandRuns .unpack w s) :
    ∃ t, unpackCommand w s = .next t ∧ CompletedOk .unpack w s t ∧
      ∀ i < countOf s, symbolAt t i = unpackAt w (sourceBytes w s) i % 256 ^ symBytes s.plat := by
  have len : (symbolBytes s.plat (unpackSymbols w (sourceBytes w s) (countOf s))).length =
      (destRange (activeWindow .unpack w s)).len := by
    simp [destRange, activeWindow, commandWindow, symRange, countOf]
  have hc := completedOk_of_store h _ false len rfl
  rw [countDraw_false] at hc
  refine ⟨_, unpackCommand_runs h, hc, ?_⟩
  intro i hi
  have hl := hc.elsewhere.operands.lSymAddr
  change memRead _ ((activeInst (completeOk w (storeBytes (destRange (activeWindow .unpack w s)).base
    (symbolBytes s.plat (unpackSymbols w (sourceBytes w s) (countOf s))) s))).lSymAddr.toNat + symBytes _ * i) _ = _
  rw [hl]
  have hb : readBytes (writeBytes s.mem (activeInst s).lSymAddr.toNat
      (symbolBytes s.plat (unpackSymbols w (sourceBytes w s) (countOf s)))) ((activeInst s).lSymAddr.toNat + symBytes s.plat * i)
      (symBytes s.plat) = leBytes (symBytes s.plat) (unpackAt w (sourceBytes w s) i) := by
    apply List.ext_getElem
    · simp
    · intro j hj _
      have hj' : j < symBytes s.plat := by simpa using hj
      have hlt : symBytes s.plat * i + j < (symbolBytes s.plat (unpackSymbols w (sourceBytes w s) (countOf s))).length := by
        simp only [symbolBytes_length, unpackSymbols_length]
        calc symBytes s.plat * i + j < symBytes s.plat * i + symBytes s.plat := by omega
          _ = symBytes s.plat * (i + 1) := by ring
          _ ≤ _ := Nat.mul_le_mul_left _ hi
      simp only [readBytes, List.getElem_map, List.getElem_range, Nat.add_assoc]
      rw [readByte_writeBytes_inside _ _ _ _ hlt, symbolBytes_getD _ _ _ _ (by simpa using hi) hj']
      simp [unpackSymbols, hi, hj']
  simp only [memRead, completeOk_mem, storeBytes_mem, completeOk_plat, storeBytes_plat]
  change leValue (readBytes (writeBytes s.mem (activeInst s).lSymAddr.toNat _) _ _) = _
  rw [hb, leValue_leBytes]

end Sys2Proof.Machine
end

