-- ==== Sys2Proof/Laws/PerInstr.lean ====
section
/-! SUPPORT. A statement for each command as syntax: its word lies in its row of the opcode map (R90), one lemma per constructor. -/

namespace Sys2Proof.Laws.Row

/-- The word of a well-formed command, masked by its row's mask, is its row's match (R90). -/
def Statement (i : Instr) : Prop := i.wf = true → encode i &&& rowMask i = rowMatch i

theorem pack4 : Statement .pack4 := by unfold Statement; decide

theorem pack6 : Statement .pack6 := by unfold Statement; decide

theorem pack8 : Statement .pack8 := by unfold Statement; decide

theorem pack12 : Statement .pack12 := by unfold Statement; decide

theorem unpack4 : Statement .unpack4 := by unfold Statement; decide

theorem unpack6 : Statement .unpack6 := by unfold Statement; decide

theorem unpack8 : Statement .unpack8 := by unfold Statement; decide

theorem unpack12 : Statement .unpack12 := by unfold Statement; decide

theorem pack (bitCount : Nat) : Statement (.pack bitCount) := by
  intro _
  simp only [encode, rowMask, rowMatch, layoutWord]
  generalize BitVec.ofNat 8 bitCount = c
  revert c
  decide

theorem unpack (bitCount : Nat) : Statement (.unpack bitCount) := by
  intro _
  simp only [encode, rowMask, rowMatch, layoutWord]
  generalize BitVec.ofNat 8 bitCount = c
  revert c
  decide

end Sys2Proof.Laws.Row
end

