-- ==== Sys2Proof/Laws/Step.lean ====
section
/-! SUPPORT. Everything a step can do, said once: which agent moves, and what each agent's move leaves. -/

namespace Sys2Proof.Machine

/-! ### Which agent moves -/

theorem step_of_hostMoves {op : HostOp} {rest : List Input} {s : State} (h : HostMoves op rest s) :
    step s = hostStep op { s with inputs := rest } := by
  simp [step, pick, pickSound, h.sound.unmarked, h.sound.unfaulted, h.scheduled]

theorem step_of_blockMoves {k : Nat} {rest : List Input} {s : State} (h : BlockMoves k rest s) :
    step s = completeStep k { s with inputs := rest } := by
  simp [step, pick, pickSound, h.sound.unmarked, h.sound.unfaulted, h.scheduled, h.present]

/-- A reset at the head of the schedule moves whatever `F` holds (R43, R179). -/
theorem step_of_reset {k : Nat} {rest : List Input} {s : State} (hr : s.refused = false)
    (hi : s.inputs = .host (.reset k) :: rest) : step s = resetBlock k { s with inputs := rest } := by
  cases hf : s.faults <;> simp [step, pick, pickSound, pickFaulted, hr, hf, hi, hostStep]

theorem firstBusy_some {s : State} {k : Nat} (h : firstBusy s = some k) :
    k < s.insts.length ∧ (getInst s k).phase = .busy := by
  obtain ⟨hk, hb, _⟩ := List.findIdx?_eq_some_iff_getElem.1 h
  exact ⟨hk, by rw [getInst_eq_getElem hk]; simpa using hb⟩

theorem firstBusy_none {s : State} (h : firstBusy s = none) : ∀ b ∈ s.insts, b.phase = .idle := by
  intro b hb
  have := List.findIdx?_eq_none_iff.1 h b hb
  cases hp : b.phase with
  | idle => rfl
  | busy => simp [hp] at this

theorem findReg_some {s : State} {a size k : Nat} {r : Reg} (h : findReg s a size = some (k, r)) :
    k < s.insts.length ∧ size = 4 ∧ inWindow (getInst s k) a = true ∧ regAt (a - (getInst s k).regBase) = some r := by
  unfold findReg at h
  cases hk : s.insts.findIdx? (fun b => inWindow b a) with
  | none => rw [hk] at h; cases h
  | some j =>
    rw [hk] at h
    simp only at h
    by_cases hs : size = 4
    · rw [if_pos hs] at h
      cases hr : regAt (a - (getInst s j).regBase) with
      | none => rw [hr] at h; cases h
      | some q =>
        rw [hr] at h
        simp only [Option.map_some, Option.some.injEq, Prod.mk.injEq] at h
        obtain ⟨rfl, rfl⟩ := h
        obtain ⟨hj, hw, _⟩ := List.findIdx?_eq_some_iff_getElem.1 hk
        exact ⟨hj, hs, by rw [getInst_eq_getElem hj]; exact hw, hr⟩
    · rw [if_neg hs] at h; cases h

/-- The moves the schedule can select; each comes with the state the mover finds. -/
theorem pick_block {s u : State} {k : Nat} (h : pick s = .block k u) :
    k < s.insts.length ∧ ∃ rest, u = { s with inputs := rest } := by
  unfold pick at h
  split at h
  · cases h
  · split at h
    · unfold pickSound at h
      split at h
      · split at h
        · next hb => cases h; exact ⟨(firstBusy_some hb).1, s.inputs, rfl⟩
        · cases h
      · split at h
        · next hk => cases h; exact ⟨hk, _, rfl⟩
        · cases h
      · unfold pickWait at h
        split at h
        · next hf =>
          split at h
          · cases h; exact ⟨(findReg_some hf).1, s.inputs, rfl⟩
          · cases h
        · cases h
      · cases h
    · unfold pickFaulted at h; split at h <;> cases h

theorem pick_host {s u : State} {op : HostOp} (h : pick s = .host op u) : ∃ rest, u = { s with inputs := rest } := by
  unfold pick at h
  split at h
  · cases h
  · split at h
    · unfold pickSound at h
      split at h
      · split at h <;> cases h
      · split at h <;> cases h
      · unfold pickWait at h
        split at h
        · split at h
          · cases h
          · cases h; exact ⟨_, rfl⟩
        · cases h
      · cases h; exact ⟨_, rfl⟩
    · unfold pickFaulted at h
      split at h
      · cases h; exact ⟨_, rfl⟩
      · cases h

/-- The completion step of a block that answers a next state: nothing if the block is Idle, ECMD for an illegal word, else its
command (R103). -/
theorem completeStep_next {k : Nat} {s t : State} (h : completeStep k s = .next t) :
    ((getInst s k).phase = .idle ∧ t = s) ∨
    ((getInst s k).phase = .busy ∧ (∃ e, decode (commandWord s k) = .error e) ∧ t = completeError .ecmd { s with turn := k }) ∨
    ((getInst s k).phase = .busy ∧ ∃ i, decode (commandWord s k) = .ok i ∧ exec i { s with turn := k } = .next t) := by
  unfold completeStep isBusy at h
  cases hp : (getInst s k).phase with
  | idle => simp only [hp] at h; left; simpa [eq_comm] using h
  | busy =>
    simp only [hp, decide_true, if_true] at h
    cases hd : decode (commandWord s k) with
    | error e => rw [hd] at h; cases h; exact .inr (.inl ⟨rfl, ⟨e, rfl⟩, rfl⟩)
    | ok i => rw [hd] at h; exact .inr (.inr ⟨rfl, i, rfl, h⟩)

/-- What a step that answers a next state was: a block's completion step, an operation of the outside world, or rest. -/
theorem step_next {s t : State} (h : step s = .next t) :
    (∃ k rest, k < s.insts.length ∧ completeStep k { s with inputs := rest } = .next t) ∨
    (∃ op rest, hostStep op { s with inputs := rest } = .next t) ∨ t = s := by
  unfold step at h
  cases hp : pick s with
  | block k u =>
    rw [hp] at h
    obtain ⟨hk, rest, rfl⟩ := pick_block hp
    exact .inl ⟨k, rest, hk, h⟩
  | host op u =>
    rw [hp] at h
    obtain ⟨rest, rfl⟩ := pick_host hp
    exact .inr (.inl ⟨op, rest, h⟩)
  | rest => rw [hp] at h; cases h; exact .inr (.inr rfl)
  | stop f => rw [hp] at h; cases h
  | refuse r => rw [hp] at h; cases h

/-! ### What the outside world's operations leave -/

/-- The ways an operation of the outside world answers a next state: it replaces one block and may set the reply, or it changes
memory and the coherence bookkeeping, or it resets a block. -/
inductive HostOutcome (s t : State) : Prop where
  | register (k : Nat) (b : Inst) (y : Reply) (present : k < s.insts.length) (ht : t = { setInst s k b with reply := y })
  | memory (m : Memory) (n : Nat) (y : Reply) (u l : List Nat)
      (ht : t = { s with mem := m, draws := n, reply := y, uncleaned := u, stale := l })
  | reset (k : Nat) (v : Window) (present : k < s.insts.length) (busy : (getInst s k).phase = .busy)
      (flight : flightWindow s.plat (getInst s k) = v)
      (ht : t = setInst (abandonRange (destRange v) s) k (resetRegs (getInst s k)))

theorem launch_next {k : Nat} {v : Word} {s t : State} (h : launch k v s = .next t) :
    ((getInst s k).phase = .busy ∧ t = setInst s k (dropRegs (getInst s k))) ∨
    ((getInst s k).phase = .idle ∧ t = acceptCommand k v s) := by
  unfold launch at h
  split at h
  · next hp => cases h; exact .inl ⟨hp, rfl⟩
  · next hp =>
    split at h
    · cases h
    · cases h; exact .inr ⟨hp, rfl⟩

theorem resetBlock_next {k : Nat} {s t : State} (h : resetBlock k s = .next t) :
    k < s.insts.length ∧
    (((getInst s k).phase = .idle ∧ t = setInst s k (resetRegs (getInst s k))) ∨
     ((getInst s k).phase = .busy ∧ racesOthers s k (flightWindow s.plat (getInst s k)) = false ∧
       t = setInst (abandonRange (destRange (flightWindow s.plat (getInst s k))) s) k (resetRegs (getInst s k)))) := by
  unfold resetBlock at h
  split at h
  · cases h
  · next hk =>
    refine ⟨by omega, ?_⟩
    split at h
    · next hp => cases h; exact .inl ⟨hp, rfl⟩
    · next hp =>
      split at h
      · cases h
      · next hr => cases h; exact .inr ⟨hp, by simpa using hr, rfl⟩

theorem hostRegWrite_next {k : Nat} {r : Reg} {v : Word} {s t : State} (h : hostRegWrite k r v s = .next t) :
    t = s ∨ ∃ b, t = setInst s k b := by
  cases r with
  | cmd =>
    rcases launch_next h with ⟨_, rfl⟩ | ⟨_, rfl⟩
    · exact .inr ⟨_, rfl⟩
    · exact .inr ⟨_, rfl⟩
  | count => cases h; exact .inr ⟨_, rfl⟩
  | symAddr => cases h; exact .inr ⟨_, rfl⟩
  | pkdAddr => cases h; exact .inr ⟨_, rfl⟩
  | status => cases h; exact .inr ⟨_, rfl⟩
  | nbytes => cases h; exact .inl rfl
  | info => cases h; exact .inl rfl
  | reserved => cases h; exact .inl rfl

theorem hostStep_next {op : HostOp} {s t : State} (h : hostStep op s = .next t) : HostOutcome s t := by
  cases op with
  | regWrite a size v =>
    simp only [hostStep] at h
    cases hf : findReg s a size with
    | none => rw [hf] at h; cases h
    | some q =>
      obtain ⟨k, r⟩ := q
      rw [hf] at h
      rcases hostRegWrite_next h with rfl | ⟨b, rfl⟩
      · exact .memory t.mem t.draws t.reply t.uncleaned t.stale rfl
      · exact .register k b s.reply (findReg_some hf).1 rfl
  | regRead a size =>
    simp only [hostStep] at h
    cases hf : findReg s a size with
    | none => rw [hf] at h; cases h
    | some q =>
      obtain ⟨k, r⟩ := q
      rw [hf] at h
      cases h
      exact .register k _ _ (findReg_some hf).1 rfl
  | memWrite a bs =>
    simp only [hostStep, hostMemWrite] at h
    split at h
    · cases h
    · split at h
      · cases h
      · split at h <;> cases h <;> exact .memory _ _ _ _ _ rfl
  | memRead a n =>
    simp only [hostStep, hostMemRead] at h
    split at h
    · cases h
    · split at h
      · cases h
      · split at h
        · cases h
        · cases h; exact .memory _ _ _ _ _ rfl
  | clean a n => cases h; exact .memory _ _ _ _ _ rfl
  | invalidate a n => cases h; exact .memory _ _ _ _ _ rfl
  | reset k =>
    obtain ⟨hk, ⟨_, rfl⟩ | ⟨hb, _, rfl⟩⟩ := resetBlock_next h
    · exact .register k _ _ hk rfl
    · exact .reset k _ hk hb rfl rfl

end Sys2Proof.Machine
end

