-- ==== Sys2Proof/Tests/Slice0.lean ====
section
/-! SUPPORT. Tests: ill-formed terms, words written out from R80 and R90, the vectors of 95_test_vectors.md, and one witness for the
hypotheses of each statement (test_hyp_<Name>), each clause at a boundary value of its range. -/

namespace Sys2Proof.Tests

open Sys2Proof Sys2Proof.Machine

/-! ### Well-formedness: one ill-formed term for each check -/

theorem test_wf_pack_refuses_256 : Instr.wf (.pack 256) = false ∧ Instr.wf (.pack 255) = true := by decide

theorem test_wf_unpack_refuses_256 : Instr.wf (.unpack 256) = false ∧ Instr.wf (.unpack 255) = true := by decide

theorem test_wf_platform_refuses_no_address :
    Platform.wf { Platform.standard with addrWidth := 0 } = false ∧ Platform.wf { Platform.standard with addrWidth := 1 } = true := by
  decide

theorem test_wf_platform_refuses_wide_address :
    Platform.wf { Platform.standard with addrWidth := 33 } = false ∧ Platform.wf Platform.standard = true := by decide

/-- R98: the assembler's bounds, each one past its last legal value. -/
theorem test_wf_assembler_refuses :
    asmOperandsOk Platform.standard (.pack 256) 0 0 0 = false ∧
    asmOperandsOk Platform.standard .pack4 (2 ^ 32) 0 0 = false ∧
    asmOperandsOk Platform.standard .pack4 0 (2 ^ 32) 0 = false ∧
    asmOperandsOk Platform.standard .pack4 0 0 (2 ^ 32) = false ∧
    asmOperandsOk Platform.standard (.pack 255) (2 ^ 32 - 1) (2 ^ 32 - 1) (2 ^ 32 - 1) = true := by decide

theorem test_wf_memory_refuses :
    ¬ Memory.wf [(5, 1), (5, 2)] ∧ ¬ Memory.wf [(6, 1), (5, 2)] ∧ ¬ Memory.wf [(5, 0)] ∧ Memory.wf [(5, 1), (6, 2)] := by decide

/-! ### Decoding: RSVD, BITCOUNT, WCODE, SEL, DIR written out from R80 to R85 and the table R90 -/

theorem test_decode_pack4 : decode (0b00000000000000000000_00000000_00_1_0#32) = .ok .pack4 := by decide

theorem test_decode_pack6 : decode (0b00000000000000000000_00000000_01_1_0#32) = .ok .pack6 := by decide

theorem test_decode_pack8 : decode (0b00000000000000000000_00000000_10_1_0#32) = .ok .pack8 := by decide

theorem test_decode_pack12 : decode (0b00000000000000000000_00000000_11_1_0#32) = .ok .pack12 := by decide

theorem test_decode_unpack4 : decode (0b00000000000000000000_00000000_00_1_1#32) = .ok .unpack4 := by decide

theorem test_decode_unpack6 : decode (0b00000000000000000000_00000000_01_1_1#32) = .ok .unpack6 := by decide

theorem test_decode_unpack8 : decode (0b00000000000000000000_00000000_10_1_1#32) = .ok .unpack8 := by decide

theorem test_decode_unpack12 : decode (0b00000000000000000000_00000000_11_1_1#32) = .ok .unpack12 := by decide

/-- The dispatched words of R90, and BITCOUNT at both ends of its range. -/
theorem test_decode_pack :
    decode (0b00000000000000000000_00000110_00_0_0#32) = .ok (.pack 6) ∧ decode 0x000000C0#32 = .ok (.pack 12) ∧
    decode 0x00000000#32 = .ok (.pack 0) ∧ decode 0x00000FF0#32 = .ok (.pack 255) := by decide

theorem test_decode_unpack :
    decode (0b00000000000000000000_00001100_00_0_1#32) = .ok (.unpack 12) ∧ decode 0x00000041#32 = .ok (.unpack 4) ∧
    decode 0x00000001#32 = .ok (.unpack 0) ∧ decode 0x00000FF1#32 = .ok (.unpack 255) := by decide

/-- R92: the lowest and highest RSVD bit, a direct word with a BITCOUNT bit, a dispatched word with a WCODE bit. -/
theorem test_decode_illegal :
    decode 0x00001002#32 = .error .reservedBits ∧ decode 0x80000000#32 = .error .reservedBits ∧
    decode 0x00000012#32 = .error .bitCountInDirect ∧ decode 0x00000802#32 = .error .bitCountInDirect ∧
    decode 0x00000004#32 = .error .widthCodeInDispatched ∧ decode 0x00000068#32 = .error .widthCodeInDispatched := by decide

theorem test_encode_words :
    encode .pack12 = 0x0000000E#32 ∧ encode .unpack6 = 0x00000007#32 ∧ encode (.pack 6) = 0x00000060#32 ∧
    encode (.unpack 12) = 0x000000C1#32 := by decide

theorem test_decode_table_word :
    decodeTableWord 32 0x00000003 = some .unpack4 ∧ decodeTableWord 32 0x000000C1 = some (.unpack 12) ∧
    decodeTableWord 32 0x00001000 = none := by decide

/-! ### Small states -/

/-- Symbol words in memory, 32 bits each. -/
def words (a : Nat) (syms : List Nat) : Memory := writeBytes [] a (symbolBytes Platform.standard syms)

/-- One block with the word `v` in flight on `n` symbols at `sym` and packed bytes at `pkd`. -/
def flight (v : Word) (n sym pkd : Nat) (mem : Memory) : State :=
  { State.reset with
    mem := mem
    insts := [{ Inst.reset 0 with phase := .busy, lCmd := v, lCount := BitVec.ofNat 32 n,
                                  lSymAddr := BitVec.ofNat 32 sym, lPkdAddr := BitVec.ofNat 32 pkd }] }

/-- The vectors' usual addresses: symbols at 0x1000, packed bytes at 0x2000. -/
def packing (v : Word) (syms : List Nat) : State := flight v syms.length 0x1000 0x2000 (words 0x1000 syms)

def unpacking (v : Word) (n : Nat) (bs : List Byte) : State := flight v n 0x1000 0x2000 (writeBytes [] 0x2000 bs)

/-- The next state of an outcome, if it has one. -/
def nextOf : Result → Option State
  | .next t => some t
  | .fault _ => none
  | .refused _ => none

/-- The fault of an outcome, if it has one. -/
def faultOf : Result → Option Fault
  | .next _ => none
  | .fault f => some f
  | .refused _ => none

theorem nextOf_some {r : Result} {t : State} (h : nextOf r = some t) : r = .next t := by
  cases r <;> simp_all [nextOf]

theorem nextOf_isSome {r : Result} (h : (nextOf r).isSome = true) : ∃ t, r = .next t := by
  obtain ⟨t, ht⟩ := Option.isSome_iff_exists.mp h
  exact ⟨t, nextOf_some ht⟩

theorem faultOf_some {r : Result} {f : Fault} (h : faultOf r = some f) : r = .fault f := by
  cases r <;> simp_all [faultOf]

/-- What the step of a state leaves in the packed bytes, STATUS and NBYTES. -/
def packedAfter (s : State) : Option (List Byte × Word × Word) :=
  (nextOf (step s)).map (fun t => (readBytes t.mem 0x2000 (getInst t 0).nbytes.toNat, statusWord (getInst t 0), (getInst t 0).nbytes))

/-- What the step of a state leaves in the first `n` symbol words, STATUS and NBYTES. -/
def symbolsAfter (n : Nat) (s : State) : Option (List Nat × Word × Word) :=
  (nextOf (step s)).map (fun t => ((List.range n).map (symbolAt t), statusWord (getInst t 0), (getInst t 0).nbytes))

/-! ### Vectors of 95_test_vectors.md -/

/-- V6: the pack of even count, whose bytes are all determined. -/
theorem test_pack4_V6 : packedAfter (packing 0x2#32 [5, 9]) = some ([0x95], 0x02, 1) := by decide

/-- V1: the padding nibble may be anything, the rest of the last byte is the symbol. -/
theorem test_pack4_V1 : ∀ pad : BitVec 4, pack4Bytes pad [5, 9, 3] = [0x95, pad ++ 0x3#4] := by decide

/-- V2. -/
theorem test_pack6_V2 : packedAfter (packing 0x6#32 [1, 2, 3]) = some ([0x81, 0x30, 0x00], 0x02, 3) := by decide

/-- V14. -/
theorem test_pack6_V14 : packedAfter (packing 0x6#32 [1, 2, 3, 4, 5]) = some ([0x81, 0x30, 0x10, 0x05], 0x02, 4) := by decide

/-- V20. -/
theorem test_pack8_V20 : packedAfter (packing 0xA#32 [0x80, 0x7F]) = some ([0x80, 0x7F], 0x02, 2) := by decide

/-- V27. -/
theorem test_pack12_V27 : packedAfter (packing 0xE#32 [0x123, 0x456]) = some ([0x23, 0x61, 0x45], 0x02, 3) := by decide

/-- V28. -/
theorem test_pack12_V28 :
    ∀ pad : BitVec 4, pack12Bytes pad [0x123, 0x456, 0x789] = [0x23, 0x61, 0x45, 0x89, pad ++ 0x7#4] := by decide

/-- V42. -/
theorem test_unpack4_V42 : symbolsAfter 3 (unpacking 0x3#32 3 [0xFF, 0x3C]) = some ([15, 15, 12], 0x02, 2) := by decide

/-- V46. -/
theorem test_unpack6_V46 :
    symbolsAfter 6 (unpacking 0x7#32 6 [0x0A, 0xE5, 0xA1, 0x32, 0x0F]) = some ([10, 20, 30, 40, 50, 60], 0x02, 5) := by decide

/-- V47. -/
theorem test_unpack8_V47 : symbolsAfter 3 (unpacking 0xB#32 3 [0xFF, 0x00, 0x80]) = some ([255, 0, 128], 0x02, 3) := by decide

/-- V39. -/
theorem test_unpack12_V39 :
    symbolsAfter 3 (unpacking 0xF#32 3 [0x12, 0x34, 0x56, 0x78, 0x9A]) = some ([0x412, 0x563, 0xA78], 0x02, 5) := by decide

/-- V30. -/
theorem test_pack_V30 : packedAfter (packing 0x60#32 [1, 2, 3]) = some ([0x81, 0x30, 0x00], 0x02, 3) := by decide

/-- V31. -/
theorem test_pack_V31 : packedAfter (packing 0x50#32 [1, 2, 3]) = some ([], 0x22, 0) := by decide

/-- V32. -/
theorem test_unpack_V32 : symbolsAfter 2 (unpacking 0xC1#32 2 [0xFF, 0x0F, 0x00]) = some ([4095, 0], 0x02, 3) := by decide

/-! ### Witnesses: the states that meet the statements' hypotheses -/

/-- The checks of `CommandRuns` as one Boolean. -/
def runsCheck (dir : Dir) (w : Width) (s : State) : Bool :=
  s.plat.wf && decide (s.turn < s.insts.length) && symAligned s.plat (activeInst s) &&
    rangeFits s.plat (activeWindow dir w s).sym && rangeFits s.plat (activeWindow dir w s).pkd &&
    (accessFault s (activeWindow dir w s) == none)

theorem fits_of_checks {dir : Dir} {w : Width} {s : State} (h1 : symAligned s.plat (activeInst s) = true)
    (h2 : rangeFits s.plat (activeWindow dir w s).sym = true) (h3 : rangeFits s.plat (activeWindow dir w s).pkd = true) :
    OperandsFit w s := by
  simp only [symAligned, rangeFits, decide_eq_true_eq] at h1 h2 h3
  exact ⟨h1, h2, h3⟩

theorem runs_of_check {dir : Dir} {w : Width} {s : State} (h : runsCheck dir w s = true) : CommandRuns dir w s := by
  simp only [runsCheck, Bool.and_eq_true, decide_eq_true_eq, beq_iff_eq] at h
  obtain ⟨⟨⟨⟨⟨h1, h2⟩, h3⟩, h4⟩, h5⟩, h6⟩ := h
  unfold accessFault at h6
  split at h6
  · cases h6
  · rename_i hm
    split at h6
    · cases h6
    · rename_i ha
      split at h6
      · cases h6
      · rename_i hr
        simp only [Bool.not_eq_true', Bool.not_eq_false, Bool.and_eq_true] at hm ha hr
        exact ⟨h1, h2, fits_of_checks h3 h4 h5, by simpa using hm, ha, by simpa using hr⟩

/-- All symbols the command reads are below the bound. -/
def symsBelow (w : Width) (s : State) : Bool := (List.range (countOf s)).all (fun i => decide (symbolAt s i < 2 ^ w.bits))

theorem below_of_check {w : Width} {s : State} (h : symsBelow w s = true) : ∀ i < countOf s, symbolAt s i < 2 ^ w.bits := by
  simpa [symsBelow] using h

/-- A pack whose hypotheses hold: the command runs and its symbols are in range. -/
theorem pack_hyps {w : Width} {s : State} (h : (runsCheck .pack w s && symsBelow w s) = true) :
    CommandRuns .pack w s ∧ ∀ i < countOf s, symbolAt s i < 2 ^ w.bits := by
  rw [Bool.and_eq_true] at h
  exact ⟨runs_of_check h.1, below_of_check h.2⟩

theorem test_hyp_DecodeOfEncode : Instr.wf .unpack12 = true ∧ Instr.wf (.pack 0) = true ∧ Instr.wf (.unpack 255) = true := by decide

theorem test_hyp_EncodeOfDecode : decode 0x00000FF1#32 = .ok (.unpack 255) := by decide

/-- The state `s` with a schedule. -/
def scheduled (l : List Input) (s : State) : State := { s with inputs := l }

/-- A block at `REG_BASE` 0x40 beside a block at 0. -/
def twoBlocks (b : Inst) (s : State) : State := { s with insts := s.insts ++ [{ b with regBase := 0x40 }] }

/-- R103 for each of the three schedules, with the second of two blocks Busy. -/
def secondBusy (l : List Input) : State :=
  scheduled l { State.reset with insts := [Inst.reset 0, { Inst.reset 0x40 with phase := .busy, lCmd := 0xFF0#32 }] }

theorem test_hyp_StepRunsDecoded :
    (∀ l : List Input, (secondBusy l).Sound ∧ 1 < (secondBusy l).insts.length ∧ (getInst (secondBusy l) 1).phase = .busy ∧
      decode (getInst (secondBusy l) 1).lCmd = .ok (.pack 255)) ∧
    (secondBusy [.block 1]).inputs = [.block 1] ∧
    ((secondBusy []).inputs = [] ∧ ∀ j < 1, (getInst (secondBusy []) j).phase = .idle) ∧
    ((secondBusy [.wait 0x40]).inputs = [.wait 0x40] ∧ findReg (secondBusy [.wait 0x40]) (0x40 + 0x10) 4 = some (1, .status)) := by
  refine ⟨fun l => ⟨⟨rfl, rfl⟩, Nat.lt_succ_self 1, rfl, show decode 0xFF0#32 = _ by decide⟩, rfl, ⟨rfl, by decide⟩, rfl, by decide⟩

/-- The same three schedules with the lowest illegal word in flight (R92). -/
def secondIllegal (l : List Input) : State :=
  scheduled l { State.reset with insts := [Inst.reset 0, { Inst.reset 0x40 with phase := .busy, lCmd := 0x4#32 }] }

theorem test_hyp_StepRunsDecoded_illegal :
    (∀ l : List Input, (secondIllegal l).Sound ∧ 1 < (secondIllegal l).insts.length ∧
      (getInst (secondIllegal l) 1).phase = .busy ∧
      decode (getInst (secondIllegal l) 1).lCmd = .error .widthCodeInDispatched) ∧
    (secondIllegal [.block 1]).inputs = [.block 1] ∧
    ((secondIllegal []).inputs = [] ∧ ∀ j < 1, (getInst (secondIllegal []) j).phase = .idle) ∧
    ((secondIllegal [.wait 0x40]).inputs = [.wait 0x40] ∧
      findReg (secondIllegal [.wait 0x40]) (0x40 + 0x10) 4 = some (1, .status)) := by
  refine ⟨fun l => ⟨⟨rfl, rfl⟩, Nat.lt_succ_self 1, rfl, show decode 0x4#32 = _ by decide⟩, rfl, ⟨rfl, by decide⟩, rfl, by decide⟩

/-- A platform whose memory ends at 0x2001. -/
def shortMemory (s : State) : State := { s with plat := { s.plat with admitted := [⟨0, 0x2001⟩] } }

theorem moves_of {s : State} (k : Nat) (h1 : s.refused = false) (h2 : s.faults = []) (hk : k < s.insts.length)
    (hb : (getInst s k).phase = .busy) : BlockMoves k [] (scheduled [.block k] s) := ⟨⟨h1, h2⟩, rfl, hk, hb⟩

/-- R107: one state for each clause: ECMD, EWIDTH, EALIGN, ERANGE, Overlap, BusFault. -/
theorem test_hyp_ChecksInOrder :
    (BlockMoves 0 [] (scheduled [.block 0] (flight 0x1000#32 1 2 0 [])) ∧ decode 0x1000#32 = .error .reservedBits) ∧
    (BlockMoves 0 [] (scheduled [.block 0] (flight 0x50#32 1 2 0 [])) ∧ decode 0x50#32 = .ok (.pack 5) ∧ commandJob (.pack 5) = none) ∧
    (BlockMoves 0 [] (scheduled [.block 0] (flight 0x2#32 (2 ^ 32 - 1) 2 0 [])) ∧
      decode 0x2#32 = .ok .pack4 ∧ commandJob .pack4 = some (.pack, .w4) ∧
      (getInst (flight 0x2#32 (2 ^ 32 - 1) 2 0 []) 0).lSymAddr.toNat % symBytes Platform.standard ≠ 0) ∧
    (BlockMoves 0 [] (scheduled [.block 0] (flight 0x2#32 3 0 (2 ^ 32 - 1) [])) ∧
      (getInst (flight 0x2#32 3 0 (2 ^ 32 - 1) []) 0).lSymAddr.toNat % symBytes Platform.standard = 0 ∧
      ¬ OperandsFit .w4 (flight 0x2#32 3 0 (2 ^ 32 - 1) [])) ∧
    (BlockMoves 0 [] (scheduled [.block 0] (flight 0x2#32 2 0x1000 0x1007 [])) ∧ OperandsFit .w4 (flight 0x2#32 2 0x1000 0x1007 []) ∧
      rangesMeet (activeWindow .pack .w4 (flight 0x2#32 2 0x1000 0x1007 [])).sym
        (activeWindow .pack .w4 (flight 0x2#32 2 0x1000 0x1007 [])).pkd = true) ∧
    (BlockMoves 0 [] (scheduled [.block 0] (shortMemory (flight 0x2#32 3 0x1000 0x2000 []))) ∧
      OperandsFit .w4 (shortMemory (flight 0x2#32 3 0x1000 0x2000 [])) ∧
      accessFault (shortMemory (flight 0x2#32 3 0x1000 0x2000 [])) (activeWindow .pack .w4 (flight 0x2#32 3 0x1000 0x2000 [])) =
        some .busFault) := by
  refine ⟨⟨moves_of 0 rfl rfl (by decide) rfl, by decide⟩, ⟨moves_of 0 rfl rfl (by decide) rfl, by decide, by decide⟩,
    ⟨moves_of 0 rfl rfl (by decide) rfl, by decide, by decide, by decide⟩,
    ⟨moves_of 0 rfl rfl (by decide) rfl, by decide, fun h => absurd h.packedFits (by decide)⟩,
    ⟨moves_of 0 rfl rfl (by decide) rfl, fits_of_checks (dir := .pack) (by decide) (by decide) (by decide), by decide⟩,
    ⟨moves_of 0 rfl rfl (by decide) rfl, fits_of_checks (dir := .pack) (by decide) (by decide) (by decide), by decide⟩⟩

theorem test_hyp_IdleBlocksRest :
    (State.reset.Sound ∧ State.reset.inputs = [] ∧ ∀ b ∈ State.reset.insts, b.phase = .idle) ∧
    ((scheduled [.block 0] State.reset).Sound ∧ 0 < State.reset.insts.length ∧ (getInst State.reset 0).phase = .idle) :=
  ⟨⟨⟨rfl, rfl⟩, rfl, by decide⟩, ⟨rfl, rfl⟩, by decide, rfl⟩

theorem test_hyp_BusyBlocksComplete :
    (secondBusy []).Sound ∧ (secondBusy []).inputs = [] ∧ 0 < (secondBusy []).busyBlocks ∧ ∃ t, step (secondBusy []) = .next t :=
  ⟨⟨rfl, rfl⟩, rfl, by decide, nextOf_isSome (by decide)⟩

/-! #### The packer and the unpacker: every tail length, and the last bytes of the address space -/

theorem test_hyp_Pack4Layout : ∀ l ∈ [[15], [15, 0], [5, 9, 15]],
    CommandRuns .pack .w4 (packing 0x2#32 l) ∧ ∀ i < countOf (packing 0x2#32 l), symbolAt (packing 0x2#32 l) i < 2 ^ 4 := by
  intro l hl
  exact pack_hyps (w := .w4) (by revert l; decide)

theorem test_hyp_Pack6Layout : ∀ l ∈ [[63, 1, 2, 63], [63], [63, 2], [1, 2, 63], [1, 2, 3, 4, 63]],
    CommandRuns .pack .w6 (packing 0x6#32 l) ∧ ∀ i < countOf (packing 0x6#32 l), symbolAt (packing 0x6#32 l) i < 2 ^ 6 := by
  intro l hl
  exact pack_hyps (w := .w6) (by revert l; decide)

/-- Both ranges of a PACK8 at the top of the address space in turn (R59). -/
theorem test_hyp_Pack8Layout : ∀ s ∈ [packing 0xA#32 [255, 0], flight 0xA#32 2 0x1000 (2 ^ 32 - 2) (words 0x1000 [255, 1]),
      flight 0xA#32 2 (2 ^ 32 - 8) 0 (words (2 ^ 32 - 8) [255, 1])],
    CommandRuns .pack .w8 s ∧ ∀ i < countOf s, symbolAt s i < 2 ^ 8 := by
  intro s hs
  exact pack_hyps (w := .w8) (by revert s; decide)

theorem test_hyp_Pack12Layout : ∀ l ∈ [[4095, 0], [4095], [1, 2, 4095]],
    CommandRuns .pack .w12 (packing 0xE#32 l) ∧ ∀ i < countOf (packing 0xE#32 l), symbolAt (packing 0xE#32 l) i < 2 ^ 12 := by
  intro l hl
  exact pack_hyps (w := .w12) (by revert l; decide)

/-- PackIsStream and UnpackInvertsPack share their hypothesis. -/
theorem test_hyp_PackIsStream : ∀ v ∈ [0, 4095, 1], v < 2 ^ Width.w12.bits := by decide

theorem test_hyp_OutOfRangeSymbolFaults :
    CommandRuns .pack .w6 (packing 0x6#32 [0, 64]) ∧ 1 < countOf (packing 0x6#32 [0, 64]) ∧
      2 ^ Width.w6.bits ≤ symbolAt (packing 0x6#32 [0, 64]) 1 :=
  ⟨runs_of_check (by decide), by decide, by decide⟩

theorem test_hyp_Unpack4Symbols : ∀ n ∈ [1, 2, 3], CommandRuns .unpack .w4 (unpacking 0x3#32 n [0xFF, 0x3C]) := by
  intro n hn
  exact runs_of_check (by revert n; decide)

theorem test_hyp_Unpack6Symbols : ∀ n ∈ [1, 2, 3, 4, 5], CommandRuns .unpack .w6 (unpacking 0x7#32 n [0x0A, 0xE5, 0xA1, 0x32]) := by
  intro n hn
  exact runs_of_check (by revert n; decide)

theorem test_hyp_Unpack8Symbols : ∀ n ∈ [0, 1, 2], CommandRuns .unpack .w8 (unpacking 0xB#32 n [0xFF, 0x80]) := by
  intro n hn
  exact runs_of_check (by revert n; decide)

theorem test_hyp_Unpack12Symbols : ∀ n ∈ [1, 2, 3], CommandRuns .unpack .w12 (unpacking 0xF#32 n [0x12, 0x34, 0x56, 0x78, 0x9A]) := by
  intro n hn
  exact runs_of_check (by revert n; decide)

theorem test_hyp_PackInvertsUnpack : [0xFF, 0xFF, 0xFF].length = packedSize .w6 3 ∧ [0xFF, 0xFF].length = packedSize .w12 1 := by decide

/-- A PACK12 of two symbols, and an UNPACK12 of its bytes to another symbol array. -/
def packedPair : State := packing 0xE#32 [4095, 0]

def afterPair : State := (nextOf (exec .pack12 packedPair)).getD packedPair

def unpackPair : State := flight 0xF#32 2 0x3000 0x2000 afterPair.mem

theorem test_hyp_UnpackAfterPackRestores :
    commandJob .pack12 = some (.pack, .w12) ∧ commandJob (.unpack 12) = some (.unpack, .w12) ∧
    CommandRuns .pack .w12 packedPair ∧ (∀ i < countOf packedPair, symbolAt packedPair i < 2 ^ Width.w12.bits) ∧
    exec .pack12 packedPair = .next afterPair ∧ CommandRuns .unpack .w12 unpackPair ∧
    countOf unpackPair = countOf packedPair ∧
    ∀ j < packedSize .w12 (countOf packedPair), packedAt unpackPair j = packedAt afterPair j :=
  ⟨rfl, rfl, runs_of_check (by decide), below_of_check (by decide), nextOf_some (by decide), runs_of_check (by decide), by decide, by decide⟩

/-! #### The dispatcher -/

/-- Both forms of each width, each with an odd count; `test_hyp_Pack4Layout` and its like hold for the width-specific ones as well. -/
theorem test_hyp_PackCommandStream : ∀ p ∈ [(Width.w4, 15), (.w6, 63), (.w8, 255), (.w12, 4095)],
    CommandRuns .pack p.1 (packing (encode (.pack p.1.bits)) [p.2, 0, p.2]) ∧
      ∀ i < countOf (packing (encode (.pack p.1.bits)) [p.2, 0, p.2]),
        symbolAt (packing (encode (.pack p.1.bits)) [p.2, 0, p.2]) i < 2 ^ p.1.bits := by
  intro p hp
  exact pack_hyps (by revert p; decide)

theorem test_hyp_UnpackCommandStream : ∀ w ∈ [Width.w4, .w6, .w8, .w12],
    CommandRuns .unpack w (unpacking (encode (.unpack w.bits)) 3 [0xFF, 0x0F, 0xFF, 0xF0, 0x0F]) := by
  intro w hw
  exact runs_of_check (by revert w; decide)

/-- One execution that goes on and one that faults. -/
theorem test_hyp_DispatchEquivalence :
    (∃ t, exec (directInstr .pack .w6) (packing (encode .pack6) [1, 2, 3]) = .next t) ∧
    (exec (directInstr .pack .w6) (packing (encode .pack6) [64]) = .fault .symbolRange) :=
  ⟨nextOf_isSome (by decide), faultOf_some (by decide)⟩

theorem test_hyp_UnsupportedWidth : ∀ b ∈ [0, 3, 5, 7, 9, 11, 13, 16, 255],
    b ≠ 4 ∧ b ≠ 6 ∧ b ≠ 8 ∧ b ≠ 12 ∧ (packing (encode (.pack b)) []).turn < (packing (encode (.pack b)) []).insts.length := by decide

/-! #### Checks, errors and faults -/

theorem test_hyp_AlignmentCheck :
    commandJob (.unpack 8) = some (.unpack, .w8) ∧ (flight 0x81#32 0 3 0 []).turn < (flight 0x81#32 0 3 0 []).insts.length ∧
    (activeInst (flight 0x81#32 0 3 0 [])).lSymAddr.toNat % symBytes Platform.standard ≠ 0 ∧
    (activeInst (flight 0x81#32 0 4 0 [])).lSymAddr.toNat % symBytes Platform.standard = 0 ∧
    ∃ t, exec (.unpack 8) (flight 0x81#32 0 4 0 []) = .next t :=
  ⟨by decide, by decide, by decide, by decide, nextOf_isSome (by decide)⟩

/-- R59 and R105: an end one past `2^32`, in each range; ends equal to `2^32`; the largest count that passes; a count of 0. -/
theorem test_hyp_RangeCheck :
    2 ^ 32 < (activeInst (flight 0xA#32 2 (2 ^ 32 - 4) 0 [])).lSymAddr.toNat + 4 * countOf (flight 0xA#32 2 (2 ^ 32 - 4) 0 []) ∧
    2 ^ 32 < (activeInst (flight 0xA#32 2 0 (2 ^ 32 - 1) [])).lPkdAddr.toNat +
      packedSize .w8 (countOf (flight 0xA#32 2 0 (2 ^ 32 - 1) [])) ∧
    OperandsFit .w8 (flight 0xA#32 1 (2 ^ 32 - 4) (2 ^ 32 - 1) []) ∧
    OperandsFit .w8 (flight 0xA#32 (2 ^ 30) 0 0 []) ∧ countOf (flight 0xA#32 (2 ^ 30) 0 0 []) = 2 ^ 30 ∧
    (∃ t, exec .pack8 (flight 0xA#32 0 (2 ^ 32 - 4) (2 ^ 32 - 1) []) = .next t) ∧
    countOf (flight 0xA#32 0 (2 ^ 32 - 4) (2 ^ 32 - 1) []) = 0 :=
  ⟨by decide, by decide, fits_of_checks (dir := .pack) (by decide) (by decide) (by decide),
    fits_of_checks (dir := .pack) (by decide) (by decide) (by decide), by decide, nextOf_isSome (by decide), by decide⟩

/-- The last symbol byte is the first packed byte; the last packed byte lies one past admitted memory. -/
theorem test_hyp_OverlapAndBusFaults :
    (OperandsFit .w4 (flight 0x2#32 2 0x1000 0x1007 []) ∧
      rangeHas (activeWindow .pack .w4 (flight 0x2#32 2 0x1000 0x1007 [])).sym 0x1007 = true ∧
      rangeHas (activeWindow .pack .w4 (flight 0x2#32 2 0x1000 0x1007 [])).pkd 0x1007 = true) ∧
    (OperandsFit .w4 (shortMemory (flight 0x2#32 3 0x1000 0x2000 [])) ∧
      (¬ ∃ a, rangeHas (activeWindow .pack .w4 (shortMemory (flight 0x2#32 3 0x1000 0x2000 []))).sym a = true ∧
        rangeHas (activeWindow .pack .w4 (shortMemory (flight 0x2#32 3 0x1000 0x2000 []))).pkd a = true) ∧
      rangeHas (activeWindow .pack .w4 (shortMemory (flight 0x2#32 3 0x1000 0x2000 []))).pkd 0x2001 = true ∧
      memAdmit (shortMemory (flight 0x2#32 3 0x1000 0x2000 [])).plat 0x2001 = false) := by
  refine ⟨⟨fits_of_checks (dir := .pack) (by decide) (by decide) (by decide), by decide, by decide⟩,
    ⟨fits_of_checks (dir := .pack) (by decide) (by decide) (by decide), ?_, by decide, by decide⟩⟩
  rintro ⟨a, h1, h2⟩
  simp only [rangeHas, Bool.and_eq_true, decide_eq_true_eq] at h1 h2
  exact absurd (Nat.le_trans h2.1 (Nat.le_of_lt h1.2)) (by decide)

/-- Block 0 in flight beside block 1, whose open command has these ranges. -/
def beside (v : Window) (s : State) : State := twoBlocks { Inst.reset 0 with windows := [v] } s

/-- The command writes a byte of the other's source, and reads a byte of the other's destination. -/
theorem test_hyp_BlocksRace :
    (rangeHas (destRange (activeWindow .pack .w4 (beside ⟨.pack, ⟨0x2000, 4⟩, ⟨0x3000, 1⟩⟩ (packing 0x2#32 [1, 2])))) 0x2000 = true ∧
      rangeHas (Range.mk 0x2000 4) 0x2000 = true ∧
      OperandsFit .w4 (beside ⟨.pack, ⟨0x2000, 4⟩, ⟨0x3000, 1⟩⟩ (packing 0x2#32 [1, 2])) ∧
      accessFault (beside ⟨.pack, ⟨0x2000, 4⟩, ⟨0x3000, 1⟩⟩ (packing 0x2#32 [1, 2]))
        (activeWindow .pack .w4 (beside ⟨.pack, ⟨0x2000, 4⟩, ⟨0x3000, 1⟩⟩ (packing 0x2#32 [1, 2]))) = some .bufferRace) ∧
    (rangeHas (sourceRange (activeWindow .pack .w4 (beside ⟨.unpack, ⟨0x1004, 4⟩, ⟨0x3000, 1⟩⟩ (packing 0x2#32 [1, 2])))) 0x1007 = true ∧
      rangeHas (destRange ⟨.unpack, ⟨0x1004, 4⟩, ⟨0x3000, 1⟩⟩) 0x1007 = true ∧
      OperandsFit .w4 (beside ⟨.unpack, ⟨0x1004, 4⟩, ⟨0x3000, 1⟩⟩ (packing 0x2#32 [1, 2])) ∧
      accessFault (beside ⟨.unpack, ⟨0x1004, 4⟩, ⟨0x3000, 1⟩⟩ (packing 0x2#32 [1, 2]))
        (activeWindow .pack .w4 (beside ⟨.unpack, ⟨0x1004, 4⟩, ⟨0x3000, 1⟩⟩ (packing 0x2#32 [1, 2]))) = some .bufferRace) :=
  ⟨⟨by decide, by decide, fits_of_checks (dir := .pack) (by decide) (by decide) (by decide), by decide⟩,
    ⟨by decide, by decide, fits_of_checks (dir := .pack) (by decide) (by decide) (by decide), by decide⟩⟩

/-- Two packs that share their source and write neighbouring bytes: no byte is touched, and there is no race. -/
theorem test_hyp_BlocksRace_shared :
    commandJob .pack4 = some (.pack, .w4) ∧
    (let s := beside ⟨.pack, ⟨0x1000, 8⟩, ⟨0x2001, 1⟩⟩ (packing 0x2#32 [1, 2])
     (∀ a, ¬((rangeHas (destRange (activeWindow .pack .w4 s)) a = true ∧
          (rangeHas ⟨0x1000, 8⟩ a = true ∨ rangeHas ⟨0x2001, 1⟩ a = true)) ∨
        (rangeHas (sourceRange (activeWindow .pack .w4 s)) a = true ∧ rangeHas ⟨0x2001, 1⟩ a = true))) ∧
      racesOthers s s.turn (activeWindow .pack .w4 s) = false) := by
  refine ⟨by decide, ?_, by decide⟩
  have hd : destRange (activeWindow .pack .w4 (beside ⟨.pack, ⟨0x1000, 8⟩, ⟨0x2001, 1⟩⟩ (packing 0x2#32 [1, 2]))) = ⟨0x2000, 1⟩ := by
    decide
  have hs : sourceRange (activeWindow .pack .w4 (beside ⟨.pack, ⟨0x1000, 8⟩, ⟨0x2001, 1⟩⟩ (packing 0x2#32 [1, 2]))) = ⟨0x1000, 8⟩ := by
    decide
  intro a
  rw [hd, hs]
  simp only [rangeHas, Bool.and_eq_true, decide_eq_true_eq]
  omega

theorem test_hyp_ZeroCount :
    countOf (flight 0x2#32 0 0x1000 0x1000 []) = 0 ∧ OperandsFit .w4 (flight 0x2#32 0 0x1000 0x1000 []) ∧
    commandJob .pack4 = some (.pack, .w4) ∧ commandJob (.pack 0) = none ∧
    (activeInst (flight 0x2#32 0 0x1001 0x1000 [])).lSymAddr.toNat % symBytes Platform.standard ≠ 0 :=
  ⟨by decide, fits_of_checks (dir := .pack) (by decide) (by decide) (by decide), by decide, by decide, by decide⟩

theorem test_hyp_ErrorsArePrecise :
    ∃ t, exec .pack4 (flight 0x2#32 1 0x1002 0x2000 []) = .next t ∧ (activeInst t).err ≠ .ok := by
  obtain ⟨t, h⟩ := Option.isSome_iff_exists.mp
    (show (nextOf (exec .pack4 (flight 0x2#32 1 0x1002 0x2000 []))).isSome = true by decide)
  refine ⟨t, nextOf_some h, ?_⟩
  have : (nextOf (exec .pack4 (flight 0x2#32 1 0x1002 0x2000 []))).map (fun t => (activeInst t).err) = some .ealign := by decide
  rw [h] at this
  intro he
  simp [he] at this

/-- Also the hypothesis of IndependentOfLiveRegisters, DeterminedButPadding and OneBlockPerStep: a command that goes on, and for the
former one that faults. -/
theorem test_hyp_CommandFrame :
    (∃ t, exec .unpack12 (unpacking 0xF#32 2 [1, 2, 3]) = .next t) ∧ (∃ t, exec .pack4 (packing 0x2#32 [1, 2, 3]) = .next t) ∧
    exec .pack4 (packing 0x2#32 [16]) = .fault .symbolRange :=
  ⟨nextOf_isSome (by decide), ⟨_, rfl⟩, faultOf_some (by decide)⟩

/-- The state `s` on a platform that is not coherent, its host having written and not cleaned the bytes `l`. -/
def incoherentFlight (l : List Nat) (s : State) : State :=
  { s with plat := { s.plat with coherent := false }, uncleaned := l }

/-- What a command leaves stale and uncleaned. -/
def cachesAfter (i : Instr) (s : State) : Option (List Nat × List Nat) :=
  (nextOf (exec i s)).map (fun t => (t.stale, t.uncleaned))

/-- R67: the destination of a command that stored, and of one that failed its checks, both with the byte before it and its first byte
uncleaned. At EWIDTH only an unpack has a destination that its word gives. -/
theorem test_stale_destinations :
    cachesAfter .pack8 (incoherentFlight [0x1FFF, 0x2000] (packing 0xA#32 [7, 8])) = some ([0x2000, 0x2001], [0x1FFF]) ∧
    cachesAfter .pack8 (incoherentFlight [0x1FFF, 0x2000] (flight 0xA#32 2 0x1002 0x2000 [])) =
      some ([0x2000, 0x2001], [0x1FFF, 0x2000]) ∧
    cachesAfter .unpack8 (incoherentFlight [] (flight 0xB#32 2 (2 ^ 32 - 4) 0x2000 [])) =
      some ([2 ^ 32 - 4, 2 ^ 32 - 3, 2 ^ 32 - 2, 2 ^ 32 - 1], []) ∧
    cachesAfter (.unpack 5) (incoherentFlight [] (flight 0x51#32 1 0x1000 0x2000 [])) =
      some ([0x1000, 0x1001, 0x1002, 0x1003], []) ∧
    cachesAfter (.pack 5) (incoherentFlight [] (flight 0x50#32 1 0x1000 0x2000 [])) = some ([], []) := by decide

/-- CommandFrame on a platform that is not coherent: an OK command, a failing one, and an unsupported width. -/
theorem test_hyp_CommandFrame_incoherent :
    (commandJob .pack8 = some (.pack, .w8) ∧ OperandsFit .w8 (incoherentFlight [0x2000] (packing 0xA#32 [7, 8])) ∧
      ∃ t, exec .pack8 (incoherentFlight [0x2000] (packing 0xA#32 [7, 8])) = .next t) ∧
    (¬ OperandsFit .w8 (incoherentFlight [] (flight 0xA#32 2 0x1002 0x2000 [])) ∧
      ∃ t, exec .pack8 (incoherentFlight [] (flight 0xA#32 2 0x1002 0x2000 [])) = .next t) ∧
    (dispatch 5 = none ∧ ∃ t, exec (.unpack 5) (incoherentFlight [] (flight 0x51#32 1 0x1000 0x2000 [])) = .next t) :=
  ⟨⟨by decide, fits_of_checks (dir := .pack) (by decide) (by decide) (by decide), nextOf_isSome (by decide)⟩,
    ⟨fun h => absurd h.aligned (by decide), nextOf_isSome (by decide)⟩, by decide, nextOf_isSome (by decide)⟩

/-- Memory that differs just past the source, under a command that goes on and one that faults. -/
theorem test_hyp_ReadsOnlyItsSource :
    (∀ a, rangeHas (sourceRange (activeWindow .pack .w8 (packing 0xA#32 [7, 8]))) a = true →
      readByte (writeByte (packing 0xA#32 [7, 8]).mem 0x1008 0xEE) a = readByte (packing 0xA#32 [7, 8]).mem a) ∧
    (∃ t, exec .pack8 (packing 0xA#32 [7, 8]) = .next t) ∧ exec .pack8 (packing 0xA#32 [256]) = .fault .symbolRange := by
  refine ⟨?_, nextOf_isSome (by decide), faultOf_some (by decide)⟩
  intro a h
  rw [readByte_writeByte, if_neg]
  simp only [rangeHas, Bool.and_eq_true, decide_eq_true_eq] at h
  rintro rfl
  exact absurd h.2 (by decide)

/-! #### The register window -/

/-- Two Idle blocks at 0 and 0x40. -/
def idlePair (l : List Input) : State := scheduled l (twoBlocks (Inst.reset 0) State.reset)

theorem test_hyp_WindowLayout : (idlePair []).windowsApart ∧ 1 < (idlePair []).insts.length := by
  unfold State.windowsApart
  decide

/-- A byte access, a misaligned offset, and the addresses just past and just before a window. -/
theorem test_hyp_BadAccessesRefused :
    (idlePair []).windowsApart ∧
    (∃ b ∈ (idlePair []).insts, b.regBase ≤ 0x5E ∧ 0x5E < b.regBase + 0x20 ∧ (0x5E - b.regBase) % 4 ≠ 0) ∧
    (∀ a ∈ [0x20, 0x3C, 0x60], ∀ b ∈ (idlePair []).insts, ¬(b.regBase ≤ a ∧ a < b.regBase + 0x20)) ∧
    HostMoves (.regWrite 0x40 1 0) [] (idlePair [.host (.regWrite 0x40 1 0)]) ∧
    HostMoves (.regRead 0x3C 4) [] (idlePair [.host (.regRead 0x3C 4)]) :=
  ⟨test_hyp_WindowLayout.1, by decide, by decide, ⟨⟨rfl, rfl⟩, rfl⟩, ⟨⟨rfl, rfl⟩, rfl⟩⟩

/-- The hypotheses of OperandWrites, StatusWrite and ReadOnlyWrites: a write to each register of the second block. -/
theorem test_hyp_RegisterWrites : ∀ (r : Reg) (v : Word),
    HostMoves (.regWrite (0x40 + regOffset r) 4 v) [] (idlePair [.host (.regWrite (0x40 + regOffset r) 4 v)]) ∧
    findReg (idlePair [.host (.regWrite (0x40 + regOffset r) 4 v)]) (0x40 + regOffset r) 4 = some (1, r) := by
  intro r v
  exact ⟨⟨⟨rfl, rfl⟩, rfl⟩, by cases r <;> rfl⟩

/-- CommandAccepted: the block is Idle and the platform coherent. -/
theorem test_hyp_CommandAccepted :
    HostMoves (.regWrite 0x40 4 0x1000) [] (idlePair [.host (.regWrite 0x40 4 0x1000)]) ∧
    findReg (idlePair [.host (.regWrite 0x40 4 0x1000)]) 0x40 4 = some (1, .cmd) ∧
    (getInst (idlePair []) 1).phase = .idle ∧ (idlePair []).plat.coherent = true := ⟨⟨⟨rfl, rfl⟩, rfl⟩, rfl, rfl, rfl⟩

theorem test_hyp_CommandDropped :
    HostMoves (.regWrite 0x40 4 0x2) [] (secondBusy [.host (.regWrite 0x40 4 0x2)]) ∧
    findReg (secondBusy [.host (.regWrite 0x40 4 0x2)]) 0x40 4 = some (1, .cmd) ∧
    (getInst (secondBusy [.host (.regWrite 0x40 4 0x2)]) 1).phase = .busy := ⟨⟨⟨rfl, rfl⟩, rfl⟩, rfl, rfl⟩

/-- R27: with narrower addresses the bits above `ADDR_W` are dropped. -/
theorem test_hyp_OperandWrites :
    (keepAddrBits { Platform.standard with addrWidth := 16 } 0xFFFFFFFF#32) = 0xFFFF#32 ∧
    keepAddrBits Platform.standard 0xFFFFFFFF#32 = 0xFFFFFFFF#32 := by decide

theorem test_hyp_RegisterReads : ∀ r : Reg,
    HostMoves (.regRead (0x40 + regOffset r) 4) [] (secondBusy [.host (.regRead (0x40 + regOffset r) 4)]) ∧
    findReg (secondBusy [.host (.regRead (0x40 + regOffset r) 4)]) (0x40 + regOffset r) 4 = some (1, r) := by
  intro r
  exact ⟨⟨⟨rfl, rfl⟩, rfl⟩, by cases r <;> rfl⟩

theorem test_hyp_InfoConstant :
    Platform.wf Platform.standard = true ∧ Platform.wf { Platform.standard with symWidth := .w64, addrWidth := 1 } = true ∧
    ∃ t, step State.reset = .next t := ⟨by decide, by decide, nextOf_isSome (by decide)⟩

/-- R98: the largest operands an assembler takes. -/
def writesAtBounds : List Input :=
  ((assemble Platform.standard 0x40 (.unpack 255 (2 ^ 32 - 1) (2 ^ 32 - 1) (2 ^ 32 - 1))).getD []).take 4

def atBounds : State := idlePair (writesAtBounds ++ [.wait 0x40])

/-- The hypotheses of LaunchesAs, at the operands' last legal values, and those of CLRST. -/
theorem test_hyp_MnemonicLaunches :
    (atBounds.plat.wf = true ∧ atBounds.Sound ∧ atBounds.plat.coherent = true ∧
      (∀ r, findReg atBounds (0x40 + regOffset r) 4 = some (1, r)) ∧ (getInst atBounds 1).phase = .idle ∧
      assemble atBounds.plat 0x40 (.unpack 255 (2 ^ 32 - 1) (2 ^ 32 - 1) (2 ^ 32 - 1)) = some (writesAtBounds ++ [.wait 0x40]) ∧
      atBounds.inputs = writesAtBounds ++ [.wait 0x40]) ∧
    (assemble Platform.standard 0x40 .clrst = some [.host (.regWrite 0x50 4 0x6)] ∧
      (idlePair [.host (.regWrite 0x50 4 0x6)]).Sound ∧
      findReg (idlePair [.host (.regWrite 0x50 4 0x6)]) (0x40 + 0x10) 4 = some (1, .status)) :=
  ⟨⟨by decide, ⟨rfl, rfl⟩, rfl, by intro r; cases r <;> rfl, rfl, by decide, by decide⟩, by decide, ⟨rfl, rfl⟩, by decide⟩

/-- R96, R97: the operand order of a mnemonic, `PACK6 dest, symbols, count` (V2's addresses), and its CMD word. -/
theorem test_assemble_pack6 :
    assemble Platform.standard 0 (.pack6 0x2000 0x1000 3) =
      some [.host (.regWrite 0x0C 4 0x2000), .host (.regWrite 0x08 4 0x1000), .host (.regWrite 0x04 4 3), .host (.regWrite 0x00 4 0x6),
        .wait 0] := by decide

/-- R98: with `PACK 6, d, s, n` the word is the dispatched one; R96: numbers are decimal or hexadecimal. -/
theorem test_assemble_pack :
    assembleText Platform.standard 0 "PACK" ["6", "0x2000", "4096", "3"] =
      some [.host (.regWrite 0x0C 4 0x2000), .host (.regWrite 0x08 4 0x1000), .host (.regWrite 0x04 4 3), .host (.regWrite 0x00 4 0x60),
        .wait 0] := by decide

/-- R98: no such width, a count past its bound, a number that is none. -/
theorem test_assemble_refuses :
    assembleText Platform.standard 0 "PACK5" ["0", "0", "0"] = none ∧
    assembleText Platform.standard 0 "UNPACK8" ["0", "0", "4294967296"] = none ∧
    assembleText Platform.standard 0 "UNPACK8" ["0x", "0", "1"] = none := by decide

/-! #### Host memory accesses and the buffer hazard -/

/-- One Idle block whose completed pack no host has observed. -/
def unobserved (l : List Input) : State :=
  scheduled l { State.reset with insts := [{ Inst.reset 0 with windows := [⟨.pack, ⟨0x1000, 8⟩, ⟨0x2000, 1⟩⟩] }] }

/-- A platform that is not coherent: block 0 about to pack the symbol word at 0x1000, whose last byte is not clean, and 0x2000 stale. -/
def incoherent (l : List Input) : State :=
  { State.reset with
    inputs := l
    plat := { Platform.standard with coherent := false }
    insts := [{ Inst.reset 0 with count := 1, symAddr := 0x1000, pkdAddr := 0x2000 }]
    uncleaned := [0x1003]
    stale := [0x2000] }

/-- A write of the last symbol byte, a read of the packed byte, a read of the source, a read of the bytes just past a stale one with no
command open, and a write and a read of the first byte past admitted memory. -/
theorem test_hyp_BufferHazard :
    (HostMoves (.memWrite 0x1007 [1, 2]) [] (unobserved [.host (.memWrite 0x1007 [1, 2])]) ∧
      rangeHas ⟨0x1007, 2⟩ 0x1007 = true ∧ rangeHas ⟨0x1000, 8⟩ 0x1007 = true) ∧
    (HostMoves (.memRead 0x2000 1) [] (unobserved [.host (.memRead 0x2000 1)]) ∧ rangeHas ⟨0x2000, 1⟩ 0x2000 = true ∧
      rangeHas (destRange ⟨.pack, ⟨0x1000, 8⟩, ⟨0x2000, 1⟩⟩) 0x2000 = true) ∧
    (HostMoves (.memRead 0x1000 8) [] (unobserved [.host (.memRead 0x1000 8)]) ∧
      rangeAdmitted Platform.standard ⟨0x1000, 8⟩ = true ∧
      ∀ c ∈ (unobserved []).insts, ∀ z ∈ c.windows, rangesMeet ⟨0x1000, 8⟩ (destRange z) = false) ∧
    (HostMoves (.memRead 0x2001 3) [] (incoherent [.host (.memRead 0x2001 3)]) ∧
      rangeAdmitted (incoherent []).plat ⟨0x2001, 3⟩ = true ∧ (∀ x ∈ (incoherent []).stale, rangeHas ⟨0x2001, 3⟩ x = false) ∧
      ∀ c ∈ (incoherent []).insts, ∀ z ∈ c.windows, rangesMeet ⟨0x2001, 3⟩ (destRange z) = false) ∧
    (HostMoves (.memWrite 0x2001 [1]) [] (shortMemory (unobserved [.host (.memWrite 0x2001 [1])])) ∧
      HostMoves (.memRead 0x2001 1) [] (shortMemory (unobserved [.host (.memRead 0x2001 1)])) ∧
      rangeAdmitted (shortMemory (unobserved [])).plat ⟨0x2001, 1⟩ = false ∧
      ∀ c ∈ (unobserved []).insts, ∀ z ∈ c.windows, rangesMeet ⟨0x2001, 1⟩ z.sym = false ∧ rangesMeet ⟨0x2001, 1⟩ z.pkd = false) :=
  ⟨⟨⟨⟨rfl, rfl⟩, rfl⟩, by decide, by decide⟩, ⟨⟨⟨rfl, rfl⟩, rfl⟩, by decide, by decide⟩, ⟨⟨⟨rfl, rfl⟩, rfl⟩, by decide, by decide⟩,
    ⟨⟨⟨rfl, rfl⟩, rfl⟩, by decide, by decide, by decide⟩, ⟨⟨⟨rfl, rfl⟩, rfl⟩, ⟨⟨rfl, rfl⟩, rfl⟩, by decide, by decide⟩⟩

/-- R206, 93 item 12: a byte of an open range that the platform does not admit is a BufferRace and no BusFault. -/
theorem test_race_before_busFault :
    hostMemWrite 0x1007 [1] { unobserved [] with plat := { Platform.standard with admitted := [] } } = .fault .bufferRace ∧
    hostMemRead 0x2000 1 { unobserved [] with plat := { Platform.standard with admitted := [] } } = .fault .bufferRace :=
  ⟨faultOf_some (by decide), faultOf_some (by decide)⟩

/-- CommandAccepted on a platform that is not coherent: the uncleaned byte lies just past the source. -/
theorem test_hyp_CommandAccepted_incoherent :
    let s : State := { incoherent [.host (.regWrite 0 4 0x2)] with uncleaned := [0x1004] }
    HostMoves (.regWrite 0 4 0x2) [] s ∧ findReg s 0 4 = some (0, .cmd) ∧ (getInst s 0).phase = .idle ∧
    ∀ x ∈ s.uncleaned, rangeHas (sourceRange (flightWindow s.plat (acceptRegs 0x2 (getInst s 0)))) x = false :=
  ⟨⟨⟨rfl, rfl⟩, rfl⟩, by decide, rfl, by decide⟩

/-- A write of the byte just past the packed byte, on a platform that is coherent and on one that is not. -/
theorem test_hyp_HostWriteStores :
    HostMoves (.memWrite 0x2001 [1, 0]) [] (unobserved [.host (.memWrite 0x2001 [1, 0])]) ∧
    rangeAdmitted Platform.standard ⟨0x2001, 2⟩ = true ∧
    (∀ c ∈ (unobserved []).insts, ∀ v ∈ c.windows, rangesMeet ⟨0x2001, 2⟩ v.sym = false ∧ rangesMeet ⟨0x2001, 2⟩ v.pkd = false) ∧
    HostMoves (.memWrite 0x1004 [1, 0]) [] (incoherent [.host (.memWrite 0x1004 [1, 0])]) ∧
    rangeAdmitted (incoherent []).plat ⟨0x1004, 2⟩ = true ∧ (incoherent []).plat.coherent = false :=
  ⟨⟨⟨rfl, rfl⟩, rfl⟩, by decide, by decide, ⟨⟨rfl, rfl⟩, rfl⟩, by decide, rfl⟩

/-- A launch whose last source byte is uncleaned, and a read whose last byte is stale. -/
theorem test_hyp_CacheDuties :
    (incoherent []).plat.coherent = false ∧
    (HostMoves (.regWrite 0 4 0x2) [] (incoherent [.host (.regWrite 0 4 0x2)]) ∧
      findReg (incoherent [.host (.regWrite 0 4 0x2)]) 0 4 = some (0, .cmd) ∧ (getInst (incoherent []) 0).phase = .idle ∧
      decode 0x2#32 = .ok .pack4 ∧
      rangeHas (sourceRange (flightWindow (incoherent []).plat (acceptRegs 0x2 (getInst (incoherent []) 0)))) 0x1003 = true) ∧
    (HostMoves (.memRead 0x1FFF 2) [] (incoherent [.host (.memRead 0x1FFF 2)]) ∧ rangeHas ⟨0x1FFF, 2⟩ 0x2000 = true) :=
  ⟨rfl, ⟨⟨⟨rfl, rfl⟩, rfl⟩, by decide, rfl, by decide, by decide⟩, ⟨⟨⟨rfl, rfl⟩, rfl⟩, by decide⟩⟩

theorem test_hyp_CacheMaintenance :
    HostMoves (.clean 0x1000 4) [] (incoherent [.host (.clean 0x1000 4)]) ∧
    HostMoves (.invalidate 0x2000 1) [] (incoherent [.host (.invalidate 0x2000 1)]) := ⟨⟨⟨rfl, rfl⟩, rfl⟩, ⟨⟨rfl, rfl⟩, rfl⟩⟩

theorem test_hyp_WaitEnds :
    (unobserved [.wait 0]).Sound ∧ (unobserved [.wait 0]).inputs = [.wait 0] ∧
    findReg (unobserved [.wait 0]) (0 + 0x10) 4 = some (0, .status) ∧ (getInst (unobserved [.wait 0]) 0).phase = .idle :=
  ⟨⟨rfl, rfl⟩, rfl, by decide, rfl⟩

/-! #### Reset, the fault set and invariants -/

/-- An Idle block, in a state that is already faulted. -/
def faultedIdle : State := { idlePair [.host (.reset 1)] with faults := [.overlap] }

theorem test_hyp_IdleReset :
    faultedIdle.refused = false ∧ faultedIdle.inputs = [.host (.reset 1)] ∧ 1 < faultedIdle.insts.length ∧
    (getInst faultedIdle 1).phase = .idle := by decide

/-- A Busy UNPACK4 with its symbols in the middle and at the top of the address space, the latter to complete with ERANGE, and a Busy
PACK8 to complete with EALIGN, also on a platform that is not coherent with its first destination byte uncleaned. -/
theorem test_hyp_BusyReset :
    (∀ s ∈ [unpacking 0x3#32 2 [0xA7], flight 0x3#32 2 (2 ^ 32 - 4) 0x2000 [], flight 0xA#32 2 0x1002 0x2000 [],
        incoherentFlight [0x2000] (flight 0xA#32 2 0x1002 0x2000 [])],
      s.refused = false ∧ 0 < s.insts.length ∧ (getInst s 0).phase = .busy ∧
      racesOthers s 0 (flightWindow s.plat (getInst s 0)) = false) ∧
    decode (getInst (flight 0x3#32 2 (2 ^ 32 - 4) 0x2000 []) 0).lCmd = .ok .unpack4 ∧
    commandJob .unpack4 = some (.unpack, .w4) ∧
    decode (getInst (flight 0xA#32 2 0x1002 0x2000 []) 0).lCmd = .ok .pack8 ∧ commandJob .pack8 = some (.pack, .w8) := by decide

/-- R201: the reset of a command that would complete with EALIGN loses its destination too, one draw a byte; R59: none past the top. -/
theorem test_reset_draws :
    (nextOf (resetBlock 0 (flight 0xA#32 2 0x1002 0x2000 []))).map (fun t => t.draws) = some 2 ∧
    (nextOf (resetBlock 0 (flight 0x3#32 2 (2 ^ 32 - 4) 0x2000 []))).map (fun t => t.draws) = some 4 := by decide

theorem test_hyp_StoppedStates :
    (scheduled [.wait 0] faultedIdle).refused = false ∧ (scheduled [.wait 0] faultedIdle).faults ≠ [] ∧
    (∀ k rest, (scheduled [.wait 0] faultedIdle).inputs ≠ .host (.reset k) :: rest) ∧
    State.refused { State.reset with refused := true } = true := by
  refine ⟨rfl, by decide, ?_, rfl⟩
  intro k rest h
  cases h

theorem test_hyp_FaultSetGrows :
    step (packing 0x2#32 [16]) = .fault .symbolRange ∧ Fault.overlap ∈ faultedIdle.faults :=
  ⟨faultOf_some (by decide), by decide⟩

theorem test_hyp_OneBlockPerStep : ∃ t, step (packing 0x2#32 [1, 2]) = .next t := nextOf_isSome (by decide)

/-- V2's machine, its ranges under the buffer hazard as acceptance leaves them: the invariant's guard holds of a Busy block. -/
def guardedBusy : State := { packing 0x6#32 [1, 2, 3] with
  insts := [{ getInst (packing 0x6#32 [1, 2, 3]) 0 with windows := [⟨.pack, ⟨0x1000, 12⟩, ⟨0x2000, 3⟩⟩] }] }

theorem test_hyp_StepKeepsInv : guardedBusy.Inv ∧ ∃ t, step guardedBusy = .next t := by
  refine ⟨⟨by decide, by decide, ?_, by decide, by decide, by decide, by decide, by decide, by decide, by decide, by decide⟩, nextOf_isSome (by decide)⟩
  intro b hb
  have : b = getInst guardedBusy 0 := List.mem_singleton.mp hb
  subst this
  exact ⟨by decide, by decide, by decide, by decide, fun _ => by decide, fun _ => by decide⟩

end Sys2Proof.Tests
end

/-! PROOFS of the scope family. When the machine stops: the step and the move of a state marked refused and of a faulted state. -/

namespace Sys2Proof.Machine

/-! ### What the run's move leaves -/

theorem addFault_of_mem {f : Fault} {l : List Fault} (h : f ∈ l) : addFault f l = l := if_pos h

theorem advance_of_fault {s : State} {f : Fault} (h : step s = .fault f) :
    s.advance = { s with faults := addFault f s.faults } := by
  simp [State.advance, h]

theorem advance_of_refusal {s : State} {r : Refusal} (h : step s = .refused r) :
    s.advance = { s with refused := true } := by
  simp [State.advance, h]

/-- A fault that `F` already holds adds nothing to it (R43: `F` is a set). -/
theorem advance_of_known_fault {s : State} {f : Fault} (hf : f ∈ s.faults) (h : step s = .fault f) : s.advance = s := by
  rw [advance_of_fault h, addFault_of_mem hf]

/-! ### Which agent moves in a stopped state -/

theorem pickFaulted_of_no_reset {f : Fault} {s : State} (h : ∀ k rest, s.inputs ≠ .host (.reset k) :: rest) :
    pickFaulted f s = .stop f := by
  unfold pickFaulted
  split
  case h_1 k rest hi => exact absurd hi (h k rest)
  case h_2 => rfl

theorem step_of_faulted {f : Fault} {l : List Fault} {s : State} (hr : s.refused = false) (hf : s.faults = f :: l)
    (hi : ∀ k rest, s.inputs ≠ .host (.reset k) :: rest) : step s = .fault f := by
  simp [step, pick, hr, hf, pickFaulted_of_no_reset hi]

theorem step_of_refused {s : State} (h : s.refused = true) : step s = .refused .stateRefused := by
  simp [step, pick, h]

/-- A refusal of a state already marked changes nothing: the mark is all a refusal leaves (R178). -/
theorem advance_of_refused {s : State} (h : s.refused = true) : s.advance = s := by
  rw [advance_of_refusal (step_of_refused h), ← h]

/-- Settles O57: the first fault of `F` is the one a stopped step answers, and `F` holds it already. -/
theorem stoppedStates : Obligations.StoppedStates := by
  refine ⟨fun s hr hne hi => ?_, fun s h => ⟨step_of_refused h, advance_of_refused h⟩⟩
  obtain ⟨f, l, hf⟩ := List.exists_cons_of_ne_nil hne
  have hmem : f ∈ s.faults := by simp [hf]
  have hstep : step s = .fault f := step_of_faulted hr hf hi
  exact ⟨⟨f, hmem, hstep⟩, advance_of_known_fault hmem hstep⟩

end Sys2Proof.Machine

/-! PROOFS of the state family. The register window: which register an address spells, what writes and reads of it leave; the words of
STATUS and INFO; what every step keeps of the parameters and of `F`; the state at power-on. -/

namespace Sys2Proof.Machine

/-! ### Register words as numbers -/

theorem toNat_append_eq_add {n m : Nat} (x : BitVec n) (y : BitVec m) : (x ++ y).toNat = x.toNat * 2 ^ m + y.toNat := by
  rw [BitVec.toNat_append, ← Nat.shiftLeft_add_eq_or_of_lt y.isLt, Nat.shiftLeft_eq]

theorem getLsbD_eq_decide {n : Nat} (x : BitVec n) (i : Nat) : x.getLsbD i = decide (x.toNat / 2 ^ i % 2 = 1) := by
  rw [← BitVec.testBit_toNat, Nat.testBit_eq_decide_div_mod_eq]

/-- The layout of R29 as a sum of place values. -/
theorem statusWord_toNat (b : Inst) :
    (statusWord b).toNat = (busyBit b).toNat + 2 * b.done.toNat + 4 * b.drop.toNat + 16 * (errBits b.err).toNat := by
  simp only [statusWord, toNat_append_eq_add, BitVec.toNat_ofBool, BitVec.ofNat_eq_ofNat, BitVec.toNat_ofNat]
  omega

/-- The layout of R36, as long as `ADDR_W` fits its byte. -/
theorem infoWord_toNat {p : Platform} (h : p.addrWidth < 2 ^ 8) :
    (infoWord p).toNat = 8 * symBytes p + 2 ^ 8 * p.addrWidth := by
  have hs : 8 * symBytes p < 2 ^ 8 := by unfold symBytes; cases p.symWidth <;> decide
  simp only [infoWord, toNat_append_eq_add, BitVec.ofNat_eq_ofNat, BitVec.toNat_ofNat]
  rw [Nat.mod_eq_of_lt h, Nat.mod_eq_of_lt hs]
  omega

theorem Platform.addrWidth_le_of_wf {p : Platform} (h : p.wf = true) : p.addrWidth ≤ 32 := by
  simp only [Platform.wf, Bool.and_eq_true, decide_eq_true_eq] at h
  exact h.2

theorem infoWord_standard : infoWord Platform.standard = 0x00002020#32 := by decide

theorem keepAddrBits_toNat (p : Platform) (v : Word) : (keepAddrBits p v).toNat = v.toNat % 2 ^ p.addrWidth := by
  rw [keepAddrBits, BitVec.toNat_ofNat, Nat.mod_eq_of_lt (lt_of_le_of_lt (Nat.mod_le _ _) v.isLt)]

/-- Settles O45: STATUS read whole is the sum of its fields at their places. -/
theorem statusFields : Obligations.StatusFields := by
  intro b
  refine (statusWord_toNat b).trans ?_
  unfold busyBit
  cases b.phase <;> cases b.err <;> rfl

/-! ### The window of a block -/

theorem regOffset_lt (r : Reg) : regOffset r < 0x20 := by cases r <;> decide

theorem regAt_regOffset (r : Reg) : regAt (regOffset r) = some r := by cases r <;> rfl

theorem inWindow_iff {b : Inst} {a : Nat} : inWindow b a = true ↔ b.regBase ≤ a ∧ a < b.regBase + 0x20 := by
  simp [inWindow]

/-- In windows apart, the block that holds an address in its window is the first that does. -/
theorem findIdx?_inWindow {s : State} {k a : Nat} (h : s.windowsApart) (hk : k < s.insts.length)
    (ha : inWindow (getInst s k) a = true) : s.insts.findIdx? (fun b => inWindow b a) = some k := by
  rw [getInst_eq_getElem hk] at ha
  refine List.findIdx?_eq_some_iff_getElem.2 ⟨hk, ha, fun j hj hja => ?_⟩
  have hapart := List.pairwise_iff_getElem.1 h j k (hj.trans hk) hk hj
  rw [inWindow_iff] at ha hja
  omega

/-- Settles O37: the address lies in the window of that block only, at the register's own offset. -/
theorem windowLayout : Obligations.WindowLayout := by
  intro s k r h hk
  have hin : inWindow (getInst s k) ((getInst s k).regBase + regOffset r) = true :=
    inWindow_iff.2 ⟨Nat.le_add_right _ _, Nat.add_lt_add_left (regOffset_lt r) _⟩
  simp [findReg, findIdx?_inWindow h hk hin, regAt_regOffset]

/-! ### Register accesses as steps -/

theorem step_of_regWrite {s : State} {a size k : Nat} {r : Reg} {v : Word} {rest : List Input}
    (h : HostMoves (.regWrite a size v) rest s) (hf : findReg s a size = some (k, r)) :
    step s = hostRegWrite k r v { s with inputs := rest } := by
  have hf' : findReg { s with inputs := rest } a size = some (k, r) := hf
  simp [step_of_hostMoves h, hostStep, hf']

theorem step_of_regRead {s : State} {a size k : Nat} {r : Reg} {rest : List Input}
    (h : HostMoves (.regRead a size) rest s) (hf : findReg s a size = some (k, r)) :
    step s = .next (hostRegRead k r { s with inputs := rest }) := by
  have hf' : findReg { s with inputs := rest } a size = some (k, r) := hf
  simp [step_of_hostMoves h, hostStep, hf']

/-- Settles O41: each operand write replaces its register, an address cut to `ADDR_W` bits. -/
theorem operandWrites : Obligations.OperandWrites := by
  intro s a k v rest h
  refine ⟨fun hf => step_of_regWrite h hf, fun hf => ?_, fun hf => ?_⟩
  · exact ⟨_, keepAddrBits_toNat s.plat v, step_of_regWrite h hf⟩
  · exact ⟨_, keepAddrBits_toNat s.plat v, step_of_regWrite h hf⟩

/-- A write of STATUS clears DONE and DROP by the bits 1 and 2 of the number written (R31, R32). -/
theorem writeStatus_eq (v : Word) (b : Inst) :
    writeStatus v b = { b with
      done := if v.toNat / 2 % 2 = 1 then false else b.done
      drop := if v.toNat / 4 % 2 = 1 then false else b.drop } := by
  have hclear : ∀ (i : Nat) (x : Bool), (x && !v.getLsbD i) = if v.toNat / 2 ^ i % 2 = 1 then false else x := by
    intro i x
    rw [getLsbD_eq_decide]
    split <;> simp [*]
  simp only [writeStatus, hclear, Nat.reducePow]

/-- Settles O42: the step is the write of STATUS on the block the address spells. -/
theorem statusWrite : Obligations.StatusWrite := by
  intro s a k v rest h hf
  simp only [← writeStatus_eq]
  exact step_of_regWrite h hf

/-- Settles O43: the write is consumed and nothing is stored. -/
theorem readOnlyWrites : Obligations.ReadOnlyWrites := by
  rintro s a k v r rest h hf (rfl | rfl | rfl) <;> exact step_of_regWrite h hf

/-- A read closes the hazard of the block's commands exactly when it reads STATUS of an Idle block (R206; log 9). -/
theorem observeStatus_eq (r : Reg) (b : Inst) :
    observeStatus r b = { b with windows := if r = .status ∧ b.phase = .idle then [] else b.windows } := by
  unfold observeStatus
  split
  · next hp => simp [hp]
  · next hne => rw [if_neg fun ⟨hr, hp⟩ => hne hr hp]

/-- Settles O44: the reply is the register's value, and only the block's open hazards may change. -/
theorem registerReads : Obligations.RegisterReads := by
  intro s a k r rest h hf b value
  have hvalue : readReg s.plat b r = value := by cases r <;> rfl
  rw [step_of_regRead h hf, ← hvalue, ← observeStatus_eq]
  rfl

/-! ### What every step keeps of the parameters and of `F` -/

theorem JobOutcome.elsewhere {dir : Dir} {w : Width} {s t : State} (h : JobOutcome dir w s t) : SameElsewhere s t := by
  cases h with
  | error code hc ne ht => exact ht ▸ failCommand_elsewhere _ _ _
  | stored bs drawn ok clear len draw ht => exact ht ▸ completeOk_elsewhere _ _ _ _ _

theorem exec_elsewhere {i : Instr} {s t : State} (h : exec i s = .next t) : SameElsewhere s t := by
  rcases exec_next h with ⟨_, dir, _, rfl⟩ | ⟨dir, w, _, hjob⟩
  · exact failCommand_elsewhere _ _ _
  · exact hjob.elsewhere

theorem completeStep_keeps_plat_faults {k : Nat} {s t : State} (h : completeStep k s = .next t) :
    t.plat = s.plat ∧ t.faults = s.faults := by
  rcases completeStep_next h with ⟨_, rfl⟩ | ⟨_, _, rfl⟩ | ⟨_, i, _, hexec⟩
  · exact ⟨rfl, rfl⟩
  · exact ⟨rfl, rfl⟩
  · have hsame := exec_elsewhere hexec
    exact ⟨hsame.plat, hsame.faults⟩

theorem hostStep_keeps_plat_faults {op : HostOp} {s t : State} (h : hostStep op s = .next t) :
    t.plat = s.plat ∧ t.faults = s.faults := by
  cases hostStep_next h with
  | register k b y present ht => subst ht; exact ⟨rfl, rfl⟩
  | memory m n y u l ht => subst ht; exact ⟨rfl, rfl⟩
  | reset k v present busy flight ht => subst ht; exact ⟨rfl, rfl⟩

/-- No step changes the parameters of R7, and a step that answers a next state writes nothing into `F` (R43; log 1, log 13). -/
theorem step_keeps_plat_faults {s t : State} (h : step s = .next t) : t.plat = s.plat ∧ t.faults = s.faults := by
  rcases step_next h with ⟨k, rest, _, hblock⟩ | ⟨op, rest, hhost⟩ | rfl
  · have hkeep := completeStep_keeps_plat_faults hblock
    exact hkeep
  · have hkeep := hostStep_keeps_plat_faults hhost
    exact hkeep
  · exact ⟨rfl, rfl⟩

/-- Settles O46: INFO is a function of the parameters, which no step changes. -/
theorem infoConstant : Obligations.InfoConstant := by
  refine ⟨fun p hp => infoWord_toNat ?_, infoWord_standard, fun s t h => ?_⟩
  · exact lt_of_le_of_lt (Platform.addrWidth_le_of_wf hp) (by decide)
  · rw [(step_keeps_plat_faults h).1]

theorem mem_addFault {f g : Fault} {l : List Fault} : g ∈ addFault f l ↔ g ∈ l ∨ g = f := by
  unfold addFault
  split
  · next hf => exact ⟨.inl, fun h => h.elim id (fun hg => hg ▸ hf)⟩
  · simp

theorem advance_of_next {s t : State} (h : step s = .next t) : s.advance = t := by
  simp [State.advance, h]

/-- Settles O56: a fault is put in, and neither a next state, another fault nor a refusal takes one out. -/
theorem faultSetGrows : Obligations.FaultSetGrows := by
  refine ⟨rfl, fun s f h => ?_, fun s f hf => ?_⟩
  · rw [advance_of_fault h]
    exact mem_addFault.2 (.inr rfl)
  · cases h : step s with
    | next t => rwa [advance_of_next h, (step_keeps_plat_faults h).2]
    | fault g =>
      rw [advance_of_fault h]
      exact mem_addFault.2 (.inl hf)
    | refused r => rwa [advance_of_refusal h]

/-! ### The state at power-on -/

/-- A block after reset meets the block's invariant, whatever the parameters: it is Idle and its addresses are 0. -/
theorem instReset_inv (p : Platform) (base : Nat) : Inst.Inv p (Inst.reset base) := by
  have hzero : (0 : Word).toNat < addrLimit p := Nat.two_pow_pos _
  exact ⟨hzero, hzero, hzero, hzero, nofun, nofun⟩

/-- Settles O53: the one block is a block after reset, and every register of it reads 0. -/
theorem resetState : Obligations.ResetState := by
  refine ⟨rfl, fun b hb => ?_⟩
  obtain rfl : b = Inst.reset 0 := List.mem_singleton.1 hb
  exact ⟨rfl, rfl, rfl, rfl, by decide, rfl, rfl, rfl, rfl, rfl, infoWord_standard⟩

/-- Settles O60: the block meets its invariant, and memory, `F` and the cache bookkeeping are empty. -/
theorem resetMeetsInv : Obligations.ResetMeetsInv where
  plat := by decide
  turn := by decide
  blocks b hb := by
    obtain rfl : b = Inst.reset 0 := List.mem_singleton.1 hb
    exact instReset_inv _ _
  memory := ⟨.nil, nofun⟩
  inSpace := nofun
  faults := .nil
  uncleaned := .nil
  uncleanedInSpace := nofun
  stale := .nil
  staleInSpace := nofun
  coherent _ := ⟨rfl, rfl⟩

end Sys2Proof.Machine

/-! PROOFS of the memory family. The faults of a command that passed its checks; what a command leaves unchanged and what it reads; the
duties of a host without coherence, and what its cache maintenance does. -/

namespace Sys2Proof.Machine

/-! ### The faults of a command that passed its checks -/

theorem checkedCommand_of_error {dir : Dir} {w : Width} {s : State} (hne : operandError s.plat w (activeInst s) ≠ .ok)
    (body : Result) : checkedCommand dir w s body =
      .next (failCommand (operandError s.plat w (activeInst s)) (activeWindow dir w s) s) :=
  if_neg hne

theorem checkedCommand_of_fault {dir : Dir} {w : Width} {s : State} {f : Fault}
    (hok : operandError s.plat w (activeInst s) = .ok) (hf : accessFault s (activeWindow dir w s) = some f) (body : Result) :
    checkedCommand dir w s body = .fault f := by
  simp only [activeWindow] at hf
  simp [checkedCommand, hok, hf]

theorem checkedCommand_of_clear {dir : Dir} {w : Width} {s : State} (hok : operandError s.plat w (activeInst s) = .ok)
    (hclear : accessFault s (activeWindow dir w s) = none) (body : Result) : checkedCommand dir w s body = body := by
  simp only [activeWindow] at hclear
  simp [checkedCommand, hok, hclear]

/-- A command that passed its checks raises the fault its accesses have, before its body (R103). -/
theorem exec_of_accessFault {i : Instr} {dir : Dir} {w : Width} {s : State} {f : Fault} (hj : commandJob i = some (dir, w))
    (hfit : OperandsFit w s) (hf : accessFault s (activeWindow dir w s) = some f) : exec i s = .fault f := by
  have hok := operandError_ok_iff.2 hfit
  rw [exec_of_job hj]
  cases dir with
  | pack => exact checkedCommand_of_fault hok hf _
  | unpack => exact checkedCommand_of_fault hok hf _

theorem accessFault_of_meet {s : State} {v : Window} (h : rangesMeet v.sym v.pkd = true) :
    accessFault s v = some .overlap := by
  simp [accessFault, h]

theorem accessFault_of_not_admitted {s : State} {v : Window} (h : rangesMeet v.sym v.pkd = false)
    (ha : (rangeAdmitted s.plat v.sym && rangeAdmitted s.plat v.pkd) = false) : accessFault s v = some .busFault := by
  simp [accessFault, h, ha]

/-- One byte that the platform does not admit is enough to refuse its range (R61). -/
theorem rangeAdmitted_eq_false {p : Platform} {r : Range} {a : Nat} (hr : rangeHas r a = true) (ha : memAdmit p a = false) :
    rangeAdmitted p r = false := by
  rw [← Bool.not_eq_true, rangeAdmitted_iff]
  intro h
  simp [h a hr] at ha

/-- Settles O29: both faults are those of the accesses, Overlap tested first. -/
theorem overlapAndBusFaults : Obligations.OverlapAndBusFaults := by
  intro i dir w s hj hfit v
  refine ⟨fun hshared => ?_, fun hapart ⟨a, hin, ha⟩ => ?_⟩
  · exact exec_of_accessFault hj hfit (accessFault_of_meet (rangesMeet_iff.2 hshared))
  · have hmeet : rangesMeet v.sym v.pkd = false := by rwa [← Bool.not_eq_true, rangesMeet_iff]
    refine exec_of_accessFault hj hfit (accessFault_of_not_admitted hmeet ?_)
    exact Bool.and_eq_false_iff.2 (hin.imp (rangeAdmitted_eq_false · ha) (rangeAdmitted_eq_false · ha))

/-! ### What a command leaves unchanged -/

theorem exec_next_of_job {i : Instr} {dir : Dir} {w : Width} {s t : State} (hj : commandJob i = some (dir, w))
    (h : exec i s = .next t) : JobOutcome dir w s t := by
  rcases exec_next h with ⟨hnone, _⟩ | ⟨dir', w', hj', hout⟩
  · cases hj.symm.trans hnone
  · cases hj.symm.trans hj'
    exact hout

/-- A dispatched command whose bit count gives no width completes with EWIDTH (R161). -/
theorem exec_of_no_width {b : Nat} (dir : Dir) (s : State) (hb : dispatch b = none) :
    exec (dispatchedInstr dir b) s = .next (failCommand .ewidth (widthlessWindow s.plat dir (activeInst s)) s) := by
  cases dir with
  | pack => simp [dispatchedInstr, exec, execPack, hb]
  | unpack => simp [dispatchedInstr, exec, execUnpack, hb]

/-- Without coherence a failing command leaves its destination stale, as far as the address space has it (log 11, log 12). -/
theorem mem_failCommand_stale {c : ErrCode} {v : Window} {s : State} (hc : s.plat.coherent = false) {a : Nat} :
    a ∈ (failCommand c v s).stale ↔ a ∈ s.stale ∨ (rangeHas (destRange v) a = true ∧ a < 2 ^ s.plat.addrWidth) := by
  simp [hc, mem_addAddrs, rangeHas_cutRange]

/-- The destination of a command that passed its checks lies in the address space (R59, R105). -/
theorem OperandsFit.dest_lt {dir : Dir} {w : Width} {s : State} (h : OperandsFit w s) {a : Nat}
    (ha : rangeHas (destRange (activeWindow dir w s)) a = true) : a < 2 ^ s.plat.addrWidth := by
  have hend := (rangeHas_iff.1 ha).2
  cases dir with
  | pack => exact hend.trans_le h.packedFits
  | unpack => exact hend.trans_le h.symbolsFit

/-- What a command that stored `bs` into the range `r` leaves at every address. -/
theorem readByte_completeOk_store {w : Width} {d : Bool} {r : Range} {bs : List Byte} {s : State} {a : Nat}
    (len : bs.length = r.len) : readByte (completeOk w (countDraw d (storeBytes r.base bs s))).mem a =
      if rangeHas r a = true then bs.getD (a - r.base) 0 else readByte s.mem a := by
  simp only [completeOk_mem, countDraw_mem, storeBytes_mem, readByte_writeBytes, len, rangeHas_iff]

theorem JobOutcome.sameOutside {dir : Dir} {w : Width} {s t : State} (h : JobOutcome dir w s t) :
    SameOutside (destRange (activeWindow dir w s)) s t := by
  intro a ha
  cases h with
  | error code hc ne ht => rw [ht, failCommand_mem]
  | stored bs drawn ok clear len draw ht =>
    rw [ht, readByte_completeOk_store len, if_neg (by simp [ha])]

theorem JobOutcome.coherent_caches {dir : Dir} {w : Width} {s t : State} (h : JobOutcome dir w s t)
    (hc : s.plat.coherent = true) : t.uncleaned = s.uncleaned ∧ t.stale = s.stale := by
  cases h with
  | error code _ ne ht => simp [ht, hc]
  | stored bs drawn ok clear len draw ht => simp [ht, hc]

theorem JobOutcome.mem_stale {dir : Dir} {w : Width} {s t : State} (h : JobOutcome dir w s t) (hc : s.plat.coherent = false)
    {a : Nat} :
    a ∈ t.stale ↔ a ∈ s.stale ∨ (rangeHas (destRange (activeWindow dir w s)) a = true ∧ a < 2 ^ s.plat.addrWidth) := by
  cases h with
  | error code _ ne ht => rw [ht, mem_failCommand_stale hc]
  | stored bs drawn ok clear len draw ht =>
    have hstored : a ∈ t.stale ↔ a ∈ s.stale ∨ rangeHas (destRange (activeWindow dir w s)) a = true := by
      simp [ht, hc, len, mem_addAddrs]
    rw [hstored, and_iff_left_of_imp (operandError_ok_iff.1 ok).dest_lt]

theorem JobOutcome.mem_uncleaned {dir : Dir} {w : Width} {s t : State} (h : JobOutcome dir w s t)
    (hc : s.plat.coherent = false) (hfit : OperandsFit w s) {a : Nat} :
    a ∈ t.uncleaned ↔ a ∈ s.uncleaned ∧ rangeHas (destRange (activeWindow dir w s)) a = false := by
  cases h with
  | error code herr ne ht => exact absurd (herr.symm.trans (operandError_ok_iff.2 hfit)) ne
  | stored bs drawn ok clear len draw ht => simp [ht, hc, len, mem_dropAddrs]

theorem JobOutcome.uncleaned_of_not_fit {dir : Dir} {w : Width} {s t : State} (h : JobOutcome dir w s t)
    (hfit : ¬ OperandsFit w s) : t.uncleaned = s.uncleaned := by
  cases h with
  | error code _ ne ht => rw [ht, failCommand_uncleaned]
  | stored bs drawn ok clear len draw ht => exact absurd (operandError_ok_iff.1 ok) hfit

theorem JobOutcome.unpack_draws {w : Width} {s t : State} (h : JobOutcome .unpack w s t) : t.draws = s.draws := by
  cases h with
  | error code _ ne ht => rw [ht, failCommand_draws]
  | stored bs drawn ok clear len draw ht => simp [ht, draw]

/-- A command without a width has no byte of memory to change, one with a width its destination. -/
theorem exec_readByte_outside {i : Instr} {s t : State} (h : exec i s = .next t) {a : Nat}
    (ha : ∀ dir w, commandJob i = some (dir, w) → rangeHas (destRange (activeWindow dir w s)) a = false) :
    readByte t.mem a = readByte s.mem a := by
  rcases exec_next h with ⟨_, dir, _, rfl⟩ | ⟨dir, w, hj, hout⟩
  · rw [failCommand_mem]
  · exact hout.sameOutside a (ha dir w hj)

theorem exec_coherent_caches {i : Instr} {s t : State} (h : exec i s = .next t) (hc : s.plat.coherent = true) :
    t.uncleaned = s.uncleaned ∧ t.stale = s.stale := by
  rcases exec_next h with ⟨_, dir, _, rfl⟩ | ⟨dir, w, _, hout⟩
  · simp [hc]
  · exact hout.coherent_caches hc

/-- The stale bytes that an unsupported width leaves: its destination has the symbol range of an unpack, and no byte of a pack. -/
theorem exec_mem_stale_of_no_width {b : Nat} {dir : Dir} {s t : State} (hb : dispatch b = none)
    (h : exec (dispatchedInstr dir b) s = .next t) (hc : s.plat.coherent = false) {a : Nat} :
    a ∈ t.stale ↔ a ∈ s.stale ∨
      (rangeHas (destRange (widthlessWindow s.plat dir (activeInst s))) a = true ∧ a < 2 ^ s.plat.addrWidth) := by
  rw [exec_of_no_width dir s hb] at h
  cases h
  exact mem_failCommand_stale hc

theorem rangeHas_empty (base a : Nat) : rangeHas ⟨base, 0⟩ a = false := by
  rw [← Bool.not_eq_true, rangeHas_iff]
  exact fun ⟨hle, hlt⟩ => absurd hlt (Nat.not_lt.2 hle)

/-- Settles O33: each clause by the outcome of the command's job, or by EWIDTH where it has none. -/
theorem commandFrame : Obligations.CommandFrame := by
  intro i s t h
  refine ⟨exec_elsewhere h, fun a ha => exec_readByte_outside h ha, exec_coherent_caches h, ?_, ?_, ?_⟩
  · intro hc dir w hj
    have hout := exec_next_of_job hj h
    exact ⟨fun a => hout.mem_stale hc, fun hfit a => hout.mem_uncleaned hc hfit, hout.uncleaned_of_not_fit⟩
  · intro hc b hb
    refine ⟨?_, ?_⟩
    · rintro rfl a
      have hstale := exec_mem_stale_of_no_width (dir := .pack) hb h hc (a := a)
      simpa [destRange, widthlessWindow, rangeHas_empty] using hstale
    · rintro rfl a
      exact exec_mem_stale_of_no_width (dir := .unpack) hb h hc
  · intro w hj
    exact (exec_next_of_job hj h).unpack_draws

/-! ### What a command reads -/

/-- The same outcome of a job in a state and in one with another memory: the same fault, the same error completion, or a store of the
same bytes and `complete(OK)`. -/
inductive SameOutcome (dir : Dir) (w : Width) (s u : State) : Result → Result → Prop where
  | fault (f : Fault) : SameOutcome dir w s u (.fault f) (.fault f)
  | error (code : ErrCode) (hc : operandError s.plat w (activeInst s) = code) (ne : code ≠ .ok) :
      SameOutcome dir w s u (.next (failCommand code (activeWindow dir w s) s)) (.next (failCommand code (activeWindow dir w s) u))
  | stored (bs : List Byte) (drawn : Bool) (len : bs.length = (destRange (activeWindow dir w s)).len) :
      SameOutcome dir w s u
        (.next (completeOk w (countDraw drawn (storeBytes (destRange (activeWindow dir w s)).base bs s))))
        (.next (completeOk w (countDraw drawn (storeBytes (destRange (activeWindow dir w s)).base bs u))))

section SourceOnly

variable {w : Width} {s : State} {m : Memory}

/-- The symbol words are read from the symbol range alone (R51, R52). -/
theorem sourceSymbols_congr (h : ∀ a, rangeHas (symRange s.plat (activeInst s)) a = true → readByte m a = readByte s.mem a) :
    sourceSymbols { s with mem := m } = sourceSymbols s := by
  have hword : ∀ i < countOf s, symbolAt { s with mem := m } i = symbolAt s i := by
    intro i hi
    refine congrArg leValue (List.map_congr_left fun j hj => h _ (rangeHas_iff.2 ⟨?_, ?_⟩))
    · exact (Nat.le_add_right _ _).trans (Nat.le_add_right _ _)
    · calc (activeInst s).lSymAddr.toNat + symBytes s.plat * i + j
          < (activeInst s).lSymAddr.toNat + symBytes s.plat * i + symBytes s.plat :=
            Nat.add_lt_add_left (List.mem_range.1 hj) _
        _ = (activeInst s).lSymAddr.toNat + symBytes s.plat * (i + 1) := by rw [Nat.mul_succ, Nat.add_assoc]
        _ ≤ (activeInst s).lSymAddr.toNat + symBytes s.plat * countOf s :=
            Nat.add_le_add_left (Nat.mul_le_mul_left _ hi) _
  exact List.map_congr_left fun i hi => hword i (List.mem_range.1 hi)

/-- The packed bytes are read from the packed range alone (R53). -/
theorem sourceBytes_congr (h : ∀ a, rangeHas (pkdRange w (activeInst s)) a = true → readByte m a = readByte s.mem a) :
    sourceBytes w { s with mem := m } = sourceBytes w s :=
  List.map_congr_left fun _ hj =>
    h _ (rangeHas_iff.2 ⟨Nat.le_add_right _ _, Nat.add_lt_add_left (List.mem_range.1 hj) _⟩)

/-- The checks and the faults before the body read no memory. -/
theorem checkedCommand_sameOutcome {dir : Dir} {r q : Result} (h : SameOutcome dir w s { s with mem := m } r q) :
    SameOutcome dir w s { s with mem := m } (checkedCommand dir w s r) (checkedCommand dir w { s with mem := m } q) := by
  by_cases hok : operandError s.plat w (activeInst s) = .ok
  · cases hf : accessFault s (activeWindow dir w s) with
    | some f =>
      rw [checkedCommand_of_fault hok hf, checkedCommand_of_fault (s := { s with mem := m }) hok hf]
      exact .fault f
    | none => rwa [checkedCommand_of_clear hok hf, checkedCommand_of_clear (s := { s with mem := m }) hok hf]
  · rw [checkedCommand_of_error hok, checkedCommand_of_error (s := { s with mem := m }) hok]
    exact .error _ rfl hok

theorem packBody_sameOutcome (h : sourceSymbols { s with mem := m } = sourceSymbols s) :
    SameOutcome .pack w s { s with mem := m } (packBody w s) (packBody w { s with mem := m }) := by
  cases hr : symbolsOutOfRange w (sourceSymbols s) with
  | true =>
    rw [packBody_of_outOfRange hr, packBody_of_outOfRange (h.symm ▸ hr)]
    exact .fault _
  | false =>
    rw [packBody_of_inRange hr, packBody_of_inRange (h.symm ▸ hr), h]
    exact .stored _ _ (by simp [destRange, activeWindow, commandWindow, pkdRange, countOf])

theorem unpackBody_sameOutcome (h : sourceBytes w { s with mem := m } = sourceBytes w s) :
    SameOutcome .unpack w s { s with mem := m } (unpackBody w s) (unpackBody w { s with mem := m }) := by
  unfold unpackBody
  rw [h]
  exact .stored _ false (by simp [destRange, activeWindow, commandWindow, symRange, countOf])

/-- A command whose source holds the same bytes has the same outcome, its fault or its error included (R56). -/
theorem exec_sameOutcome {i : Instr} {dir : Dir} (hj : commandJob i = some (dir, w))
    (h : ∀ a, rangeHas (sourceRange (activeWindow dir w s)) a = true → readByte m a = readByte s.mem a) :
    SameOutcome dir w s { s with mem := m } (exec i s) (exec i { s with mem := m }) := by
  rw [exec_of_job hj, exec_of_job hj]
  cases dir with
  | pack => exact checkedCommand_sameOutcome (packBody_sameOutcome (sourceSymbols_congr h))
  | unpack => exact checkedCommand_sameOutcome (unpackBody_sameOutcome (sourceBytes_congr h))

end SourceOnly

theorem activeInst_of_absent {s : State} (h : s.insts.length ≤ s.turn) : activeInst s = Inst.reset 0 := by
  simp [activeInst, getInst, h]

/-- No command completes with an error on a block that the platform does not have: its operands read 0. -/
theorem present_of_operandError {w : Width} {s : State} (hne : operandError s.plat w (activeInst s) ≠ .ok) :
    s.turn < s.insts.length := by
  by_contra habsent
  refine hne (operandError_ok_iff.2 ?_)
  have hreset := activeInst_of_absent (Nat.le_of_not_lt habsent)
  have hcount : countOf s = 0 := by rw [countOf, hreset]; rfl
  exact ⟨by simp [hreset, Inst.reset], by simp [hreset, Inst.reset, hcount], by simp [hreset, Inst.reset, hcount, packedSize]⟩

theorem completeOk_err (w : Width) (s : State) : (activeInst (completeOk w s)).err = .ok := by
  by_cases h : s.turn < s.insts.length
  · rw [activeInst_completeOk w h]
    rfl
  · rw [activeInst_of_absent (by simpa using h)]
    rfl

theorem failCommand_err {code : ErrCode} {w : Width} {s : State} (hc : operandError s.plat w (activeInst s) = code)
    (ne : code ≠ .ok) (v : Window) : (activeInst (failCommand code v s)).err = code := by
  rw [activeInst_failCommand code v (present_of_operandError (hc ▸ ne))]
  rfl

/-- Settles O34: the outcome is the same, and a store leaves the bytes outside it as the memory it found had them. -/
theorem readsOnlyItsSource : Obligations.ReadsOnlyItsSource := by
  intro i dir w s m hj hsame
  have hout := exec_sameOutcome hj hsame
  generalize exec i { s with mem := m } = r at hout ⊢
  refine ⟨fun t ht => ?_, fun f hf => ?_⟩
  · rw [ht] at hout
    cases hout with
    | error code hc ne =>
      have herr := failCommand_err hc ne (activeWindow dir w s)
      exact ⟨_, rfl, rfl, fun a _ hok => absurd (herr.symm.trans hok) ne, fun a _ => rfl, fun _ => rfl⟩
    | stored bs drawn len =>
      refine ⟨_, rfl, rfl, fun a ha _ => ?_, fun a ha => ?_, fun hne => absurd (completeOk_err _ _) hne⟩
      · rw [readByte_completeOk_store len, readByte_completeOk_store len, if_pos ha, if_pos ha]
      · rw [readByte_completeOk_store len, if_neg (by simp [ha])]
  · rw [hf] at hout
    cases hout
    rfl

/-! ### Caches -/

/-- An Idle block refuses a command whose source holds an uncleaned byte (R67, R191; log 12). -/
theorem launch_of_sourceUncleaned {k : Nat} {v : Word} {s : State} (hp : (getInst s k).phase = .idle)
    (h : sourceUncleaned s (acceptRegs v (getInst s k)) = true) : launch k v s = .fault .bufferRace := by
  simp [launch, hp, h]

theorem sourceUncleaned_of_mem {s : State} {b : Inst} {i : Instr} {x : Nat} (hc : s.plat.coherent = false)
    (hd : decode b.lCmd = .ok i) (hx : x ∈ s.uncleaned) (hr : rangeHas (sourceRange (flightWindow s.plat b)) x = true) :
    sourceUncleaned s b = true := by
  have hany : s.uncleaned.any (rangeHas (sourceRange (flightWindow s.plat b))) = true := List.any_eq_true.2 ⟨x, hx, hr⟩
  simp [sourceUncleaned, hc, hd, hany]

theorem hostMemRead_of_stale {addr n x : Nat} {s : State} (hx : x ∈ s.stale) (hr : rangeHas ⟨addr, n⟩ x = true) :
    hostMemRead addr n s = .fault .bufferRace := by
  have hany : s.stale.any (rangeHas ⟨addr, n⟩) = true := List.any_eq_true.2 ⟨x, hx, hr⟩
  simp [hostMemRead, hany]

/-- Settles O50: the launch finds the uncleaned byte, and the read the stale one, before anything else is done. -/
theorem cacheDuties : Obligations.CacheDuties := by
  intro s a k addr n x v i rest hc
  refine ⟨fun h hf hp hd hx hr => ?_, fun h hx hr => ?_⟩
  · rw [step_of_regWrite h hf]
    exact launch_of_sourceUncleaned (s := { s with inputs := rest }) hp (sourceUncleaned_of_mem hc hd hx hr)
  · rw [step_of_hostMoves h]
    exact hostMemRead_of_stale (s := { s with inputs := rest }) hx hr

theorem mem_hostInvalidate_stale {addr n x : Nat} {s : State} :
    x ∈ (hostInvalidate addr n s).stale ↔ x ∈ s.stale ∧ (rangeHas ⟨addr, n⟩ x = false ∨ inOpenDest s x = true) := by
  simp [hostInvalidate, List.mem_filter]

/-- Only a byte the host wrote and had not cleaned may be lost by an invalidate (R67; log 12). -/
theorem readByte_hostInvalidate {addr n x : Nat} {s : State} (h : x ∉ s.uncleaned ∨ rangeHas ⟨addr, n⟩ x = false) :
    readByte (hostInvalidate addr n s).mem x = readByte s.mem x := by
  refine readByte_scatterDraws_outside _ _ _ _ fun hmem => ?_
  obtain ⟨hx, hr⟩ := List.mem_filter.1 hmem
  rcases h with hnot | hout
  · exact hnot hx
  · exact absurd hr (by simp [hout])

/-- Settles O51: a clean drops the range's uncleaned marks, and an invalidate redraws the bytes that still had one. -/
theorem cacheMaintenance : Obligations.CacheMaintenance := by
  intro s addr n rest
  refine ⟨fun h => ⟨_, step_of_hostMoves h, rfl, rfl, rfl, fun x => mem_dropAddrs⟩, fun h => ?_⟩
  exact ⟨_, step_of_hostMoves h, rfl, fun x => mem_dropAddrs, fun x => mem_hostInvalidate_stale,
    fun x hx => readByte_hostInvalidate hx⟩

end Sys2Proof.Machine

/-! PROOFS of the encoding family. The command word: its fields as numbers, the words the decoder accepts and what each spells. The packed
formats: each byte and each symbol as a number, unpacking as the inverse of packing, the stream rule, and what the pack commands leave in
memory. The assembler's lines as steps. -/

namespace Sys2Proof

/-! ### The fields of a word as numbers (R80 to R85) -/

theorem rsvdField_toNat (v : Word) : (rsvdField v).toNat = v.toNat / 2 ^ 12 := by
  rw [rsvdField, BitVec.extractLsb'_toNat, Nat.shiftRight_eq_div_pow]
  omega

theorem bitCountField_toNat (v : Word) : (bitCountField v).toNat = v.toNat / 2 ^ 4 % 2 ^ 8 := by
  rw [bitCountField, BitVec.extractLsb'_toNat, Nat.shiftRight_eq_div_pow]

theorem wcodeField_toNat (v : Word) : (wcodeField v).toNat = v.toNat / 2 ^ 2 % 2 ^ 2 := by
  rw [wcodeField, BitVec.extractLsb'_toNat, Nat.shiftRight_eq_div_pow]

theorem selField_toNat (v : Word) : (selField v).toNat = v.toNat / 2 % 2 := by
  rw [selField, ← BitVec.testBit_toNat, Nat.toNat_testBit, Nat.pow_one]

/-- The DIR bit of a direction (R81). -/
def Dir.code : Dir → BitVec 1
  | .pack => 0
  | .unpack => 1

theorem dirField_code_toNat (v : Word) : (dirField v).code.toNat = v.toNat % 2 := by
  have hbit : (dirField v).code.toNat = (v.getLsbD 0).toNat := by
    unfold dirField
    cases v.getLsbD 0 <;> rfl
  rw [hbit, ← BitVec.testBit_toNat, Nat.toNat_testBit, Nat.pow_zero, Nat.div_one]

/-- The layout of R80 as a sum of place values. -/
theorem layoutWord_toNat (c : BitVec 8) (w : BitVec 2) (sel dir : BitVec 1) :
    (layoutWord c w sel dir).toNat = 2 ^ 4 * c.toNat + 2 ^ 2 * w.toNat + 2 * sel.toNat + dir.toNat := by
  simp only [layoutWord, Machine.toNat_append_eq_add, BitVec.ofNat_eq_ofNat, BitVec.toNat_ofNat]
  omega

/-! ### A word is its fields -/

/-- The word has RSVD zero and these other fields. -/
structure HasFields (v : Word) (c : BitVec 8) (w : BitVec 2) (sel : Bool) (dir : Dir) : Prop where
  rsvd : rsvdField v = 0
  bitCount : bitCountField v = c
  wcode : wcodeField v = w
  sel : selField v = sel
  dir : dirField v = dir

theorem rsvdField_eq_zero_iff {v : Word} : rsvdField v = 0 ↔ v.toNat / 2 ^ 12 = 0 := by
  rw [← rsvdField_toNat, BitVec.toNat_eq]
  rfl

theorem Dir.code_toNat_inj {dir dir' : Dir} : dir.code.toNat = dir'.code.toNat ↔ dir = dir' := by
  cases dir <;> cases dir' <;> decide

theorem hasFields_iff {v : Word} {c : BitVec 8} {w : BitVec 2} {sel : Bool} {dir : Dir} :
    HasFields v c w sel dir ↔ v = layoutWord c w (BitVec.ofBool sel) dir.code := by
  have hlayout := layoutWord_toNat c w (BitVec.ofBool sel) dir.code
  rw [BitVec.toNat_ofBool] at hlayout
  have hc := c.isLt
  have hw := w.isLt
  have hsel := sel.toNat_lt
  have hdir := dir.code.isLt
  constructor
  · rintro ⟨hrsvd, rfl, rfl, rfl, rfl⟩
    rw [rsvdField_eq_zero_iff] at hrsvd
    rw [bitCountField_toNat, wcodeField_toNat, selField_toNat, dirField_code_toNat] at hlayout
    apply BitVec.eq_of_toNat_eq
    omega
  · rintro rfl
    refine ⟨rsvdField_eq_zero_iff.2 ?_, BitVec.eq_of_toNat_eq ?_, BitVec.eq_of_toNat_eq ?_,
      Bool.eq_iff_iff.2 ?_, Dir.code_toNat_inj.1 ?_⟩
    · omega
    · rw [bitCountField_toNat]; omega
    · rw [wcodeField_toNat]; omega
    · rw [← Bool.toNat_eq_one, ← Bool.toNat_eq_one, selField_toNat]; omega
    · rw [dirField_code_toNat]; omega

/-! ### What the decoder reads (R91, R92) -/

theorem Width.ofCode_code (w : Width) : Width.ofCode w.code = w := by cases w <;> rfl

theorem Width.code_ofCode (c : BitVec 2) : (Width.ofCode c).code = c := by revert c; decide

theorem decode_direct {v : Word} {dir : Dir} {w : Width} (h : HasFields v 0 w.code true dir) :
    decode v = .ok (directInstr dir w) := by
  simp [decode, h.rsvd, h.bitCount, h.wcode, h.sel, h.dir, Width.ofCode_code]

theorem decode_dispatched {v : Word} {dir : Dir} {c : BitVec 8} (h : HasFields v c 0 false dir) :
    decode v = .ok (dispatchedInstr dir c.toNat) := by
  simp [decode, h.rsvd, h.bitCount, h.wcode, h.sel, h.dir]

/-- The two forms of a legal word, and nothing else, are decoded (R82, R92). -/
theorem decode_ok {v : Word} {i : Instr} (h : decode v = .ok i) :
    (∃ dir w, i = directInstr dir w ∧ HasFields v 0 w.code true dir) ∨
    (∃ dir c, i = dispatchedInstr dir c.toNat ∧ HasFields v c 0 false dir) := by
  unfold decode at h
  split at h
  case isTrue => cases h
  case isFalse hrsvd =>
    have hrsvd := not_not.1 hrsvd
    split at h
    case isTrue hsel =>
      split at h
      case isTrue => cases h
      case isFalse hcount =>
        cases h
        exact .inl ⟨_, _, rfl, hrsvd, not_not.1 hcount, (Width.code_ofCode _).symm, hsel, rfl⟩
    case isFalse hsel =>
      split at h
      case isTrue => cases h
      case isFalse hwcode =>
        cases h
        exact .inr ⟨_, _, rfl, hrsvd, rfl, not_not.1 hwcode, Bool.not_eq_true _ ▸ hsel, rfl⟩

theorem decode_error_iff (v : Word) : (∃ e, decode v = .error e) ↔
    rsvdField v ≠ 0 ∨ (selField v = true ∧ bitCountField v ≠ 0) ∨ (selField v = false ∧ wcodeField v ≠ 0) := by
  by_cases hrsvd : rsvdField v = 0#20
  · cases hsel : selField v
    · by_cases hwcode : wcodeField v = 0#2 <;> simp [decode, hrsvd, hsel, hwcode]
    · by_cases hcount : bitCountField v = 0#8 <;> simp [decode, hrsvd, hsel, hcount]
  · simp [decode, hrsvd]

/-! ### The word of a command (R90) -/

theorem encode_directInstr (dir : Dir) (w : Width) : encode (directInstr dir w) = layoutWord 0 w.code 1 dir.code := by
  cases dir <;> cases w <;> rfl

theorem encode_dispatchedInstr (dir : Dir) (b : Nat) :
    encode (dispatchedInstr dir b) = layoutWord (BitVec.ofNat 8 b) 0 0 dir.code := by
  cases dir <;> rfl

theorem hasFields_encode_directInstr (dir : Dir) (w : Width) : HasFields (encode (directInstr dir w)) 0 w.code true dir :=
  hasFields_iff.2 (encode_directInstr dir w)

theorem hasFields_encode_dispatchedInstr (dir : Dir) (b : Nat) :
    HasFields (encode (dispatchedInstr dir b)) (BitVec.ofNat 8 b) 0 false dir :=
  hasFields_iff.2 (encode_dispatchedInstr dir b)

theorem wf_directInstr (dir : Dir) (w : Width) : (directInstr dir w).wf = true := by cases dir <;> cases w <;> rfl

theorem wf_dispatchedInstr {dir : Dir} {b : Nat} : (dispatchedInstr dir b).wf = true ↔ b < 2 ^ 8 := by
  cases dir <;> exact decide_eq_true_iff

/-- Every command is of one of the two forms (R82). -/
theorem Instr.direct_or_dispatched (i : Instr) : (∃ dir w, i = directInstr dir w) ∨ ∃ dir b, i = dispatchedInstr dir b := by
  cases i with
  | pack b => exact .inr ⟨.pack, b, rfl⟩
  | unpack b => exact .inr ⟨.unpack, b, rfl⟩
  | pack4 => exact .inl ⟨.pack, .w4, rfl⟩
  | pack6 => exact .inl ⟨.pack, .w6, rfl⟩
  | pack8 => exact .inl ⟨.pack, .w8, rfl⟩
  | pack12 => exact .inl ⟨.pack, .w12, rfl⟩
  | unpack4 => exact .inl ⟨.unpack, .w4, rfl⟩
  | unpack6 => exact .inl ⟨.unpack, .w6, rfl⟩
  | unpack8 => exact .inl ⟨.unpack, .w8, rfl⟩
  | unpack12 => exact .inl ⟨.unpack, .w12, rfl⟩

/-- Settles O1: the word of either form has that form's fields, from which the decoder reads the command. -/
theorem decodeOfEncode : Obligations.DecodeOfEncode := by
  intro i hwf
  rcases i.direct_or_dispatched with ⟨dir, w, rfl⟩ | ⟨dir, b, rfl⟩
  · exact decode_direct (hasFields_encode_directInstr dir w)
  · rw [decode_dispatched (hasFields_encode_dispatchedInstr dir b), BitVec.toNat_ofNat,
      Nat.mod_eq_of_lt (wf_dispatchedInstr.1 hwf)]

/-- Settles O2: a word the decoder accepts is its fields laid out, and so is the word of the command. -/
theorem encodeOfDecode : Obligations.EncodeOfDecode := by
  intro v i h
  rcases decode_ok h with ⟨dir, w, rfl, hfields⟩ | ⟨dir, c, rfl, hfields⟩
  · exact ⟨wf_directInstr dir w, (encode_directInstr dir w).trans (hasFields_iff.1 hfields).symm⟩
  · refine ⟨wf_dispatchedInstr.2 c.isLt, ?_⟩
    rw [encode_dispatchedInstr, BitVec.ofNat_toNat, BitVec.setWidth_eq]
    exact (hasFields_iff.1 hfields).symm

theorem decode_eq_ok_iff {v : Word} {i : Instr} : decode v = .ok i ↔ i.wf = true ∧ v = encode i := by
  refine ⟨fun h => ?_, ?_⟩
  · obtain ⟨hwf, henc⟩ := encodeOfDecode v i h
    exact ⟨hwf, henc.symm⟩
  · rintro ⟨hwf, rfl⟩
    exact decodeOfEncode i hwf

/-! ### The rows of the opcode map (R90) -/

theorem rowMask_directInstr (dir : Dir) (w : Width) : rowMask (directInstr dir w) = BitVec.allOnes 32 := by
  cases dir <;> cases w <;> rfl

theorem rowMatch_directInstr (dir : Dir) (w : Width) : rowMatch (directInstr dir w) = encode (directInstr dir w) := by
  cases dir <;> cases w <;> decide

/-- The mask of a dispatched row keeps RSVD, WCODE, SEL and DIR, which its match fixes (R90). -/
theorem hasFields_of_masked {v : Word} {dir : Dir}
    (h : v &&& rowMask (dispatchedInstr dir 0) = rowMatch (dispatchedInstr dir 0)) :
    HasFields v (bitCountField v) 0 false dir := by
  have hmask : rowMask (dispatchedInstr dir 0) = 0xFFFFF00F#32 := by cases dir <;> rfl
  rw [hmask] at h
  have hrsvd : rsvdField (v &&& 0xFFFFF00F#32) = rsvdField v := by
    rw [rsvdField, BitVec.extractLsb'_and]; exact BitVec.and_allOnes
  have hwcode : wcodeField (v &&& 0xFFFFF00F#32) = wcodeField v := by
    rw [wcodeField, BitVec.extractLsb'_and]; exact BitVec.and_allOnes
  have hsel : selField (v &&& 0xFFFFF00F#32) = selField v := by simp [selField]
  have hdir : dirField (v &&& 0xFFFFF00F#32) = dirField v := by simp [dirField]
  rw [h] at hrsvd hwcode hsel hdir
  refine ⟨hrsvd.symm.trans ?_, rfl, hwcode.symm.trans ?_, hsel.symm.trans ?_, hdir.symm.trans ?_⟩ <;> cases dir <;> rfl

theorem encode_dispatchedInstr_masked (dir : Dir) {b : Nat} (hb : (dispatchedInstr dir b).wf = true) :
    encode (dispatchedInstr dir b) &&& rowMask (dispatchedInstr dir 0) = rowMatch (dispatchedInstr dir 0) := by
  cases dir with
  | pack => exact Laws.Row.pack b hb
  | unpack => exact Laws.Row.unpack b hb

/-- Settles O3: a direct row's mask keeps the whole word; a dispatched row's mask drops BITCOUNT alone. -/
theorem wordSpellsItsRow : Obligations.WordSpellsItsRow := by
  refine ⟨fun dir w v => ?_, fun dir v => ⟨?_, fun h => ?_⟩, fun dir v b h => ?_⟩
  · rw [decode_eq_ok_iff, rowMask_directInstr, rowMatch_directInstr, BitVec.and_allOnes, and_iff_right (wf_directInstr dir w)]
  · rintro ⟨b, h⟩
    obtain ⟨hwf, rfl⟩ := decode_eq_ok_iff.1 h
    exact encode_dispatchedInstr_masked dir hwf
  · exact ⟨_, decode_dispatched (hasFields_of_masked h)⟩
  · obtain ⟨hwf, rfl⟩ := decode_eq_ok_iff.1 h
    rw [← bitCountField_toNat, (hasFields_encode_dispatchedInstr dir b).bitCount, BitVec.toNat_ofNat,
      Nat.mod_eq_of_lt (wf_dispatchedInstr.1 hwf)]

/-- Settles O4: the decoder's three tests, each field read as a number. -/
theorem illegalWords : Obligations.IllegalWords := by
  intro v
  rw [decode_error_iff, ne_eq, rsvdField_eq_zero_iff, ← Bool.toNat_eq_one, ← Bool.toNat_eq_zero, selField_toNat,
    ← bitCountField_toNat, ← wcodeField_toNat, ne_eq, ne_eq, BitVec.toNat_eq, BitVec.toNat_eq]
  rfl

/-- Settles O5: the decoder evaluated on each word. -/
theorem opcodeMapWords : Obligations.OpcodeMapWords := ⟨rfl, rfl, rfl, rfl, rfl, rfl, rfl⟩

end Sys2Proof

namespace Sys2Proof.Machine

/-! ### Shifts and masks as arithmetic -/

theorem or_shiftLeft_eq_add {a i : Nat} (b : Nat) (h : a < 2 ^ i) : a ||| b <<< i = a + 2 ^ i * b := by
  rw [Nat.or_comm, ← Nat.shiftLeft_add_eq_or_of_lt h, Nat.shiftLeft_eq, Nat.mul_comm, Nat.add_comm]

theorem and_3_eq_mod (a : Nat) : a &&& 0b11 = a % 2 ^ 2 := Nat.and_two_pow_sub_one_eq_mod a 2
theorem and_15_eq_mod (a : Nat) : a &&& 0b1111 = a % 2 ^ 4 := Nat.and_two_pow_sub_one_eq_mod a 4
theorem and_63_eq_mod (a : Nat) : a &&& 0x3F = a % 2 ^ 6 := Nat.and_two_pow_sub_one_eq_mod a 6
theorem and_255_eq_mod (a : Nat) : a &&& 0xFF = a % 2 ^ 8 := Nat.and_two_pow_sub_one_eq_mod a 8

/-! ### The bytes of each format -/

theorem pack4Bytes_getD (pad : BitVec 4) : ∀ (syms : List Nat) (k : Nat), 2 * k < syms.length →
    (pack4Bytes pad syms).getD k 0 = byte (syms.getD (2 * k) 0 ||| syms.getD (2 * k + 1) pad.toNat <<< 4)
  | [_], 0, _ => rfl
  | _ :: _ :: _, 0, _ => rfl
  | a :: b :: rest, k + 1, h => by
    simpa [pack4Bytes, Nat.mul_succ] using pack4Bytes_getD pad rest k (by simpa [Nat.mul_succ] using h)

/-- The bytes of group `g` as if every tail were filled up with symbols 0, which is its zero padding (R75). -/
theorem pack6Bytes_getD : ∀ (syms : List Nat) (g : Nat),
    (pack6Bytes syms).getD (3 * g) 0 = byte (syms.getD (4 * g) 0 ||| (syms.getD (4 * g + 1) 0 &&& 0b11) <<< 6) ∧
    (pack6Bytes syms).getD (3 * g + 1) 0 =
      byte (syms.getD (4 * g + 1) 0 >>> 2 &&& 0b1111 ||| (syms.getD (4 * g + 2) 0 &&& 0b1111) <<< 4) ∧
    (pack6Bytes syms).getD (3 * g + 2) 0 =
      byte (syms.getD (4 * g + 2) 0 >>> 4 &&& 0b11 ||| syms.getD (4 * g + 3) 0 <<< 2)
  | [], g => by simp [pack6Bytes, byte]
  | [a], 0 => by simp [pack6Bytes, byte]
  | [a, b], 0 => by simp [pack6Bytes, byte]
  | [a, b, c], 0 => by simp [pack6Bytes]
  | [a], g + 1 => by simp [pack6Bytes, byte, Nat.mul_succ]
  | [a, b], g + 1 => by simp [pack6Bytes, byte, Nat.mul_succ]
  | [a, b, c], g + 1 => by simp [pack6Bytes, byte, Nat.mul_succ]
  | _ :: _ :: _ :: _ :: _, 0 => ⟨rfl, rfl, rfl⟩
  | a :: b :: c :: d :: rest, g + 1 => by simpa [pack6Bytes, Nat.mul_succ] using pack6Bytes_getD rest g

theorem pack8Bytes_getD (syms : List Nat) (i : Nat) : (pack8Bytes syms).getD i 0 = byte (syms.getD i 0) :=
  List.getD_map syms 0 byte

theorem pack12Bytes_getD (pad : BitVec 4) : ∀ (syms : List Nat) (g : Nat), 2 * g < syms.length →
    (pack12Bytes pad syms).getD (3 * g) 0 = byte (syms.getD (2 * g) 0 &&& 0xFF) ∧
    (pack12Bytes pad syms).getD (3 * g + 1) 0 =
      byte (syms.getD (2 * g) 0 >>> 8 &&& 0x0F ||| (syms.getD (2 * g + 1) pad.toNat &&& 0x0F) <<< 4) ∧
    (pack12Bytes pad syms).getD (3 * g + 2) 0 = byte (syms.getD (2 * g + 1) pad.toNat >>> 4 &&& 0xFF)
  | [a], 0, _ => by
    have hlow : pad.toNat &&& 0x0F = pad.toNat := (and_15_eq_mod _).trans (Nat.mod_eq_of_lt pad.isLt)
    have hhigh : pad.toNat >>> 4 = 0 := Nat.shiftRight_eq_zero _ _ pad.isLt
    simp [pack12Bytes, hlow, hhigh, byte]
  | _ :: _ :: _, 0, _ => ⟨rfl, rfl, rfl⟩
  | a :: b :: rest, g + 1, h => by
    simpa [pack12Bytes, Nat.mul_succ] using pack12Bytes_getD pad rest g (by simpa [Nat.mul_succ] using h)

/-! ### The bytes of symbols in range, as numbers -/

theorem getD_lt_of_forall {syms : List Nat} {m d : Nat} (h : ∀ v ∈ syms, v < m) (hd : d < m) (i : Nat) : syms.getD i d < m := by
  rcases Nat.lt_or_ge i syms.length with hi | hi
  · rw [List.getD_eq_getElem _ _ hi]
    exact h _ (List.getElem_mem hi)
  · rwa [List.getD_eq_default _ _ hi]

section Values

variable {pad : BitVec 4} {syms : List Nat}

/-- Two symbols a byte; the padding nibble stands in for a missing one (R72, R73). -/
theorem byteAt_pack4Bytes (h : ∀ v ∈ syms, v < 2 ^ 4) {k : Nat} (hk : 2 * k < syms.length) :
    byteAt (pack4Bytes pad syms) k = syms.getD (2 * k) 0 + 2 ^ 4 * syms.getD (2 * k + 1) pad.toNat := by
  have ha := getD_lt_of_forall h (by decide : 0 < 2 ^ 4) (2 * k)
  have hb := getD_lt_of_forall h pad.isLt (2 * k + 1)
  rw [byteAt, pack4Bytes_getD pad syms k hk, byte_toNat, or_shiftLeft_eq_add _ ha]
  omega

/-- Four symbols in three bytes; a symbol 0 stands in for a missing one (R74, R75). -/
theorem byteAt_pack6Bytes (h : ∀ v ∈ syms, v < 2 ^ 6) (g : Nat) :
    byteAt (pack6Bytes syms) (3 * g) = syms.getD (4 * g) 0 + 2 ^ 6 * (syms.getD (4 * g + 1) 0 % 2 ^ 2) ∧
    byteAt (pack6Bytes syms) (3 * g + 1) = syms.getD (4 * g + 1) 0 / 2 ^ 2 + 2 ^ 4 * (syms.getD (4 * g + 2) 0 % 2 ^ 4) ∧
    byteAt (pack6Bytes syms) (3 * g + 2) = syms.getD (4 * g + 2) 0 / 2 ^ 4 + 2 ^ 2 * syms.getD (4 * g + 3) 0 := by
  have hlt := getD_lt_of_forall h (by decide : 0 < 2 ^ 6)
  obtain ⟨h0, h1, h2⟩ := pack6Bytes_getD syms g
  simp only [byteAt, h0, h1, h2, byte_toNat, and_3_eq_mod, and_15_eq_mod, Nat.shiftRight_eq_div_pow]
  have ha := hlt (4 * g)
  have hb := hlt (4 * g + 1)
  have hc := hlt (4 * g + 2)
  have hd := hlt (4 * g + 3)
  refine ⟨?_, ?_, ?_⟩
  · rw [or_shiftLeft_eq_add _ ha]; omega
  · rw [or_shiftLeft_eq_add _ (Nat.mod_lt _ (by decide))]; omega
  · rw [or_shiftLeft_eq_add (i := 2) _ (Nat.mod_lt _ (by decide))]; omega

theorem byteAt_pack8Bytes (h : ∀ v ∈ syms, v < 2 ^ 8) (i : Nat) : byteAt (pack8Bytes syms) i = syms.getD i 0 := by
  rw [byteAt, pack8Bytes_getD, byte_toNat]
  exact Nat.mod_eq_of_lt (getD_lt_of_forall h (by decide) i)

/-- Two symbols in three bytes; the padding nibble stands in for the low bits of a missing one (R76, R77). -/
theorem byteAt_pack12Bytes (h : ∀ v ∈ syms, v < 2 ^ 12) {g : Nat} (hg : 2 * g < syms.length) :
    byteAt (pack12Bytes pad syms) (3 * g) = syms.getD (2 * g) 0 % 2 ^ 8 ∧
    byteAt (pack12Bytes pad syms) (3 * g + 1) =
      syms.getD (2 * g) 0 / 2 ^ 8 + 2 ^ 4 * (syms.getD (2 * g + 1) pad.toNat % 2 ^ 4) ∧
    byteAt (pack12Bytes pad syms) (3 * g + 2) = syms.getD (2 * g + 1) pad.toNat / 2 ^ 4 := by
  obtain ⟨h0, h1, h2⟩ := pack12Bytes_getD pad syms g hg
  simp only [byteAt, h0, h1, h2, byte_toNat, and_15_eq_mod, and_255_eq_mod, Nat.shiftRight_eq_div_pow]
  have ha := getD_lt_of_forall h (by decide : 0 < 2 ^ 12) (2 * g)
  have hb := getD_lt_of_forall h (pad.isLt.trans (by decide)) (2 * g + 1)
  rw [or_shiftLeft_eq_add _ (Nat.mod_lt _ (by decide))]
  refine ⟨?_, ?_, ?_⟩ <;> omega

end Values

/-! ### The symbols of each format, as numbers -/

section Symbols

variable (bs : List Byte) (g : Nat)

theorem byteAt_lt (j : Nat) : byteAt bs j < 2 ^ 8 := BitVec.isLt _

theorem unpack4At_even : unpack4At bs (2 * g) = byteAt bs g % 2 ^ 4 := by
  have hg : 2 * g / 2 = g := by omega
  rw [unpack4At, if_pos (by omega), hg, and_15_eq_mod]

theorem unpack4At_odd : unpack4At bs (2 * g + 1) = byteAt bs g / 2 ^ 4 := by
  have hg : (2 * g + 1) / 2 = g := by omega
  have hlt := byteAt_lt bs g
  rw [unpack4At, if_neg (by omega), hg, and_15_eq_mod, Nat.shiftRight_eq_div_pow]
  omega

theorem unpack6At_zero : unpack6At bs (4 * g) = byteAt bs (3 * g) % 2 ^ 6 := by
  have hg : 4 * g / 4 = g := by omega
  have hm : 4 * g % 4 = 0 := by omega
  simp only [unpack6At, hg, hm, and_63_eq_mod]

theorem unpack6At_one :
    unpack6At bs (4 * g + 1) = byteAt bs (3 * g) / 2 ^ 6 + 2 ^ 2 * (byteAt bs (3 * g + 1) % 2 ^ 4) := by
  have hg : (4 * g + 1) / 4 = g := by omega
  have hm : (4 * g + 1) % 4 = 1 := by omega
  have hlt := byteAt_lt bs (3 * g)
  simp only [unpack6At, hg, hm, and_3_eq_mod, and_15_eq_mod, Nat.shiftRight_eq_div_pow]
  rw [or_shiftLeft_eq_add _ (Nat.mod_lt _ (by decide))]
  omega

theorem unpack6At_two :
    unpack6At bs (4 * g + 2) = byteAt bs (3 * g + 1) / 2 ^ 4 + 2 ^ 4 * (byteAt bs (3 * g + 2) % 2 ^ 2) := by
  have hg : (4 * g + 2) / 4 = g := by omega
  have hm : (4 * g + 2) % 4 = 2 := by omega
  have hlt := byteAt_lt bs (3 * g + 1)
  simp only [unpack6At, hg, hm, and_3_eq_mod, and_15_eq_mod, Nat.shiftRight_eq_div_pow]
  rw [or_shiftLeft_eq_add _ (Nat.mod_lt _ (by decide))]
  omega

theorem unpack6At_three : unpack6At bs (4 * g + 3) = byteAt bs (3 * g + 2) / 2 ^ 2 := by
  have hg : (4 * g + 3) / 4 = g := by omega
  have hm : (4 * g + 3) % 4 = 3 := by omega
  have hlt := byteAt_lt bs (3 * g + 2)
  simp only [unpack6At, hg, hm, and_63_eq_mod, Nat.shiftRight_eq_div_pow]
  omega

theorem unpack12At_even :
    unpack12At bs (2 * g) = byteAt bs (3 * g) + 2 ^ 8 * (byteAt bs (3 * g + 1) % 2 ^ 4) := by
  have hg : 2 * g / 2 = g := by omega
  rw [unpack12At, if_pos (by omega), hg, and_15_eq_mod, or_shiftLeft_eq_add _ (byteAt_lt bs _)]

theorem unpack12At_odd :
    unpack12At bs (2 * g + 1) = byteAt bs (3 * g + 1) / 2 ^ 4 + 2 ^ 4 * byteAt bs (3 * g + 2) := by
  have hg : (2 * g + 1) / 2 = g := by omega
  have hlt := byteAt_lt bs (3 * g + 1)
  rw [unpack12At, if_neg (by omega), hg, and_15_eq_mod, Nat.shiftRight_eq_div_pow,
    or_shiftLeft_eq_add _ (Nat.mod_lt _ (by decide))]
  omega

end Symbols

/-! ### Unpacking inverts packing (R79) -/

section Inverse

variable {pad : BitVec 4} {syms : List Nat}

theorem getD_eq_getD {i : Nat} (hi : i < syms.length) (d e : Nat) : syms.getD i d = syms.getD i e := by
  rw [List.getD_eq_getElem _ _ hi, List.getD_eq_getElem _ _ hi]

theorem unpack4At_pack4Bytes (h : ∀ v ∈ syms, v < 2 ^ 4) (i : Nat) (hi : i < syms.length) :
    unpack4At (pack4Bytes pad syms) i = syms.getD i 0 := by
  have hlt := getD_lt_of_forall h (by decide : 0 < 2 ^ 4) i
  obtain ⟨g, rfl | rfl⟩ := i.even_or_odd'
  · rw [unpack4At_even, byteAt_pack4Bytes h hi]
    omega
  · have hlow := getD_lt_of_forall h (by decide : 0 < 2 ^ 4) (2 * g)
    rw [unpack4At_odd, byteAt_pack4Bytes h (by omega), getD_eq_getD hi pad.toNat 0]
    omega

theorem unpack6At_pack6Bytes (h : ∀ v ∈ syms, v < 2 ^ 6) (i : Nat) : unpack6At (pack6Bytes syms) i = syms.getD i 0 := by
  have hlt := getD_lt_of_forall h (by decide : 0 < 2 ^ 6)
  obtain ⟨g, hi⟩ : ∃ g, i = 4 * g ∨ i = 4 * g + 1 ∨ i = 4 * g + 2 ∨ i = 4 * g + 3 := ⟨i / 4, by omega⟩
  obtain ⟨h0, h1, h2⟩ := byteAt_pack6Bytes h g
  have ha := hlt (4 * g)
  have hb := hlt (4 * g + 1)
  have hc := hlt (4 * g + 2)
  rcases hi with rfl | rfl | rfl | rfl
  · rw [unpack6At_zero]; omega
  · rw [unpack6At_one]; omega
  · rw [unpack6At_two]; omega
  · rw [unpack6At_three]; omega

theorem unpack12At_pack12Bytes (h : ∀ v ∈ syms, v < 2 ^ 12) (i : Nat) (hi : i < syms.length) :
    unpack12At (pack12Bytes pad syms) i = syms.getD i 0 := by
  have hlt := getD_lt_of_forall h (by decide : 0 < 2 ^ 12)
  obtain ⟨g, rfl | rfl⟩ := i.even_or_odd'
  · obtain ⟨h0, h1, h2⟩ := byteAt_pack12Bytes (pad := pad) h hi
    have ha := hlt (2 * g)
    rw [unpack12At_even]
    omega
  · obtain ⟨h0, h1, h2⟩ := byteAt_pack12Bytes (pad := pad) h (g := g) (by omega)
    have ha := hlt (2 * g)
    rw [getD_eq_getD hi pad.toNat 0] at h1 h2
    rw [unpack12At_odd]
    omega

end Inverse

theorem unpackAt_packBytes {w : Width} {syms : List Nat} (pad : BitVec 4) (h : ∀ v ∈ syms, v < 2 ^ w.bits) {i : Nat}
    (hi : i < syms.length) : unpackAt w (packBytes w pad syms) i = syms.getD i 0 := by
  cases w with
  | w4 => exact unpack4At_pack4Bytes h i hi
  | w6 => exact unpack6At_pack6Bytes h i
  | w8 => exact byteAt_pack8Bytes h i
  | w12 => exact unpack12At_pack12Bytes h i hi

/-- Settles O20: at each index the symbol unpacked is the one packed. -/
theorem unpackInvertsPack : Obligations.UnpackInvertsPack := by
  intro w pad syms h
  refine List.ext_getElem (unpackSymbols_length _ _ _) fun i hi hi' => ?_
  rw [← List.getD_eq_getElem syms 0 hi', ← unpackAt_packBytes pad h hi']
  simp [unpackSymbols]

/-! ### The stream rule (R70) -/

/-- The bits of a number laid over the bits from `i` up of another. -/
theorem testBit_add_two_pow_mul {a i : Nat} (b : Nat) (h : a < 2 ^ i) (k : Nat) :
    (a + 2 ^ i * b).testBit k = if k < i then a.testBit k else b.testBit (k - i) := by
  rw [Nat.add_comm, Nat.testBit_two_pow_mul_add _ h]

theorem testBit_mod_two_pow_of_lt (x : Nat) {m k : Nat} (h : k < m) : (x % 2 ^ m).testBit k = x.testBit k := by
  rw [Nat.testBit_mod_two_pow, decide_eq_true h, Bool.true_and]

theorem getLsbD_stream (bs : List Byte) {p j t : Nat} (hp : p = 8 * j + t) (ht : t < 8) :
    (bs.getD (p / 8) 0).getLsbD (p % 8) = (byteAt bs j).testBit t := by
  have hj : p / 8 = j := by omega
  have ht : p % 8 = t := by omega
  rw [hj, ht, byteAt, BitVec.testBit_toNat]

section Stream

variable (bs : List Byte) {k : Nat}

theorem unpack4At_testBit (i : Nat) (hk : k < 4) :
    (unpack4At bs i).testBit k = (bs.getD ((4 * i + k) / 8) 0).getLsbD ((4 * i + k) % 8) := by
  obtain ⟨g, rfl | rfl⟩ := i.even_or_odd'
  · rw [unpack4At_even, getLsbD_stream bs (j := g) (t := k) (by omega) (by omega), testBit_mod_two_pow_of_lt _ hk]
  · rw [unpack4At_odd, getLsbD_stream bs (j := g) (t := k + 4) (by omega) (by omega), Nat.testBit_div_two_pow]

theorem unpack6At_testBit (i : Nat) (hk : k < 6) :
    (unpack6At bs i).testBit k = (bs.getD ((6 * i + k) / 8) 0).getLsbD ((6 * i + k) % 8) := by
  obtain ⟨g, hi⟩ : ∃ g, i = 4 * g ∨ i = 4 * g + 1 ∨ i = 4 * g + 2 ∨ i = 4 * g + 3 := ⟨i / 4, by omega⟩
  have h0 := byteAt_lt bs (3 * g)
  have h1 := byteAt_lt bs (3 * g + 1)
  rcases hi with rfl | rfl | rfl | rfl
  · rw [unpack6At_zero, getLsbD_stream bs (j := 3 * g) (t := k) (by omega) (by omega), testBit_mod_two_pow_of_lt _ hk]
  · rw [unpack6At_one, testBit_add_two_pow_mul _ (by omega)]
    split
    · rw [getLsbD_stream bs (j := 3 * g) (t := k + 6) (by omega) (by omega), Nat.testBit_div_two_pow]
    · rw [getLsbD_stream bs (j := 3 * g + 1) (t := k - 2) (by omega) (by omega), testBit_mod_two_pow_of_lt _ (by omega)]
  · rw [unpack6At_two, testBit_add_two_pow_mul _ (by omega)]
    split
    · rw [getLsbD_stream bs (j := 3 * g + 1) (t := k + 4) (by omega) (by omega), Nat.testBit_div_two_pow]
    · rw [getLsbD_stream bs (j := 3 * g + 2) (t := k - 4) (by omega) (by omega), testBit_mod_two_pow_of_lt _ (by omega)]
  · rw [unpack6At_three, getLsbD_stream bs (j := 3 * g + 2) (t := k + 2) (by omega) (by omega), Nat.testBit_div_two_pow]

theorem unpack12At_testBit (i : Nat) (hk : k < 12) :
    (unpack12At bs i).testBit k = (bs.getD ((12 * i + k) / 8) 0).getLsbD ((12 * i + k) % 8) := by
  obtain ⟨g, rfl | rfl⟩ := i.even_or_odd'
  · rw [unpack12At_even, testBit_add_two_pow_mul _ (byteAt_lt bs _)]
    split
    · rw [getLsbD_stream bs (j := 3 * g) (t := k) (by omega) (by omega)]
    · rw [getLsbD_stream bs (j := 3 * g + 1) (t := k - 8) (by omega) (by omega), testBit_mod_two_pow_of_lt _ (by omega)]
  · have h1 := byteAt_lt bs (3 * g + 1)
    rw [unpack12At_odd, testBit_add_two_pow_mul _ (by omega)]
    split
    · rw [getLsbD_stream bs (j := 3 * g + 1) (t := k + 4) (by omega) (by omega), Nat.testBit_div_two_pow]
    · rw [getLsbD_stream bs (j := 3 * g + 2) (t := k - 4) (by omega) (by omega)]

/-- Bit `k` of symbol `i` is bit `w*i + k` of the packed stream, for every width and any bytes. -/
theorem unpackAt_testBit (w : Width) (i : Nat) (hk : k < w.bits) :
    (unpackAt w bs i).testBit k = (bs.getD ((w.bits * i + k) / 8) 0).getLsbD ((w.bits * i + k) % 8) := by
  cases w with
  | w4 => exact unpack4At_testBit bs i hk
  | w6 => exact unpack6At_testBit bs i hk
  | w8 => exact (getLsbD_stream bs rfl hk).symm
  | w12 => exact unpack12At_testBit bs i hk

end Stream

/-! ### The source of a pack command -/

theorem sourceSymbols_getD {s : State} {i : Nat} (hi : i < countOf s) (d : Nat) : (sourceSymbols s).getD i d = symbolAt s i := by
  simp [sourceSymbols, hi]

theorem sourceSymbols_lt {s : State} {m : Nat} (h : ∀ i < countOf s, symbolAt s i < m) : ∀ v ∈ sourceSymbols s, v < m := by
  simpa [sourceSymbols] using h

theorem sourceSymbols_getD_past {s : State} {i : Nat} (hi : countOf s ≤ i) (d : Nat) : (sourceSymbols s).getD i d = d :=
  List.getD_eq_default _ _ (by simpa using hi)

theorem commandJob_of_width {c : Instr} {dir : Dir} {w : Width} (h : c = dispatchedInstr dir w.bits ∨ c = directInstr dir w) :
    commandJob c = some (dir, w) := by
  rcases h with rfl | rfl <;> cases dir <;> cases w <;> rfl

/-- A pack command of either form: its completion, and the bytes it leaves in the packed range. -/
theorem exec_pack_spec {c : Instr} {w : Width} {s : State} (hj : commandJob c = some (.pack, w)) (hrun : CommandRuns .pack w s)
    (hsyms : ∀ i < countOf s, symbolAt s i < 2 ^ w.bits) :
    ∃ t, exec c s = .next t ∧ CompletedOk .pack w s t ∧
      ∀ j < packedSize w (countOf s), packedAt t j = (packBytes w (Config.draw4 s.draws) (sourceSymbols s)).getD j 0 := by
  rw [exec_of_job hj]
  exact packCommand_spec hrun hsyms

/-! ### The layouts in memory (R71 to R77) -/

/-- Settles O10: past the last symbol the padding nibble stands in the upper half of its byte. -/
theorem pack4Layout : Obligations.Pack4Layout := by
  intro s hrun hsyms
  obtain ⟨t, hexec, hdone, hbytes⟩ := exec_pack_spec (c := .pack4) rfl hrun hsyms
  have hvalue : ∀ k, 2 * k < countOf s → (packedAt t k).toNat =
      symbolAt s (2 * k) + 2 ^ 4 * (sourceSymbols s).getD (2 * k + 1) (Config.draw4 s.draws).toNat := by
    intro k hk
    rw [hbytes k (by rw [packedSize_w4]; omega), ← sourceSymbols_getD hk 0]
    exact byteAt_pack4Bytes (sourceSymbols_lt hsyms) (by simpa using hk)
  refine ⟨t, hexec, hdone, fun k hk => ?_, fun hodd => ?_⟩
  · rw [hvalue k (by omega), sourceSymbols_getD hk]
  · have hlast : 2 * (countOf s / 2) = countOf s - 1 := by omega
    have hlt : symbolAt s (countOf s - 1) < 2 ^ 4 := hsyms _ (by omega)
    rw [hvalue _ (by omega), hlast, Nat.add_mul_mod_self_left, Nat.mod_eq_of_lt hlt]

/-- Settles O11: in a tail the missing symbols read as 0. -/
theorem pack6Layout : Obligations.Pack6Layout := by
  intro s hrun hsyms
  obtain ⟨t, hexec, hdone, hbytes⟩ := exec_pack_spec (c := .pack6) rfl hrun hsyms
  rw [packedSize_w6] at hbytes
  have hvalue := byteAt_pack6Bytes (sourceSymbols_lt hsyms)
  have hbyte : ∀ j < 3 * (countOf s / 4) + countOf s % 4, (packedAt t j).toNat = byteAt (pack6Bytes (sourceSymbols s)) j :=
    fun j hj => congrArg BitVec.toNat (hbytes j hj)
  refine ⟨t, hexec, hdone, fun g hg => ?_, fun g hg => ?_, fun g hg => ?_, fun g hg => ?_⟩ <;>
    obtain ⟨h0, h1, h2⟩ := hvalue g
  · rw [sourceSymbols_getD (by omega), sourceSymbols_getD (by omega)] at h0 h1 h2
    exact ⟨(hbyte _ (by omega)).trans h0, (hbyte _ (by omega)).trans h1, (hbyte _ (by omega)).trans h2⟩
  · rw [sourceSymbols_getD (by omega), sourceSymbols_getD_past (by omega)] at h0
    exact (hbyte _ (by omega)).trans h0
  · rw [sourceSymbols_getD (by omega), sourceSymbols_getD (by omega)] at h0
    rw [sourceSymbols_getD (by omega), sourceSymbols_getD_past (by omega)] at h1
    exact ⟨(hbyte _ (by omega)).trans h0, (hbyte _ (by omega)).trans h1⟩
  · rw [sourceSymbols_getD (by omega), sourceSymbols_getD (by omega)] at h0 h1
    rw [sourceSymbols_getD (by omega), sourceSymbols_getD_past (by omega)] at h2
    exact ⟨(hbyte _ (by omega)).trans h0, (hbyte _ (by omega)).trans h1, (hbyte _ (by omega)).trans h2⟩

/-- Settles O12: the bytes are the symbols themselves. -/
theorem pack8Layout : Obligations.Pack8Layout := by
  intro s hrun hsyms
  obtain ⟨t, hexec, hdone, hbytes⟩ := exec_pack_spec (c := .pack8) rfl hrun hsyms
  refine ⟨t, hexec, hdone, fun i hi => ?_⟩
  rw [hbytes i (by rwa [packedSize_w8]), ← sourceSymbols_getD hi 0]
  exact byteAt_pack8Bytes (sourceSymbols_lt hsyms) i

/-- Settles O13: past the last symbol the padding nibble stands in the upper half of its second byte. -/
theorem pack12Layout : Obligations.Pack12Layout := by
  intro s hrun hsyms
  obtain ⟨t, hexec, hdone, hbytes⟩ := exec_pack_spec (c := .pack12) rfl hrun hsyms
  rw [packedSize_w12] at hbytes
  have hlen := sourceSymbols_length s
  have hvalue := fun g => byteAt_pack12Bytes (pad := Config.draw4 s.draws) (sourceSymbols_lt hsyms) (g := g)
  have hbyte : ∀ j < 3 * (countOf s / 2) + 2 * (countOf s % 2),
      (packedAt t j).toNat = byteAt (pack12Bytes (Config.draw4 s.draws) (sourceSymbols s)) j :=
    fun j hj => congrArg BitVec.toNat (hbytes j hj)
  refine ⟨t, hexec, hdone, fun g hg => ?_, fun hodd => ?_⟩
  · obtain ⟨h0, h1, h2⟩ := hvalue g (by omega)
    rw [sourceSymbols_getD (by omega)] at h0 h2
    rw [sourceSymbols_getD (by omega), sourceSymbols_getD (by omega)] at h1
    exact ⟨(hbyte _ (by omega)).trans h0, (hbyte _ (by omega)).trans h1, (hbyte _ (by omega)).trans h2⟩
  · have hlast : 2 * (countOf s / 2) = countOf s - 1 := by omega
    have hlt : symbolAt s (countOf s - 1) < 2 ^ 12 := hsyms _ (by omega)
    obtain ⟨h0, h1, _⟩ := hvalue (countOf s / 2) (by omega)
    rw [hlast, sourceSymbols_getD (by omega)] at h0 h1
    refine ⟨(hbyte _ (by omega)).trans h0, ?_⟩
    rw [hbyte _ (by omega), h1]
    omega

/-! ### The stream in memory, and reading it back -/

/-- The nibble drawn by an odd pack of width 4 or 12 is the upper half of its last byte (R73). -/
theorem byteAt_packBytes_padding {w : Width} {pad : BitVec 4} {syms : List Nat} (h : ∀ v ∈ syms, v < 2 ^ w.bits)
    (hw : w = .w4 ∨ w = .w12) (hodd : syms.length % 2 = 1) :
    byteAt (packBytes w pad syms) (packedSize w syms.length - 1) / 2 ^ 4 = pad.toNat := by
  have hpad := pad.isLt
  have hlast : 2 * (syms.length / 2) < syms.length := by omega
  have hpast : syms.getD (2 * (syms.length / 2) + 1) pad.toNat = pad.toNat := List.getD_eq_default _ _ (by omega)
  rcases hw with rfl | rfl
  · have hj : packedSize .w4 syms.length - 1 = syms.length / 2 := by rw [packedSize_w4]; omega
    have hlow : syms.getD (2 * (syms.length / 2)) 0 < 2 ^ 4 := getD_lt_of_forall h (by decide) _
    rw [hj, packBytes, byteAt_pack4Bytes h hlast, hpast]
    omega
  · have hj : packedSize .w12 syms.length - 1 = 3 * (syms.length / 2) + 1 := by rw [packedSize_w12]; omega
    have hlow : syms.getD (2 * (syms.length / 2)) 0 < 2 ^ 12 := getD_lt_of_forall h (by decide) _
    obtain ⟨_, hbyte, _⟩ := byteAt_pack12Bytes (pad := pad) h hlast
    rw [hj, packBytes, hbyte, hpast]
    omega

theorem packedSize_pos {w : Width} {n : Nat} (h : 0 < n) : 0 < packedSize w n := by
  cases w <;> simp only [packedSize, Width.bits] <;> omega

/-- The packed bytes hold every bit of the stream. -/
theorem streamByte_lt_packedSize {w : Width} {n i k : Nat} (hi : i < n) (hk : k < w.bits) :
    (w.bits * i + k) / 8 < packedSize w n := by
  cases w <;> simp only [packedSize, Width.bits] at hk ⊢ <;> omega

/-- Settles O23: a stream bit is what unpacking would read there, which is the symbol's. -/
theorem packCommandStream : Obligations.PackCommandStream := by
  intro c w s hc hrun hsyms
  obtain ⟨t, hexec, hdone, hbytes⟩ := exec_pack_spec (commandJob_of_width hc) hrun hsyms
  have hlt := sourceSymbols_lt hsyms
  refine ⟨t, hexec, hdone, fun i hi k hk => ?_, fun hw hodd => ⟨?_, ?_⟩⟩
  · rw [hbytes _ (streamByte_lt_packedSize hi hk), ← unpackAt_testBit _ w i hk, unpackAt_packBytes _ hlt (by simpa using hi),
      sourceSymbols_getD hi]
  · rw [hbytes _ (Nat.sub_lt (packedSize_pos (by omega)) Nat.one_pos), ← sourceSymbols_length]
    exact byteAt_packBytes_padding hlt hw (by simpa using hodd)
  · rw [hdone.draws, if_pos ⟨rfl, hw, hodd⟩]

theorem sourceBytes_eq {w : Width} {s : State} {bs : List Byte} (hlen : bs.length = packedSize w (countOf s))
    (h : ∀ j < packedSize w (countOf s), packedAt s j = bs.getD j 0) : sourceBytes w s = bs := by
  refine List.ext_getElem (by simp [hlen]) fun j hj hj' => ?_
  rw [← List.getD_eq_getElem bs 0 hj', ← h j (by simpa using hj)]
  simp [sourceBytes]

/-- A symbol of any width fits a symbol word (R2, R51). -/
theorem two_pow_bits_le (w : Width) (p : Platform) : 2 ^ w.bits ≤ 256 ^ symBytes p :=
  calc 2 ^ w.bits ≤ 256 ^ 2 := by cases w <;> decide
    _ ≤ 256 ^ symBytes p := Nat.pow_le_pow_right (by decide) (symBytes_ge_two p)

/-- Settles O22: the unpack's source is what the pack stored, and the symbols it reads fit their words. -/
theorem unpackAfterPackRestores : Obligations.UnpackAfterPackRestores := by
  intro c d w s t u hc hd hrun hsyms hexec hrunu hcount hsame
  obtain ⟨t', hexec', _, hbytes⟩ := exec_pack_spec hc hrun hsyms
  obtain rfl : t' = t := by rw [hexec] at hexec'; injection hexec' with h; exact h.symm
  have hsource : sourceBytes w u = packBytes w (Config.draw4 s.draws) (sourceSymbols s) :=
    sourceBytes_eq (by simp [hcount]) fun j hj => by
      rw [hcount] at hj
      rw [hsame j hj, hbytes j hj]
  obtain ⟨v, hv, hdone, hsymbols⟩ := unpackCommand_spec hrunu
  refine ⟨v, (exec_of_job hd u).trans hv, hdone, fun i hi => ?_⟩
  rw [hsymbols i (by omega), hsource, unpackAt_packBytes _ (sourceSymbols_lt hsyms) (by simpa using hi), sourceSymbols_getD hi]
  exact Nat.mod_eq_of_lt ((hsyms i hi).trans_le (two_pow_bits_le w _))

/-! ### Register writes of a mnemonic as steps (R97) -/

/-- The state `s` but for its block `k` and its schedule. -/
def withBlock (s : State) (k : Nat) (b : Inst) (l : List Input) : State := { setInst s k b with inputs := l }

theorem withBlock_self {s : State} {k : Nat} (hk : k < s.insts.length) : withBlock s k (getInst s k) s.inputs = s := by
  simp [withBlock, setInst, getInst_eq_getElem hk]

theorem getInst_withBlock {s : State} {k : Nat} {b : Inst} {l : List Input} (hk : k < s.insts.length) :
    getInst (withBlock s k b l) k = b := getInst_setInst_same b hk

theorem setInst_withBlock (s : State) (k : Nat) (b c : Inst) (l : List Input) :
    setInst (withBlock s k b l) k c = withBlock s k c l := by
  simp [withBlock, setInst]

/-- Which register an address spells depends on the blocks' bases alone (R22). -/
theorem findReg_congr {s t : State} (h : t.insts.map (·.regBase) = s.insts.map (·.regBase)) (a size : Nat) :
    findReg t a size = findReg s a size := by
  have hwin : ∀ u : State, u.insts.findIdx? (fun b => inWindow b a) =
      (u.insts.map (·.regBase)).findIdx? (fun r => decide (r ≤ a) && decide (a < r + 0x20)) := by
    intro u
    rw [List.findIdx?_map]
    rfl
  have hbase : ∀ (u : State) (k : Nat), (getInst u k).regBase = ((u.insts.map (·.regBase))[k]?).getD 0 := by
    intro u k
    rw [getInst, List.getElem?_map]
    cases u.insts[k]? <;> rfl
  simp only [findReg, hwin, hbase, h]

theorem withBlock_bases {s : State} {k : Nat} {b : Inst} {l : List Input} (hb : b.regBase = (getInst s k).regBase) :
    (withBlock s k b l).insts.map (·.regBase) = s.insts.map (·.regBase) := by
  simp only [withBlock, setInst_insts, List.map_set]
  refine List.ext_getElem (by simp) fun j hj hj' => ?_
  have hlen : j < s.insts.length := by simpa using hj'
  rw [List.getElem_set]
  split
  · next h => subst h; simp [hb, getInst_eq_getElem hlen]
  · rfl

section Launch

variable {s : State} {base k : Nat} {b : Inst} {l : List Input}

/-- One register write of a mnemonic, addressed to block `k`, with what its earlier writes left there. -/
theorem step_writeReg (hs : s.Sound) (hf : ∀ r, findReg s (base + regOffset r) 4 = some (k, r))
    (hb : b.regBase = (getInst s k).regBase) (r : Reg) (x : Nat) :
    step (withBlock s k b (writeReg base r x :: l)) = hostRegWrite k r (BitVec.ofNat 32 x) (withBlock s k b l) :=
  step_of_regWrite ⟨⟨hs.unmarked, hs.unfaulted⟩, rfl⟩ ((findReg_congr (withBlock_bases hb) _ _).trans (hf r))

theorem hostRegWrite_pkdAddr (hk : k < s.insts.length) (v : Word) : hostRegWrite k .pkdAddr v (withBlock s k b l) =
    .next (withBlock s k { b with pkdAddr := keepAddrBits s.plat v } l) := by
  simp only [hostRegWrite, getInst_withBlock hk, setInst_withBlock]
  rfl

theorem hostRegWrite_symAddr (hk : k < s.insts.length) (v : Word) : hostRegWrite k .symAddr v (withBlock s k b l) =
    .next (withBlock s k { b with symAddr := keepAddrBits s.plat v } l) := by
  simp only [hostRegWrite, getInst_withBlock hk, setInst_withBlock]
  rfl

theorem hostRegWrite_count (hk : k < s.insts.length) (v : Word) : hostRegWrite k .count v (withBlock s k b l) =
    .next (withBlock s k { b with count := v } l) := by
  simp only [hostRegWrite, getInst_withBlock hk, setInst_withBlock]

/-- An Idle block accepts a command whose source the host owes no clean (R67, R101). -/
theorem launch_of_clean {v : Word} (hp : (getInst s k).phase = .idle) (hclean : s.plat.coherent = true ∨ s.uncleaned = []) :
    launch k v s = .next (acceptCommand k v s) := by
  have hsource : sourceUncleaned s (acceptRegs v (getInst s k)) = false := by
    rcases hclean with hc | hu
    · simp [sourceUncleaned, hc]
    · unfold sourceUncleaned
      split <;> simp [hu]
  simp [launch, hp, hsource]

theorem run_four_of_steps {s₀ s₁ s₂ s₃ s₄ : State} (h₁ : step s₀ = .next s₁) (h₂ : step s₁ = .next s₂)
    (h₃ : step s₂ = .next s₃) (h₄ : step s₃ = .next s₄) : Host.Core.run core 4 s₀ = .next s₄ := by
  simp [Host.Core.run, core, h₁, h₂, h₃, h₄]

/-- The block that the three operand writes of a mnemonic leave. -/
def operandsWritten (p : Platform) (pkd sym count : Nat) (b : Inst) : Inst :=
  { b with pkdAddr := keepAddrBits p (BitVec.ofNat 32 pkd), symAddr := keepAddrBits p (BitVec.ofNat 32 sym),
           count := BitVec.ofNat 32 count }

/-- The register writes of a command mnemonic (R97). -/
def commandWrites (base : Nat) (i : Instr) (pkd sym count : Nat) : List Input :=
  [writeReg base .pkdAddr pkd, writeReg base .symAddr sym, writeReg base .count count, writeReg base .cmd (encode i).toNat]

/-- The state after the register writes of a command mnemonic: its command accepted with the operands written before. -/
def launched (s : State) (k : Nat) (i : Instr) (pkd sym count : Nat) (rest : List Input) : State :=
  acceptCommand k (BitVec.ofNat 32 (encode i).toNat)
    (withBlock s k (operandsWritten s.plat pkd sym count (getInst s k)) rest)

theorem run_commandWrites {i : Instr} {pkd sym count : Nat} {rest : List Input} (hs : s.Sound)
    (hclean : s.plat.coherent = true ∨ s.uncleaned = []) (hf : ∀ r, findReg s (base + regOffset r) 4 = some (k, r))
    (hp : (getInst s k).phase = .idle) (hi : s.inputs = commandWrites base i pkd sym count ++ rest) :
    Host.Core.run core 4 s = .next (launched s k i pkd sym count rest) := by
  have hk := (findReg_some (hf .cmd)).1
  have hself := withBlock_self hk
  rw [hi] at hself
  have hlaunch : hostRegWrite k .cmd _ (withBlock s k (operandsWritten s.plat pkd sym count (getInst s k)) rest) =
      .next (launched s k i pkd sym count rest) :=
    launch_of_clean (by rw [getInst_withBlock hk]; exact hp) hclean
  exact run_four_of_steps
    ((congrArg step hself.symm).trans ((step_writeReg hs hf (by rfl) .pkdAddr pkd).trans (hostRegWrite_pkdAddr hk _)))
    ((step_writeReg hs hf (by rfl) .symAddr sym).trans (hostRegWrite_symAddr hk _))
    ((step_writeReg hs hf (by rfl) .count count).trans (hostRegWrite_count hk _))
    ((step_writeReg hs hf (by rfl) .cmd _).trans hlaunch)

theorem getInst_launched {i : Instr} {pkd sym count : Nat} {rest : List Input} (hk : k < s.insts.length) :
    ∃ z, getInst (launched s k i pkd sym count rest) k =
      { acceptRegs (encode i) (operandsWritten s.plat pkd sym count (getInst s k)) with windows := z } := by
  have hk' : k < (withBlock s k (operandsWritten s.plat pkd sym count (getInst s k)) rest).insts.length := by
    simpa [withBlock] using hk
  exact ⟨_, by rw [launched, acceptCommand, getInst_setInst_same _ hk', getInst_withBlock hk, BitVec.ofNat_toNat,
    BitVec.setWidth_eq]⟩

end Launch

theorem keepAddrBits_ofNat {p : Platform} (hp : p.wf = true) {x : Nat} (hx : x < 2 ^ p.addrWidth) :
    (keepAddrBits p (BitVec.ofNat 32 x)).toNat = x := by
  have hword : x < 2 ^ 32 := hx.trans_le (Nat.pow_le_pow_right (by decide) (Platform.addrWidth_le_of_wf hp))
  rw [keepAddrBits_toNat, BitVec.toNat_ofNat, Nat.mod_eq_of_lt hword, Nat.mod_eq_of_lt hx]

theorem asmOperandsOk_iff {p : Platform} {i : Instr} {pkd sym count : Nat} : asmOperandsOk p i pkd sym count = true ↔
    i.wf = true ∧ pkd < 2 ^ p.addrWidth ∧ sym < 2 ^ p.addrWidth ∧ count < 2 ^ 32 := by
  simp [asmOperandsOk, and_assoc]

theorem expandCommand_of_ok {p : Platform} {base : Nat} {i : Instr} {pkd sym count : Nat}
    (h : asmOperandsOk p i pkd sym count = true) :
    expandCommand p base i pkd sym count = some (commandWrites base i pkd sym count ++ [.wait base]) :=
  if_pos h

/-- The expansion of a command mnemonic launches the command, whatever its operands' order in the line. -/
theorem launchesAs_expandCommand {base : Nat} {i : Instr} {ok : Prop} {word : Word} {pkd sym count : Nat}
    (hok : i.wf = true ↔ ok) (hword : ok → encode i = word) :
    LaunchesAs base (fun p => expandCommand p base i pkd sym count) ok word pkd sym count := by
  intro p hp
  refine ⟨fun hbad => ?_, fun hwf hpkd hsym hcount => ?_⟩
  · exact if_neg (by rwa [asmOperandsOk_iff, hok])
  refine ⟨_, expandCommand_of_ok (asmOperandsOk_iff.2 ⟨hok.2 hwf, hpkd, hsym, hcount⟩), ?_⟩
  rintro s k rest rfl hs hclean hf hidle hi
  obtain ⟨z, hinst⟩ := getInst_launched (findReg_some (hf .cmd)).1
  refine ⟨_, run_commandWrites hs hclean hf hidle hi, ?_⟩
  rw [hinst]
  exact ⟨rfl, hword hwf, Nat.mod_eq_of_lt hcount, keepAddrBits_ofNat hp hsym, keepAddrBits_ofNat hp hpkd, rfl, rfl⟩

/-- The word of a dispatched command: BITCOUNT from bit 4 up, DIR in bit 0 (R90). -/
theorem encode_dispatchedInstr_eq_ofNat {dir : Dir} {b : Nat} (h : b < 256) :
    encode (dispatchedInstr dir b) = BitVec.ofNat 32 (b * 2 ^ 4 + dir.code.toNat) := by
  have hdir := dir.code.isLt
  refine BitVec.eq_of_toNat_eq ?_
  simp only [encode_dispatchedInstr, layoutWord_toNat, BitVec.ofNat_eq_ofNat, BitVec.toNat_ofNat]
  omega

/-- A STATUS write of 6 clears DONE and DROP (R97). -/
theorem step_clrst {s : State} {base k : Nat} {rest : List Input} (hs : s.Sound)
    (hi : s.inputs = writeReg base .status 6 :: rest) (hf : findReg s (base + 0x10) 4 = some (k, .status)) :
    step s = .next { s with
      inputs := rest
      insts := s.insts.set k { getInst s k with done := false, drop := false } } :=
  statusWrite s (base + 0x10) k 6 rest ⟨hs, hi⟩ hf

/-- Settles O47: each mnemonic expands to its command's writes, CLRST to the STATUS write of 6. -/
theorem mnemonicLaunches : Obligations.MnemonicLaunches := by
  intro base a b c x
  have hdirect : ∀ {i : Instr} {word : Word} {pkd sym : Nat}, i.wf = true → encode i = word →
      LaunchesAs base (fun p => expandCommand p base i pkd sym c) True word pkd sym c :=
    fun hwf hword => launchesAs_expandCommand (iff_true_intro hwf) fun _ => hword
  refine ⟨hdirect rfl (by decide), hdirect rfl (by decide), hdirect rfl (by decide), hdirect rfl (by decide),
    hdirect rfl (by decide), hdirect rfl (by decide), hdirect rfl (by decide), hdirect rfl (by decide),
    launchesAs_expandCommand decide_eq_true_iff (encode_dispatchedInstr_eq_ofNat (dir := .pack)),
    launchesAs_expandCommand decide_eq_true_iff (encode_dispatchedInstr_eq_ofNat (dir := .unpack)), fun p => ?_⟩
  exact ⟨rfl, _, rfl, fun s k rest hs hi hf => step_clrst hs hi hf⟩

/-! ### WAIT (R97) -/

theorem pickWait_of_idle {s : State} {base k : Nat} {rest : List Input} (hf : findReg s (base + 0x10) 4 = some (k, .status))
    (hp : (getInst s k).phase = .idle) : pickWait base rest s = .host (.regRead (base + 0x10) 4) { s with inputs := rest } := by
  simp [pickWait, statusAddr, regOffset, hf, isBusy, hp]

theorem step_of_wait_idle {s : State} {base k : Nat} {rest : List Input} (hs : s.Sound) (hi : s.inputs = .wait base :: rest)
    (hf : findReg s (base + 0x10) 4 = some (k, .status)) (hp : (getInst s k).phase = .idle) :
    step s = .next (hostRegRead k .status { s with inputs := rest }) := by
  have hf' : findReg { s with inputs := rest } (base + 0x10) 4 = some (k, .status) := hf
  have hpick : pick s = .host (.regRead (base + 0x10) 4) { s with inputs := rest } := by
    simp [pick, pickSound, hs.unmarked, hs.unfaulted, hi, pickWait_of_idle hf hp]
  simp only [step, hpick, hostStep, hf']

/-- Settles O52: the step is the STATUS read, which finds the block Idle and closes its hazard. -/
theorem waitEnds : Obligations.WaitEnds := by
  intro s base k rest hs hi hf hp
  have hobserve : observeStatus .status (getInst s k) = { getInst s k with windows := [] } := by
    rw [observeStatus_eq, if_pos ⟨rfl, hp⟩]
  rw [step_of_wait_idle hs hi hf hp, ← hobserve]
  rfl

end Sys2Proof.Machine

/-! PROOFS of the command family. The machine invariant, operation by operation; a command's checks and errors; what the schedule makes of
a block's completion step; acceptance and drop; what a command's result does not depend on. -/

namespace Sys2Proof.Machine

/-! ### The machine invariant: cache bookkeeping -/

theorem addAddrs_pairwise {r : Range} {l : List Nat} (h : l.Pairwise (· < ·)) : (addAddrs r l).Pairwise (· < ·) := by
  have hrange : (rangeAddrs r).Pairwise (· < ·) := List.pairwise_lt_range'
  refine List.pairwise_append.2 ⟨List.pairwise_append.2 ⟨h.filter _, hrange, ?_⟩, h.filter _, ?_⟩
  · intro a ha b hb
    have hlow := of_decide_eq_true (List.mem_filter.1 ha).2
    exact hlow.trans_le (mem_rangeAddrs.1 hb).1
  · intro a ha b hb
    have hhigh := of_decide_eq_true (List.mem_filter.1 hb).2
    rcases List.mem_append.1 ha with ha | ha
    · have hlow := of_decide_eq_true (List.mem_filter.1 ha).2
      omega
    · exact (mem_rangeAddrs.1 ha).2.trans_le hhigh

theorem dropAddrs_pairwise {r : Range} {l : List Nat} (h : l.Pairwise (· < ·)) : (dropAddrs r l).Pairwise (· < ·) :=
  h.filter _

/-- Every byte of the range is a byte of the address space (R50, R59). -/
def RangeInSpace (p : Platform) (r : Range) : Prop := ∀ a, rangeHas r a = true → a < addrLimit p

theorem rangeInSpace_cutRange (p : Platform) (r : Range) : RangeInSpace p (cutRange p r) :=
  fun _ ha => (rangeHas_cutRange.1 ha).2

theorem rangeInSpace_of_admitted {p : Platform} {r : Range} (h : rangeAdmitted p r = true) : RangeInSpace p r :=
  fun a ha => memAdmit_lt (rangeAdmitted_iff.1 h a ha)

theorem addAddrs_lt {p : Platform} {r : Range} {l : List Nat} (hr : RangeInSpace p r) (hl : ∀ a ∈ l, a < addrLimit p) :
    ∀ a ∈ addAddrs r l, a < addrLimit p :=
  fun a ha => (mem_addAddrs.1 ha).elim (hl a) (hr a)

theorem dropAddrs_lt {p : Platform} {r : Range} {l : List Nat} (hl : ∀ a ∈ l, a < addrLimit p) :
    ∀ a ∈ dropAddrs r l, a < addrLimit p :=
  fun a ha => hl a (mem_dropAddrs.1 ha).1

/-! ### The machine invariant: the operations on one block -/

section Block

variable {p : Platform} {b : Inst}

/-- What the invariant asks of an Idle block: that its addresses fit `ADDR_W`. -/
theorem Inst.Inv.of_idle (h : b.phase = .idle) (hs : b.symAddr.toNat < addrLimit p) (hp : b.pkdAddr.toNat < addrLimit p)
    (hls : b.lSymAddr.toNat < addrLimit p) (hlp : b.lPkdAddr.toNat < addrLimit p) : Inst.Inv p b :=
  have hno : b.phase ≠ .busy := by simp [h]
  ⟨hs, hp, hls, hlp, fun hb => absurd hb hno, fun hb => absurd hb hno⟩

theorem completeRegs_inv (c : ErrCode) (n : Nat) (h : Inst.Inv p b) : Inst.Inv p (completeRegs c n b) :=
  .of_idle rfl h.symAddr h.pkdAddr h.lSymAddr h.lPkdAddr

theorem resetRegs_inv : Inst.Inv p (resetRegs b) :=
  have hzero : (0 : Word).toNat < addrLimit p := Nat.two_pow_pos _
  .of_idle rfl hzero hzero hzero hzero

theorem dropRegs_inv (h : Inst.Inv p b) : Inst.Inv p (dropRegs b) := { h with }

theorem writeStatus_inv (v : Word) (h : Inst.Inv p b) : Inst.Inv p (writeStatus v b) where
  __ := h
  inFlight hb := by
    obtain ⟨hdone, herr, hbytes⟩ := h.inFlight hb
    exact ⟨by simp [writeStatus, hdone], herr, hbytes⟩

theorem setCount_inv (v : Word) (h : Inst.Inv p b) : Inst.Inv p { b with count := v } := { h with }

theorem keepAddrBits_lt (p : Platform) (v : Word) : (keepAddrBits p v).toNat < addrLimit p := by
  rw [keepAddrBits_toNat]
  exact Nat.mod_lt _ (Nat.two_pow_pos _)

theorem setSymAddr_inv (v : Word) (h : Inst.Inv p b) : Inst.Inv p { b with symAddr := keepAddrBits p v } :=
  { h with symAddr := keepAddrBits_lt p v }

theorem setPkdAddr_inv (v : Word) (h : Inst.Inv p b) : Inst.Inv p { b with pkdAddr := keepAddrBits p v } :=
  { h with pkdAddr := keepAddrBits_lt p v }

/-- Acceptance opens the hazard of the ranges that it latches (R101, R206). -/
theorem acceptRegs_inv (v : Word) (h : Inst.Inv p b) :
    Inst.Inv p { acceptRegs v b with windows := b.windows ++ [flightWindow p (acceptRegs v b)] } where
  symAddr := h.symAddr
  pkdAddr := h.pkdAddr
  lSymAddr := h.symAddr
  lPkdAddr := h.pkdAddr
  inFlight _ := ⟨rfl, rfl, rfl⟩
  guarded _ := List.mem_append_right _ (List.mem_singleton_self _)

/-- A read closes the hazard of an Idle block only (R206). -/
theorem observeStatus_inv (r : Reg) (h : Inst.Inv p b) : Inst.Inv p (observeStatus r b) := by
  unfold observeStatus
  split
  · next hidle => exact .of_idle hidle h.symAddr h.pkdAddr h.lSymAddr h.lPkdAddr
  · exact h

end Block

/-! ### The machine invariant: the operations on the state -/

section Operations

variable {s : State}

theorem State.Inv.getInst (h : s.Inv) {k : Nat} (hk : k < s.insts.length) : Inst.Inv s.plat (getInst s k) :=
  h.blocks _ (getInst_mem hk)

theorem State.Inv.inputs (h : s.Inv) (l : List Input) : State.Inv { s with inputs := l } := { h with }

theorem State.Inv.reply (h : s.Inv) (y : Reply) : State.Inv { s with reply := y } := { h with }

theorem State.Inv.countDraw (h : s.Inv) (d : Bool) : State.Inv (countDraw d s) := { h with }

theorem State.Inv.turn_of_lt (h : s.Inv) {k : Nat} (hk : k < s.insts.length) : State.Inv { s with turn := k } :=
  { h with turn := hk }

theorem State.Inv.setInst (h : s.Inv) (k : Nat) {b : Inst} (hb : Inst.Inv s.plat b) : State.Inv (setInst s k b) where
  __ := h
  turn := by simpa using h.turn
  blocks c hc := (List.mem_or_eq_of_mem_set hc).elim (h.blocks c) fun hcb => hcb ▸ hb

theorem State.Inv.oweInvalidate (h : s.Inv) {r : Range} (hr : RangeInSpace s.plat r) : State.Inv (oweInvalidate r s) where
  __ := h
  stale := by
    rw [oweInvalidate_stale]
    split
    · exact h.stale
    · exact addAddrs_pairwise h.stale
  staleInSpace := by
    rw [oweInvalidate_stale]
    split
    · exact h.staleInSpace
    · exact addAddrs_lt hr h.staleInSpace
  coherent hc := by
    have hc : s.plat.coherent = true := hc
    rw [oweInvalidate_stale, if_pos hc]
    exact h.coherent hc

theorem State.Inv.markStored (h : s.Inv) {r : Range} (hr : RangeInSpace s.plat r) : State.Inv (markStored r s) where
  __ := h.oweInvalidate hr
  uncleaned := by
    rw [markStored_uncleaned]
    split
    · exact h.uncleaned
    · exact dropAddrs_pairwise h.uncleaned
  uncleanedInSpace := by
    rw [markStored_uncleaned]
    split
    · exact h.uncleanedInSpace
    · exact dropAddrs_lt h.uncleanedInSpace
  coherent hc := by
    have hc : s.plat.coherent = true := hc
    rw [markStored_uncleaned, markStored_stale, if_pos hc, if_pos hc]
    exact h.coherent hc

theorem State.Inv.writeBytes (h : s.Inv) {a : Nat} {bs : List Byte} (hr : RangeInSpace s.plat ⟨a, bs.length⟩) :
    State.Inv { s with mem := writeBytes s.mem a bs } where
  __ := h
  memory := writeBytes_wf bs h.memory a
  inSpace c hc := (mem_writeBytes bs hc).elim (fun hin => hr _ (rangeHas_iff.2 hin)) (h.inSpace c)

theorem State.Inv.drawAddrs (h : s.Inv) {l : List Nat} (hl : ∀ a ∈ l, a < addrLimit s.plat) : State.Inv (drawAddrs l s) where
  __ := h
  memory := scatterDraws_wf l h.memory _
  inSpace c hc := (mem_scatterDraws l hc).elim (hl _) (h.inSpace c)

theorem State.Inv.storeBytes (h : s.Inv) {a : Nat} {bs : List Byte} (hr : RangeInSpace s.plat ⟨a, bs.length⟩) :
    State.Inv (storeBytes a bs s) :=
  (h.writeBytes hr).markStored hr

theorem State.Inv.abandonRange (h : s.Inv) (r : Range) : State.Inv (abandonRange r s) :=
  (h.drawAddrs fun _ ha => (mem_cutRange.1 ha).2).markStored (rangeInSpace_cutRange _ _)

theorem State.Inv.completeError (h : s.Inv) (c : ErrCode) : State.Inv (completeError c s) :=
  h.setInst _ (completeRegs_inv _ _ (h.getInst h.turn))

theorem State.Inv.completeOk (h : s.Inv) (w : Width) : State.Inv (completeOk w s) :=
  h.setInst _ (completeRegs_inv _ _ (h.getInst h.turn))

theorem State.Inv.failCommand (h : s.Inv) (c : ErrCode) (v : Window) : State.Inv (failCommand c v s) :=
  (h.completeError c).oweInvalidate (rangeInSpace_cutRange _ _)

end Operations

/-! ### The machine invariant: the agents' moves -/

section Moves

variable {s t : State}

theorem JobOutcome.keeps_inv {dir : Dir} {w : Width} (h : JobOutcome dir w s t) (hs : s.Inv) : t.Inv := by
  cases h with
  | error code hc ne ht => exact ht ▸ hs.failCommand _ _
  | stored bs drawn ok clear len draw ht =>
    have hr : RangeInSpace s.plat ⟨(destRange (activeWindow dir w s)).base, bs.length⟩ :=
      len ▸ fun a ha => (operandError_ok_iff.1 ok).dest_lt ha
    exact ht ▸ ((hs.storeBytes hr).countDraw drawn).completeOk w

theorem exec_keeps_inv {i : Instr} (h : exec i s = .next t) (hs : s.Inv) : t.Inv := by
  rcases exec_next h with ⟨_, dir, _, rfl⟩ | ⟨dir, w, _, hjob⟩
  · exact hs.failCommand _ _
  · exact hjob.keeps_inv hs

theorem completeStep_keeps_inv {k : Nat} (h : completeStep k s = .next t) (hk : k < s.insts.length) (hs : s.Inv) : t.Inv := by
  rcases completeStep_next h with ⟨_, rfl⟩ | ⟨_, _, rfl⟩ | ⟨_, i, _, hexec⟩
  · exact hs
  · exact (hs.turn_of_lt hk).completeError _
  · exact exec_keeps_inv hexec (hs.turn_of_lt hk)

theorem launch_keeps_inv {k : Nat} {v : Word} (hk : k < s.insts.length) (h : launch k v s = .next t) (hs : s.Inv) : t.Inv := by
  rcases launch_next h with ⟨_, rfl⟩ | ⟨_, rfl⟩
  · exact hs.setInst k (dropRegs_inv (hs.getInst hk))
  · exact hs.setInst k (acceptRegs_inv v (hs.getInst hk))

theorem hostRegWrite_keeps_inv {k : Nat} {r : Reg} {v : Word} (hk : k < s.insts.length) (h : hostRegWrite k r v s = .next t)
    (hs : s.Inv) : t.Inv := by
  have hb := hs.getInst hk
  cases r with
  | cmd => exact launch_keeps_inv hk h hs
  | count => cases h; exact hs.setInst k (setCount_inv v hb)
  | symAddr => cases h; exact hs.setInst k (setSymAddr_inv v hb)
  | pkdAddr => cases h; exact hs.setInst k (setPkdAddr_inv v hb)
  | status => cases h; exact hs.setInst k (writeStatus_inv v hb)
  | nbytes => cases h; exact hs
  | info => cases h; exact hs
  | reserved => cases h; exact hs

theorem hostRegRead_inv {k : Nat} (r : Reg) (hk : k < s.insts.length) (hs : s.Inv) : State.Inv (hostRegRead k r s) :=
  (hs.setInst k (observeStatus_inv r (hs.getInst hk))).reply _

/-- A host write that answers a next state wrote admitted bytes, which become uncleaned where COHERENT is false (R61, R67). -/
theorem hostMemWrite_next {a : Nat} {bs : List Byte} (h : hostMemWrite a bs s = .next t) :
    rangeAdmitted s.plat ⟨a, bs.length⟩ = true ∧ t = { s with
      mem := writeBytes s.mem a bs
      uncleaned := if s.plat.coherent then s.uncleaned else addAddrs ⟨a, bs.length⟩ s.uncleaned } := by
  simp only [hostMemWrite] at h
  split at h
  · cases h
  · split at h
    · cases h
    · next hadmit =>
      refine ⟨by simpa using hadmit, ?_⟩
      injection h with h
      rw [← h]
      split <;> rfl

theorem hostMemRead_next {a n : Nat} (h : hostMemRead a n s = .next t) : t = { s with reply := .bytes (readBytes s.mem a n) } := by
  simp only [hostMemRead] at h
  split at h
  · cases h
  · split at h
    · cases h
    · split at h
      · cases h
      · injection h with h
        exact h.symm

theorem hostMemWrite_keeps_inv {a : Nat} {bs : List Byte} (h : hostMemWrite a bs s = .next t) (hs : s.Inv) : t.Inv := by
  obtain ⟨hadmit, rfl⟩ := hostMemWrite_next h
  have hr : RangeInSpace s.plat ⟨a, bs.length⟩ := rangeInSpace_of_admitted hadmit
  have hw := hs.writeBytes hr
  by_cases hc : s.plat.coherent = true
  · simpa only [hc, if_true] using hw
  · simp only [hc]
    exact { hw with
      uncleaned := addAddrs_pairwise hs.uncleaned
      uncleanedInSpace := addAddrs_lt hr hs.uncleanedInSpace
      coherent := fun hco => absurd hco hc }

theorem hostClean_inv (a n : Nat) (hs : s.Inv) : State.Inv (hostClean a n s) where
  __ := hs
  uncleaned := dropAddrs_pairwise hs.uncleaned
  uncleanedInSpace := dropAddrs_lt hs.uncleanedInSpace
  coherent hc := by
    obtain ⟨hu, hst⟩ := hs.coherent hc
    exact ⟨by simp [hostClean, hu, dropAddrs], hst⟩

/-- The bytes an invalidate draws were uncleaned, so the address space has them (R67; log 12). -/
theorem hostInvalidate_inv (a n : Nat) (hs : s.Inv) : State.Inv (hostInvalidate a n s) :=
  have hmarks : State.Inv { s with
      stale := s.stale.filter (fun x => !rangeHas ⟨a, n⟩ x || inOpenDest s x), uncleaned := dropAddrs ⟨a, n⟩ s.uncleaned } :=
    { hs with
      uncleaned := dropAddrs_pairwise hs.uncleaned
      uncleanedInSpace := dropAddrs_lt hs.uncleanedInSpace
      stale := hs.stale.filter _
      staleInSpace := fun x hx => hs.staleInSpace x (List.mem_filter.1 hx).1
      coherent := fun hc => by
        obtain ⟨hu, hst⟩ := hs.coherent hc
        simp [hu, hst, dropAddrs] }
  hmarks.drawAddrs fun x hx => hs.uncleanedInSpace x (List.mem_filter.1 hx).1

theorem resetBlock_keeps_inv {k : Nat} (h : resetBlock k s = .next t) (hs : s.Inv) : t.Inv := by
  obtain ⟨_, ⟨_, rfl⟩ | ⟨_, _, rfl⟩⟩ := resetBlock_next h
  · exact hs.setInst k resetRegs_inv
  · exact (hs.abandonRange _).setInst k resetRegs_inv

theorem hostStep_keeps_inv {op : HostOp} (h : hostStep op s = .next t) (hs : s.Inv) : t.Inv := by
  cases op with
  | regWrite a size v =>
    simp only [hostStep] at h
    split at h
    · cases h
    · next hf => exact hostRegWrite_keeps_inv (findReg_some hf).1 h hs
  | regRead a size =>
    simp only [hostStep] at h
    split at h
    · cases h
    · next r hf => cases h; exact hostRegRead_inv r (findReg_some hf).1 hs
  | memWrite a bs => exact hostMemWrite_keeps_inv h hs
  | memRead a n => exact hostMemRead_next h ▸ hs.reply _
  | clean a n => cases h; exact hostClean_inv a n hs
  | invalidate a n => cases h; exact hostInvalidate_inv a n hs
  | reset k => exact resetBlock_keeps_inv h hs

end Moves

/-- Settles O59: whichever agent moved, its operation keeps the invariant. -/
theorem stepKeepsInv : Obligations.StepKeepsInv := by
  intro s t hs h
  rcases step_next h with ⟨k, rest, hk, hblock⟩ | ⟨op, rest, hhost⟩ | rfl
  · exact completeStep_keeps_inv hblock hk (hs.inputs rest)
  · exact hostStep_keeps_inv hhost (hs.inputs rest)
  · exact hs

end Sys2Proof.Machine

namespace Sys2Proof.Machine

/-! ### The checks of a command (R104, R105, R161) -/

section Checks

variable {i : Instr} {dir : Dir} {w : Width} {s t : State}

theorem operandError_of_not_fit (ha : (activeInst s).lSymAddr.toNat % symBytes s.plat = 0) (h : ¬ OperandsFit w s) :
    operandError s.plat w (activeInst s) = .erange := by
  refine operandError_erange ha ?_
  by_contra hfit
  obtain ⟨hsym, hpkd⟩ := not_or.1 hfit
  exact h ⟨ha, not_lt.1 hsym, not_lt.1 hpkd⟩

theorem exec_of_failed_check (hj : commandJob i = some (dir, w)) (ne : operandError s.plat w (activeInst s) ≠ .ok) :
    exec i s = .next (failCommand (operandError s.plat w (activeInst s)) (activeWindow dir w s) s) := by
  rw [exec_of_job hj]
  cases dir with
  | pack => exact checkedCommand_of_error ne _
  | unpack => exact checkedCommand_of_error ne _

theorem exec_of_operandError {code : ErrCode} (hj : commandJob i = some (dir, w)) (hk : s.turn < s.insts.length)
    (hc : operandError s.plat w (activeInst s) = code) (ne : code ≠ .ok) :
    ∃ t, exec i s = .next t ∧ CompletedError code s t := by
  subst hc
  exact ⟨_, exec_of_failed_check hj ne, failCommand_spec ne _ hk⟩

/-- A command past its checks and its faults is its body. -/
theorem exec_of_clear (hj : commandJob i = some (dir, w)) (hok : operandError s.plat w (activeInst s) = .ok)
    (hclear : accessFault s (activeWindow dir w s) = none) :
    exec i s = (match dir with | .pack => packBody w s | .unpack => unpackBody w s) := by
  rw [exec_of_job hj]
  cases dir with
  | pack => exact checkedCommand_of_clear hok hclear _
  | unpack => exact checkedCommand_of_clear hok hclear _

/-- A command without a width is a dispatched one of an unsupported bit count (R161). -/
theorem dispatched_of_no_job (hj : commandJob i = none) : ∃ dir b, i = dispatchedInstr dir b ∧ dispatch b = none := by
  rcases i.direct_or_dispatched with ⟨dir, w, rfl⟩ | ⟨dir, b, rfl⟩
  · cases (commandJob_of_width (.inr rfl)).symm.trans hj
  · exact ⟨dir, b, rfl, by cases dir <;> exact Option.map_eq_none_iff.1 hj⟩

theorem exec_ewidth (hj : commandJob i = none) (hk : s.turn < s.insts.length) :
    ∃ t, exec i s = .next t ∧ CompletedError .ewidth s t := by
  obtain ⟨dir, b, rfl, hb⟩ := dispatched_of_no_job hj
  exact ⟨_, exec_of_no_width dir s hb, failCommand_spec (by decide) _ hk⟩

theorem exec_ealign (hj : commandJob i = some (dir, w)) (hk : s.turn < s.insts.length)
    (ha : (activeInst s).lSymAddr.toNat % symBytes s.plat ≠ 0) : ∃ t, exec i s = .next t ∧ CompletedError .ealign s t :=
  exec_of_operandError hj hk (operandError_ealign ha) (by decide)

theorem exec_erange (hj : commandJob i = some (dir, w)) (hk : s.turn < s.insts.length)
    (ha : (activeInst s).lSymAddr.toNat % symBytes s.plat = 0) (h : ¬ OperandsFit w s) :
    ∃ t, exec i s = .next t ∧ CompletedError .erange s t :=
  exec_of_operandError hj hk (operandError_of_not_fit ha h) (by decide)

/-- The code in ERR after a command with a width is the one its operand checks gave. -/
theorem exec_err (hj : commandJob i = some (dir, w)) (h : exec i s = .next t) :
    (activeInst t).err = operandError s.plat w (activeInst s) := by
  cases exec_next_of_job hj h with
  | error code hc ne ht => rw [ht, failCommand_err hc ne, hc]
  | stored bs drawn ok clear len draw ht => rw [ht, completeOk_err, ok]

end Checks

theorem packedSize_zero (w : Width) : packedSize w 0 = 0 := by cases w <;> rfl

/-- Settles O27: a misaligned address is the first operand check to fail, and no other check gives EALIGN. -/
theorem alignmentCheck : Obligations.AlignmentCheck := by
  intro i dir w s hj hk
  refine ⟨exec_ealign hj hk, fun ha t ht => ?_⟩
  rw [exec_err hj ht]
  by_cases hfit : OperandsFit w s
  · simp [operandError_ok_iff.2 hfit]
  · simp [operandError_of_not_fit ha hfit]

/-- Settles O28: a range end past the address space is the negation of the operand check, its bounds arithmetic. -/
theorem rangeCheck : Obligations.RangeCheck := by
  intro i dir w s hj hk ha
  refine ⟨fun hpast => exec_erange hj hk ha fun hfit => ?_, fun hfit t ht => ?_, fun hfit hsym haddr => ?_,
    fun hcount hsym hpkd => ⟨ha, ?_, ?_⟩⟩
  · exact hpast.elim hfit.symbolsFit.not_gt hfit.packedFits.not_gt
  · simp [exec_err hj ht, operandError_ok_iff.2 hfit]
  · have hend := hfit.symbolsFit
    simp only [symBytes, hsym, haddr, SymWidth.bytes] at hend
    omega
  · rw [hcount]
    exact hsym.le
  · rw [hcount, packedSize_zero]
    exact hpkd.le

/-! ### A count of 0 (R108) -/

section ZeroCount

variable {i : Instr} {dir : Dir} {w : Width} {s t : State}

theorem rangesMeet_empty_left {r : Range} (h : r.len = 0) (q : Range) : rangesMeet r q = false := by
  simp [rangesMeet, h]

theorem rangeAdmitted_empty {r : Range} (h : r.len = 0) (p : Platform) : rangeAdmitted p r = true := by
  simp [rangeAdmitted, rangeAddrs, h]

theorem activeWindow_empty (dir : Dir) (w : Width) (h : countOf s = 0) :
    (activeWindow dir w s).sym.len = 0 ∧ (activeWindow dir w s).pkd.len = 0 := by
  have hcount : (activeInst s).lCount.toNat = 0 := h
  simp [activeWindow, commandWindow, symRange, pkdRange, hcount, packedSize_zero]

theorem accessFault_of_empty {v : Window} (hsym : v.sym.len = 0) (hpkd : v.pkd.len = 0) : accessFault s v = none := by
  have hrace : racesOthers s s.turn v = false := by
    have hdest : (destRange v).len = 0 := by unfold destRange; cases v.dir <;> assumption
    have hsource : (sourceRange v).len = 0 := by unfold sourceRange; cases v.dir <;> assumption
    simp [racesOthers, windowsRace, rangesMeet_empty_left hdest, rangesMeet_empty_left hsource]
  simp [accessFault, rangesMeet_empty_left hsym, rangeAdmitted_empty hsym, rangeAdmitted_empty hpkd, hrace]

/-- With no symbol to read, no symbol is out of range, and the body of either direction completes. -/
theorem exec_of_zero_count (hj : commandJob i = some (dir, w)) (hcount : countOf s = 0) (hfit : OperandsFit w s) :
    ∃ t, exec i s = .next t := by
  obtain ⟨hsym, hpkd⟩ := activeWindow_empty dir w hcount
  rw [exec_of_clear hj (operandError_ok_iff.2 hfit) (accessFault_of_empty hsym hpkd)]
  cases dir with
  | pack => exact ⟨_, packBody_of_inRange (by simp [sourceSymbols, hcount, symbolsOutOfRange])⟩
  | unpack => exact ⟨_, rfl⟩

theorem JobOutcome.of_zero_count (h : JobOutcome dir w s t) (hk : s.turn < s.insts.length) (hcount : countOf s = 0)
    (hfit : OperandsFit w s) : CompletedWith .ok 0 (activeInst t) ∧ t.mem = s.mem := by
  cases h with
  | error code hc ne ht => exact absurd (hc.symm.trans (operandError_ok_iff.2 hfit)) ne
  | stored bs drawn ok clear len draw ht =>
    obtain ⟨hsym, hpkd⟩ := activeWindow_empty dir w hcount
    have hbs : bs = [] := List.eq_nil_of_length_eq_zero (len.trans (by cases dir <;> assumption))
    subst ht hbs
    refine ⟨?_, rfl⟩
    rw [activeInst_completeOk w (by simpa using hk)]
    simp only [countOf_countDraw, countOf_storeBytes, hcount, packedSize_zero]
    exact ⟨rfl, rfl, rfl, rfl⟩

end ZeroCount

/-- Settles O31: empty ranges raise no fault and store no byte; the checks before them do not read the count. -/
theorem zeroCount : Obligations.ZeroCount := by
  intro i s hk hcount
  refine ⟨fun dir w hj hfit => ?_, fun hj => exec_ewidth hj hk, fun dir w hj ha => exec_ealign hj hk ha⟩
  obtain ⟨t, ht⟩ := exec_of_zero_count hj hcount hfit
  obtain ⟨hdone, hmem⟩ := (exec_next_of_job hj ht).of_zero_count hk hcount hfit
  exact ⟨t, ht, hdone, exec_elsewhere ht, hmem⟩

/-! ### The completion step of a Busy block (R103) -/

section Completion

variable {s : State} {k : Nat}

theorem completeStep_of_idle (hp : (getInst s k).phase = .idle) : completeStep k s = .next s := by
  simp [completeStep, isBusy, hp]

theorem completeStep_of_ok {i : Instr} (hp : (getInst s k).phase = .busy) (hd : decode (getInst s k).lCmd = .ok i) :
    completeStep k s = exec i { s with turn := k } := by
  simp [completeStep, isBusy, hp, commandWord, hd]

theorem completeStep_of_illegal {e : EncodingError} (hk : k < s.insts.length) (hp : (getInst s k).phase = .busy)
    (hd : decode (getInst s k).lCmd = .error e) :
    ∃ t, completeStep k s = .next t ∧ CompletedError .ecmd { s with turn := k } t :=
  ⟨completeError .ecmd { s with turn := k }, by simp [completeStep, isBusy, hp, commandWord, hd],
    completeError_spec (by decide) hk⟩

theorem firstBusy_of_lowest (hk : k < s.insts.length) (hp : (getInst s k).phase = .busy)
    (hlow : ∀ j < k, (getInst s j).phase = .idle) : firstBusy s = some k := by
  refine List.findIdx?_eq_some_iff_getElem.2 ⟨hk, ?_, fun j hj => ?_⟩
  · simpa [getInst_eq_getElem hk] using hp
  · simpa [getInst_eq_getElem (hj.trans hk)] using congrArg (· = Phase.busy) (hlow j hj)

/-- With nothing scheduled, the lowest Busy block moves (R214; log 6). -/
theorem step_of_lowest_busy (hs : s.Sound) (hi : s.inputs = []) (hk : k < s.insts.length) (hp : (getInst s k).phase = .busy)
    (hlow : ∀ j < k, (getInst s j).phase = .idle) : step s = completeStep k s := by
  simp [step, pick, pickSound, hs.unmarked, hs.unfaulted, hi, firstBusy_of_lowest hk hp hlow]

/-- A WAIT lets the Busy block it polls move, and stays (R97; log 6). -/
theorem step_of_wait_busy {base : Nat} {rest : List Input} (hs : s.Sound) (hi : s.inputs = .wait base :: rest)
    (hf : findReg s (base + 0x10) 4 = some (k, .status)) (hp : (getInst s k).phase = .busy) : step s = completeStep k s := by
  simp [step, pick, pickSound, hs.unmarked, hs.unfaulted, hi, pickWait, statusAddr, regOffset, hf, isBusy, hp]

theorem firstBusy_of_all_idle (h : ∀ b ∈ s.insts, b.phase = .idle) : firstBusy s = none :=
  List.findIdx?_eq_none_iff.2 fun b hb => by simp [h b hb]

end Completion

/-- Settles O6: under each schedule the step is the block's completion step. -/
theorem stepRunsDecoded : Obligations.StepRunsDecoded := by
  intro s k hs hk hp
  refine ⟨fun i hd => ⟨fun rest hi => ?_, fun hi hlow => ?_, fun base rest hi hf => ?_⟩,
    fun e hd => ⟨fun rest hi => ?_, fun hi hlow => ?_, fun base rest hi hf => ?_⟩⟩
  · rw [step_of_blockMoves ⟨hs, hi, hk, hp⟩]
    exact completeStep_of_ok hp hd
  · rw [step_of_lowest_busy hs hi hk hp hlow, completeStep_of_ok hp hd]
  · rw [step_of_wait_busy hs hi hf hp, completeStep_of_ok hp hd]
  · rw [step_of_blockMoves ⟨hs, hi, hk, hp⟩]
    exact completeStep_of_illegal (s := { s with inputs := rest }) hk hp hd
  · rw [step_of_lowest_busy hs hi hk hp hlow]
    exact completeStep_of_illegal hk hp hd
  · rw [step_of_wait_busy hs hi hf hp]
    exact completeStep_of_illegal hk hp hd

/-- Settles O8: no block is Busy to be chosen, and an Idle block named by the schedule has no step to take. -/
theorem idleBlocksRest : Obligations.IdleBlocksRest := by
  refine ⟨fun s hs hi hidle => ?_, fun s k rest hs hi hk hp => ?_⟩
  · simp [step, pick, pickSound, hs.unmarked, hs.unfaulted, hi, firstBusy_of_all_idle hidle]
  · have hpick : pick s = .block k { s with inputs := rest } := by
      simp [pick, pickSound, hs.unmarked, hs.unfaulted, hi, hk]
    simp only [step, hpick]
    exact completeStep_of_idle hp

/-- Settles O7: each check's outcome is that of `exec` with the block active, and none of them asks about a later check. -/
theorem checksInOrder : Obligations.ChecksInOrder := by
  intro s k rest h u
  have hk : u.turn < u.insts.length := h.present
  refine ⟨fun e hd => ?_, fun i hd => ?_⟩
  · rw [step_of_blockMoves h]
    exact completeStep_of_illegal (s := { s with inputs := rest }) h.present h.busy hd
  · have hstep : step s = exec i u := (step_of_blockMoves h).trans (completeStep_of_ok h.busy hd)
    rw [hstep]
    refine ⟨fun hj => exec_ewidth hj hk, fun dir w hj => ⟨exec_ealign hj hk, exec_erange hj hk, ?_, ?_⟩⟩
    · exact fun hfit hmeet => exec_of_accessFault hj hfit (accessFault_of_meet hmeet)
    · exact fun hfit hapart hadmit => exec_of_accessFault hj hfit
        (accessFault_of_not_admitted hapart (by rwa [← Bool.not_eq_true, Bool.and_eq_true]))

/-! ### Acceptance and drop (R101, R102) -/

/-- R67 asks for no clean: the platform is coherent, or the word is illegal, or no source byte of its command is uncleaned. -/
theorem sourceUncleaned_eq_false {s : State} {b : Inst} (h : s.plat.coherent = true ∨ ∀ i, decode b.lCmd = .ok i →
    ∀ x ∈ s.uncleaned, rangeHas (sourceRange (flightWindow s.plat b)) x = false) : sourceUncleaned s b = false := by
  rcases h with hc | hclean
  · simp [sourceUncleaned, hc]
  · unfold sourceUncleaned
    split
    · simp
    · next i hd =>
      have hnone : s.uncleaned.any (rangeHas (sourceRange (flightWindow s.plat b))) = false := by simpa using hclean i hd
      simp [hnone]

theorem launch_of_idle {k : Nat} {v : Word} {s : State} (hp : (getInst s k).phase = .idle)
    (h : sourceUncleaned s (acceptRegs v (getInst s k)) = false) : launch k v s = .next (acceptCommand k v s) := by
  simp [launch, hp, h]

theorem launch_of_busy {k : Nat} {v : Word} {s : State} (hp : (getInst s k).phase = .busy) :
    launch k v s = .next (setInst s k (dropRegs (getInst s k))) := by
  simp [launch, hp]

/-- Settles O39: the step is the launch of the word, and the window it opens is that of the operands just latched. -/
theorem commandAccepted : Obligations.CommandAccepted := by
  intro s a k v rest h hf hp hclean b
  refine ⟨flightWindow s.plat (acceptRegs v b), ?_, rfl, fun i dir w hd hj => ?_⟩
  · rw [step_of_regWrite h hf]
    exact launch_of_idle (s := { s with inputs := rest }) hp (sourceUncleaned_eq_false hclean)
  · rw [flightWindow_of_decode (b := acceptRegs v b) hd hj]
    exact ⟨rfl, rfl⟩

/-- Settles O40: the step is the launch of the word, which a Busy block drops. -/
theorem commandDropped : Obligations.CommandDropped := by
  intro s a k v rest h hf hp
  rw [step_of_regWrite h hf]
  exact launch_of_busy (s := { s with inputs := rest }) hp

end Sys2Proof.Machine

namespace Sys2Proof.Machine

/-! ### Independence of the live registers (R111) -/

/-- The block with other live operand registers and another DROP. -/
def setLive (c y p : Word) (d : Bool) (b : Inst) : Inst := { b with count := c, symAddr := y, pkdAddr := p, drop := d }

/-- The state with other live operand registers and another DROP in the active block. -/
def withLive (c y p : Word) (d : Bool) (s : State) : State := setActive s (setLive c y p d (activeInst s))

/-- A result with its next state changed. -/
def mapNext (f : State → State) : Result → Result
  | .next t => .next (f t)
  | .fault e => .fault e
  | .refused r => .refused r

/-- The operands a command runs on are the same in both blocks (R40). -/
structure SameLatched (b c : Inst) : Prop where
  lCount : c.lCount = b.lCount
  lSymAddr : c.lSymAddr = b.lSymAddr
  lPkdAddr : c.lPkdAddr = b.lPkdAddr

theorem setActive_setActive (s : State) (a b : Inst) : setActive (setActive s a) b = setActive s b := by
  simp [setActive, setInst]

theorem setActive_of_absent {s : State} (h : s.insts.length ≤ s.turn) (b : Inst) : setActive s b = s := by
  simp [setActive, setInst, List.set_eq_of_length_le h]

section Live

variable {c y p : Word} {d : Bool} {s : State}

variable (c y p d s) in
theorem withLive_latched : SameLatched (activeInst s) (activeInst (withLive c y p d s)) := by
  by_cases hk : s.turn < s.insts.length
  · rw [withLive, activeInst_setActive _ hk]
    exact ⟨rfl, rfl, rfl⟩
  · rw [withLive, setActive_of_absent (Nat.le_of_not_lt hk)]
    exact ⟨rfl, rfl, rfl⟩

theorem countOf_withLive : countOf (withLive c y p d s) = countOf s :=
  congrArg BitVec.toNat (withLive_latched c y p d s).lCount

theorem sourceSymbols_withLive : sourceSymbols (withLive c y p d s) = sourceSymbols s := by
  have hword : symbolAt (withLive c y p d s) = symbolAt s := by
    funext i
    simp only [symbolAt, (withLive_latched c y p d s).lSymAddr]
    rfl
  rw [sourceSymbols, countOf_withLive, hword, sourceSymbols]

theorem sourceBytes_withLive (w : Width) : sourceBytes w (withLive c y p d s) = sourceBytes w s := by
  have hbyte : packedAt (withLive c y p d s) = packedAt s := by
    funext j
    simp only [packedAt, (withLive_latched c y p d s).lPkdAddr]
    rfl
  rw [sourceBytes, countOf_withLive, hbyte, sourceBytes]

theorem activeWindow_withLive (dir : Dir) (w : Width) : activeWindow dir w (withLive c y p d s) = activeWindow dir w s := by
  obtain ⟨hcount, hsym, hpkd⟩ := withLive_latched c y p d s
  simp only [activeWindow, commandWindow, symRange, pkdRange, hcount, hsym, hpkd]
  rfl

theorem widthlessWindow_withLive (dir : Dir) :
    widthlessWindow (withLive c y p d s).plat dir (activeInst (withLive c y p d s)) =
      widthlessWindow s.plat dir (activeInst s) := by
  obtain ⟨hcount, hsym, hpkd⟩ := withLive_latched c y p d s
  simp only [widthlessWindow, symRange, hcount, hsym, hpkd]
  rfl

theorem operandError_withLive (w : Width) :
    operandError (withLive c y p d s).plat w (activeInst (withLive c y p d s)) = operandError s.plat w (activeInst s) := by
  obtain ⟨hcount, hsym, hpkd⟩ := withLive_latched c y p d s
  simp only [operandError, symAligned, symRange, pkdRange, hcount, hsym, hpkd]
  rfl

/-- A race is with the other blocks, which are the same. -/
theorem accessFault_withLive (v : Window) : accessFault (withLive c y p d s) v = accessFault s v := by
  have hothers : otherInsts (withLive c y p d s) s.turn = otherInsts s s.turn := List.eraseIdx_set_eq
  have hrace : racesOthers (withLive c y p d s) (withLive c y p d s).turn v = racesOthers s s.turn v :=
    congrArg (fun l => l.any fun b => b.windows.any (windowsRace v)) hothers
  simp only [accessFault, hrace]
  rfl

theorem completeRegs_withLive (code : ErrCode) (n : Nat) :
    setActive (withLive c y p d s) (completeRegs code n (activeInst (withLive c y p d s))) =
      withLive c y p d (setActive s (completeRegs code n (activeInst s))) := by
  by_cases hk : s.turn < s.insts.length
  · rw [withLive, withLive, activeInst_setActive _ hk, activeInst_setActive _ hk, setActive_setActive, setActive_setActive]
    rfl
  · simp only [withLive, setActive_of_absent (Nat.le_of_not_lt hk)]

theorem failCommand_withLive (code : ErrCode) (v : Window) :
    failCommand code v (withLive c y p d s) = withLive c y p d (failCommand code v s) :=
  congrArg (oweInvalidate (cutRange s.plat (destRange v))) (completeRegs_withLive code 0)

theorem completeOk_withLive (w : Width) : completeOk w (withLive c y p d s) = withLive c y p d (completeOk w s) := by
  rw [completeOk, countOf_withLive]
  exact completeRegs_withLive .ok _

theorem packBody_withLive (w : Width) : packBody w (withLive c y p d s) = mapNext (withLive c y p d) (packBody w s) := by
  cases hr : symbolsOutOfRange w (sourceSymbols s) with
  | true =>
    rw [packBody_of_outOfRange hr, packBody_of_outOfRange (sourceSymbols_withLive.symm ▸ hr)]
    rfl
  | false =>
    rw [packBody_of_inRange hr, packBody_of_inRange (sourceSymbols_withLive.symm ▸ hr),
      sourceSymbols_withLive, countOf_withLive, (withLive_latched c y p d s).lPkdAddr]
    exact congrArg _ (completeOk_withLive (s := countDraw _ (storeBytes _ _ s)) w)

theorem unpackBody_withLive (w : Width) : unpackBody w (withLive c y p d s) = mapNext (withLive c y p d) (unpackBody w s) := by
  rw [unpackBody, sourceBytes_withLive, countOf_withLive, (withLive_latched c y p d s).lSymAddr]
  exact congrArg _ (completeOk_withLive (s := storeBytes _ _ s) w)

theorem checkedCommand_withLive (dir : Dir) (w : Width) {r q : Result} (h : q = mapNext (withLive c y p d) r) :
    checkedCommand dir w (withLive c y p d s) q = mapNext (withLive c y p d) (checkedCommand dir w s r) := by
  subst h
  have herr : operandError (withLive c y p d s).plat w (activeInst (withLive c y p d s)) =
      operandError s.plat w (activeInst s) := operandError_withLive w
  have hacc : accessFault (withLive c y p d s) (activeWindow dir w (withLive c y p d s)) =
      accessFault s (activeWindow dir w s) := by
    rw [activeWindow_withLive, accessFault_withLive]
  by_cases hok : operandError s.plat w (activeInst s) = .ok
  · cases hf : accessFault s (activeWindow dir w s) with
    | some f =>
      rw [checkedCommand_of_fault hok hf, checkedCommand_of_fault (herr.trans hok) (hacc.trans hf)]
      rfl
    | none => rw [checkedCommand_of_clear hok hf, checkedCommand_of_clear (herr.trans hok) (hacc.trans hf)]
  · rw [checkedCommand_of_error hok, checkedCommand_of_error (herr ▸ hok), herr, activeWindow_withLive, failCommand_withLive]
    rfl

theorem exec_withLive (i : Instr) : exec i (withLive c y p d s) = mapNext (withLive c y p d) (exec i s) := by
  cases hj : commandJob i with
  | none =>
    obtain ⟨dir, b, rfl, hb⟩ := dispatched_of_no_job hj
    rw [exec_of_no_width dir _ hb, exec_of_no_width dir _ hb, widthlessWindow_withLive, failCommand_withLive]
    rfl
  | some job =>
    obtain ⟨dir, w⟩ := job
    rw [exec_of_job hj, exec_of_job hj]
    cases dir with
    | pack => exact checkedCommand_withLive .pack w (packBody_withLive w)
    | unpack => exact checkedCommand_withLive .unpack w (unpackBody_withLive w)

end Live

/-- Settles O35: changing the live registers before the command and after it comes to the same. -/
theorem independentOfLiveRegisters : Obligations.IndependentOfLiveRegisters := by
  intro i s c y p d live
  refine ⟨fun t ht => ?_, fun f hf => ?_⟩
  · exact (exec_withLive i).trans (congrArg (mapNext (withLive c y p d)) ht)
  · exact (exec_withLive i).trans (congrArg (mapNext (withLive c y p d)) hf)

end Sys2Proof.Machine

namespace Sys2Proof.Machine

/-! ### What the padding nibble reaches (R73, R110) -/

section Padding

variable {pad pad' : BitVec 4} {syms : List Nat} {j : Nat}

/-- The padding of a 4-bit pack is the upper nibble of the last byte of an odd count (R73). -/
theorem byteAt_pack4Bytes_pad (h : ∀ v ∈ syms, v < 2 ^ 4) (hj : j < packedSize .w4 syms.length) :
    byteAt (pack4Bytes pad syms) j % 2 ^ 4 = byteAt (pack4Bytes pad' syms) j % 2 ^ 4 ∧
    ((syms.length % 2 = 1 → j + 1 ≠ packedSize .w4 syms.length) →
      byteAt (pack4Bytes pad syms) j = byteAt (pack4Bytes pad' syms) j) := by
  rw [packedSize_w4] at hj ⊢
  have hlow : 2 * j < syms.length := by omega
  rw [byteAt_pack4Bytes h hlow, byteAt_pack4Bytes h hlow]
  refine ⟨by omega, fun hfree => ?_⟩
  rw [getD_eq_getD (by omega : 2 * j + 1 < syms.length) pad.toNat pad'.toNat]

/-- The padding of a 12-bit pack is the upper nibble of the last byte of an odd count (R77). -/
theorem byteAt_pack12Bytes_pad (h : ∀ v ∈ syms, v < 2 ^ 12) (hj : j < packedSize .w12 syms.length) :
    byteAt (pack12Bytes pad syms) j % 2 ^ 4 = byteAt (pack12Bytes pad' syms) j % 2 ^ 4 ∧
    ((syms.length % 2 = 1 → j + 1 ≠ packedSize .w12 syms.length) →
      byteAt (pack12Bytes pad syms) j = byteAt (pack12Bytes pad' syms) j) := by
  rw [packedSize_w12] at hj ⊢
  obtain ⟨g, hg⟩ : ∃ g, j = 3 * g ∨ j = 3 * g + 1 ∨ j = 3 * g + 2 := ⟨j / 3, by omega⟩
  have hlow : 2 * g < syms.length := by omega
  have hlt := getD_lt_of_forall h (by decide : 0 < 2 ^ 12) (2 * g)
  obtain ⟨h0, h1, h2⟩ := byteAt_pack12Bytes (pad := pad) h hlow
  obtain ⟨h0', h1', h2'⟩ := byteAt_pack12Bytes (pad := pad') h hlow
  rcases hg with rfl | rfl | rfl
  · rw [h0, h0']
    exact ⟨rfl, fun _ => rfl⟩
  · rw [h1, h1']
    refine ⟨by omega, fun hfree => ?_⟩
    rw [getD_eq_getD (by omega : 2 * g + 1 < syms.length) pad.toNat pad'.toNat]
  · rw [h2, h2', getD_eq_getD (by omega : 2 * g + 1 < syms.length) pad.toNat pad'.toNat]
    exact ⟨rfl, fun _ => rfl⟩

/-- With another padding nibble only the upper nibble of the last byte of a pack that draws may differ. -/
theorem byteAt_packBytes_pad {w : Width} (h : ∀ v ∈ syms, v < 2 ^ w.bits) (hj : j < packedSize w syms.length) :
    byteAt (packBytes w pad syms) j % 2 ^ 4 = byteAt (packBytes w pad' syms) j % 2 ^ 4 ∧
    ((drawsPadding w syms.length = true → j + 1 ≠ packedSize w syms.length) →
      byteAt (packBytes w pad syms) j = byteAt (packBytes w pad' syms) j) := by
  cases w with
  | w4 => simpa [packBytes, drawsPadding] using byteAt_pack4Bytes_pad h hj
  | w6 => exact ⟨rfl, fun _ => rfl⟩
  | w8 => exact ⟨rfl, fun _ => rfl⟩
  | w12 => simpa [packBytes, drawsPadding] using byteAt_pack12Bytes_pad h hj

end Padding

/-- The results `t` and `u` of a command on `s` differ at most where R110 lets them. -/
structure SameButPadding (i : Instr) (s t u : State) : Prop where
  block : activeInst u = activeInst t
  bytes : ∀ a, (∀ w, commandJob i = some (.pack, w) → drawsPadding w (countOf s) = true →
    a + 1 ≠ (activeInst s).lPkdAddr.toNat + packedSize w (countOf s)) → readByte u.mem a = readByte t.mem a
  nibbles : ∀ a, (readByte u.mem a).toNat % 2 ^ 4 = (readByte t.mem a).toNat % 2 ^ 4

section Draws

variable {i : Instr} {w : Width} {s t u : State}

theorem SameButPadding.of_mem (hb : activeInst u = activeInst t) (hm : u.mem = t.mem) : SameButPadding i s t u :=
  ⟨hb, fun a _ => by rw [hm], fun a => by rw [hm]⟩

/-- What a pack with the padding nibble `pad` stores and completes with. -/
def packed (w : Width) (pad : BitVec 4) (s : State) : State :=
  completeOk w (countDraw (drawsPadding w (countOf s)) (storeBytes (activeInst s).lPkdAddr.toNat
    (packBytes w pad (sourceSymbols s)) s))

theorem readByte_packed_inside (pad : BitVec 4) {j : Nat} (hj : j < packedSize w (countOf s)) :
    readByte (packed w pad s).mem ((activeInst s).lPkdAddr.toNat + j) = (packBytes w pad (sourceSymbols s)).getD j 0 :=
  readByte_writeBytes_inside _ _ _ _ (by simpa using hj)

theorem readByte_packed_outside (pad : BitVec 4) {a : Nat}
    (ha : ¬((activeInst s).lPkdAddr.toNat ≤ a ∧ a < (activeInst s).lPkdAddr.toNat + packedSize w (countOf s))) :
    readByte (packed w pad s).mem a = readByte s.mem a :=
  readByte_writeBytes_outside _ _ _ _ (by simpa using ha)

theorem packed_byte_or_outside (w : Width) (s : State) (a : Nat) :
    (∃ j < packedSize w (countOf s), a = (activeInst s).lPkdAddr.toNat + j) ∨
    ¬((activeInst s).lPkdAddr.toNat ≤ a ∧ a < (activeInst s).lPkdAddr.toNat + packedSize w (countOf s)) := by
  by_cases ha : (activeInst s).lPkdAddr.toNat ≤ a ∧ a < (activeInst s).lPkdAddr.toNat + packedSize w (countOf s)
  · obtain ⟨j, rfl⟩ := Nat.exists_eq_add_of_le ha.1
    exact .inl ⟨j, Nat.lt_of_add_lt_add_left ha.2, rfl⟩
  · exact .inr ha

/-- Packs that drew different nibbles, the count of draws included, differ by the padding only. -/
theorem packed_sameButPadding (hj : commandJob i = some (.pack, w)) (hr : ∀ v ∈ sourceSymbols s, v < 2 ^ w.bits)
    (pad pad' : BitVec 4) (d : Nat) : SameButPadding i s (packed w pad s) (packed w pad' { s with draws := d }) := by
  have hread : ∀ j < packedSize w (countOf s),
      readByte (packed w pad' { s with draws := d }).mem ((activeInst s).lPkdAddr.toNat + j) =
        (packBytes w pad' (sourceSymbols s)).getD j 0 :=
    fun _ hlt => readByte_packed_inside (s := { s with draws := d }) pad' hlt
  refine ⟨rfl, fun a hfree => ?_, fun a => ?_⟩
  · rcases packed_byte_or_outside w s a with ⟨j, hlt, rfl⟩ | hout
    · rw [hread j hlt, readByte_packed_inside pad hlt]
      refine BitVec.eq_of_toNat_eq ((byteAt_packBytes_pad hr (by simpa using hlt)).2 fun hdraw => ?_)
      rw [sourceSymbols_length] at hdraw ⊢
      have hlast := hfree w hj hdraw
      omega
    · rw [readByte_packed_outside pad hout]
      exact readByte_packed_outside (s := { s with draws := d }) pad' hout
  · rcases packed_byte_or_outside w s a with ⟨j, hlt, rfl⟩ | hout
    · rw [hread j hlt, readByte_packed_inside pad hlt]
      exact (byteAt_packBytes_pad hr (by simpa using hlt)).1
    · rw [readByte_packed_outside pad hout, ← readByte_packed_outside (s := { s with draws := d }) pad' hout]

theorem packBody_draws {t : State} (hj : commandJob i = some (.pack, w)) (h : packBody w s = .next t) (d : Nat) :
    ∃ u, packBody w { s with draws := d } = .next u ∧ SameButPadding i s t u := by
  cases hr : symbolsOutOfRange w (sourceSymbols s) with
  | true => rw [packBody_of_outOfRange hr] at h; cases h
  | false =>
    rw [packBody_of_inRange hr] at h
    cases h
    have hlt : ∀ v ∈ sourceSymbols s, v < 2 ^ w.bits := by simpa [symbolsOutOfRange] using hr
    exact ⟨_, packBody_of_inRange (s := { s with draws := d }) hr, packed_sameButPadding hj hlt _ _ d⟩

end Draws

/-- Settles O36: the checks, the faults and an unpack's bytes do not read the count of draws, a pack's bytes only as padding. -/
theorem determinedButPadding : Obligations.DeterminedButPadding := by
  intro i s t d h
  suffices hsame : ∃ u, exec i { s with draws := d } = .next u ∧ SameButPadding i s t u by
    obtain ⟨u, hu, hblock, hbytes, hnibbles⟩ := hsame
    exact ⟨u, hu, hblock, hbytes, hnibbles⟩
  cases hj : commandJob i with
  | none =>
    obtain ⟨dir, b, rfl, hb⟩ := dispatched_of_no_job hj
    rw [exec_of_no_width dir s hb] at h
    cases h
    exact ⟨_, exec_of_no_width dir _ hb, .of_mem rfl rfl⟩
  | some job =>
    obtain ⟨dir, w⟩ := job
    cases exec_next_of_job hj h with
    | error code hc ne ht =>
      subst hc ht
      exact ⟨_, exec_of_failed_check (s := { s with draws := d }) hj ne, .of_mem rfl rfl⟩
    | stored bs drawn ok clear len draw ht =>
      rw [exec_of_clear hj ok clear] at h
      rw [exec_of_clear (s := { s with draws := d }) hj ok clear]
      cases dir with
      | pack => exact packBody_draws hj h d
      | unpack => cases h; exact ⟨_, rfl, .of_mem rfl rfl⟩

end Sys2Proof.Machine

namespace Sys2Proof.Machine

/-! ### The packed bytes as one stream (R126) -/

theorem Width.bits_pos (w : Width) : 0 < w.bits := by cases w <;> decide

/-- A bit of any bytes is the one that unpacking reads at its place in the stream. -/
theorem getLsbD_eq_unpackAt_testBit (w : Width) (bs : List Byte) (j : Nat) {t : Nat} (ht : t < 8) :
    (bs.getD j 0).getLsbD t = (unpackAt w bs ((8 * j + t) / w.bits)).testBit ((8 * j + t) % w.bits) := by
  rw [unpackAt_testBit bs w _ (Nat.mod_lt _ (Width.bits_pos w)), getLsbD_stream bs (Nat.div_add_mod _ _) ht, byteAt,
    BitVec.testBit_toNat]

section Stream

variable {w : Width} {pad : BitVec 4} {syms : List Nat} {j t : Nat}

theorem packBytes_getLsbD_of_lt (h : ∀ v ∈ syms, v < 2 ^ w.bits) (ht : t < 8) (hp : 8 * j + t < syms.length * w.bits) :
    ((packBytes w pad syms).getD j 0).getLsbD t =
      (syms.getD ((8 * j + t) / w.bits) 0).testBit ((8 * j + t) % w.bits) := by
  have hi : (8 * j + t) / w.bits < syms.length := (Nat.div_lt_iff_lt_mul (Width.bits_pos w)).2 hp
  rw [getLsbD_eq_unpackAt_testBit w _ j ht, unpackAt_packBytes pad h hi]

/-- A 6-bit pack unpacks to 0 past its last symbol too, so its padding bits are 0 (R75). -/
theorem pack6Bytes_getLsbD_of_le (h : ∀ v ∈ syms, v < 2 ^ 6) (ht : t < 8) (hp : syms.length * 6 ≤ 8 * j + t) :
    ((pack6Bytes syms).getD j 0).getLsbD t = false := by
  have hi : syms.length ≤ (8 * j + t) / 6 := (Nat.le_div_iff_mul_le (by decide)).2 hp
  have hzero : unpackAt .w6 (pack6Bytes syms) ((8 * j + t) / 6) = 0 :=
    (unpack6At_pack6Bytes h _).trans (List.getD_eq_default _ _ hi)
  rw [getLsbD_eq_unpackAt_testBit .w6 _ j ht, Width.bits, hzero, Nat.zero_testBit]

/-- Past the last symbol of width 4 or 12 there is only the upper nibble of the last byte of an odd count (R73, R77). -/
theorem packBytes_getLsbD_of_le (h : ∀ v ∈ syms, v < 2 ^ w.bits) (hw : w = .w4 ∨ w = .w12)
    (hj : j < packedSize w syms.length) (ht : t < 8) (hp : syms.length * w.bits ≤ 8 * j + t) :
    ((packBytes w pad syms).getD j 0).getLsbD t = pad.getLsbD (t - 4) := by
  obtain ⟨hodd, hlast, ht4⟩ : syms.length % 2 = 1 ∧ j = packedSize w syms.length - 1 ∧ t = t - 4 + 4 := by
    rcases hw with rfl | rfl <;> simp only [packedSize, Width.bits] at hj hp ⊢ <;> omega
  rw [← BitVec.testBit_toNat, ← BitVec.testBit_toNat pad, ← byteAt_packBytes_padding h hw hodd, ← hlast,
    Nat.testBit_div_two_pow, ← ht4, byteAt]

end Stream

/-- Settles O14: before the end the bit is what unpacking would read there, and past it the padding of the width. -/
theorem packIsStream : Obligations.PackIsStream := by
  intro w pad syms h
  refine ⟨packBytes_length w pad syms, fun j hj t ht => ?_⟩
  split_ifs with hp hw
  · exact packBytes_getLsbD_of_lt h ht hp
  · subst hw
    exact pack6Bytes_getLsbD_of_le h ht (not_lt.1 hp)
  · cases w with
    | w4 => exact packBytes_getLsbD_of_le h (.inl rfl) hj ht (not_lt.1 hp)
    | w6 => exact absurd rfl hw
    | w8 =>
      rw [packedSize_w8] at hj
      rw [Width.bits] at hp
      omega
    | w12 => exact packBytes_getLsbD_of_le h (.inr rfl) hj ht (not_lt.1 hp)

/-! ### Symbols out of range (R120) -/

theorem symbolsOutOfRange_of_symbolAt {w : Width} {s : State} {i : Nat} (hi : i < countOf s) (h : 2 ^ w.bits ≤ symbolAt s i) :
    symbolsOutOfRange w (sourceSymbols s) = true :=
  List.any_eq_true.2 ⟨symbolAt s i, List.mem_map_of_mem (List.mem_range.2 hi), decide_eq_true h⟩

/-- Settles O15: a command of either form that passes its checks is its body, which tests the symbols first. -/
theorem outOfRangeSymbolFaults : Obligations.OutOfRangeSymbolFaults := by
  intro w s i hrun hi hout
  obtain ⟨hok, hclear⟩ := hrun.checks
  have hbody : packBody w s = .fault .symbolRange := packBody_of_outOfRange (symbolsOutOfRange_of_symbolAt hi hout)
  have hexec : ∀ c, c = dispatchedInstr .pack w.bits ∨ c = directInstr .pack w → exec c s = .fault .symbolRange :=
    fun c hc => (exec_of_clear (commandJob_of_width hc) hok hclear).trans hbody
  exact ⟨hexec _ (.inr rfl), hexec _ (.inl rfl)⟩

end Sys2Proof.Machine

namespace Sys2Proof.Machine

/-! ### The symbols an unpack reads, for every width and any bytes (R145, R147) -/

theorem unpack4At_lt (bs : List Byte) (i : Nat) : unpack4At bs i < 2 ^ 4 := by
  obtain ⟨g, rfl | rfl⟩ := i.even_or_odd'
  · rw [unpack4At_even]; omega
  · have hbyte := byteAt_lt bs g
    rw [unpack4At_odd]; omega

theorem unpack6At_lt (bs : List Byte) (i : Nat) : unpack6At bs i < 2 ^ 6 := by
  obtain ⟨g, hi⟩ : ∃ g, i = 4 * g ∨ i = 4 * g + 1 ∨ i = 4 * g + 2 ∨ i = 4 * g + 3 := ⟨i / 4, by omega⟩
  have h0 := byteAt_lt bs (3 * g)
  have h1 := byteAt_lt bs (3 * g + 1)
  have h2 := byteAt_lt bs (3 * g + 2)
  rcases hi with rfl | rfl | rfl | rfl
  · rw [unpack6At_zero]; omega
  · rw [unpack6At_one]; omega
  · rw [unpack6At_two]; omega
  · rw [unpack6At_three]; omega

theorem unpack12At_lt (bs : List Byte) (i : Nat) : unpack12At bs i < 2 ^ 12 := by
  obtain ⟨g, rfl | rfl⟩ := i.even_or_odd'
  · have h0 := byteAt_lt bs (3 * g)
    rw [unpack12At_even]; omega
  · have h1 := byteAt_lt bs (3 * g + 1)
    have h2 := byteAt_lt bs (3 * g + 2)
    rw [unpack12At_odd]; omega

/-- An unpacked symbol has no bit from its width up (R145). -/
theorem unpackAt_lt (w : Width) (bs : List Byte) (i : Nat) : unpackAt w bs i < 2 ^ w.bits := by
  cases w with
  | w4 => exact unpack4At_lt bs i
  | w6 => exact unpack6At_lt bs i
  | w8 => exact byteAt_lt bs i
  | w12 => exact unpack12At_lt bs i

theorem unpackSymbols_lt (w : Width) (bs : List Byte) (n : Nat) : ∀ v ∈ unpackSymbols w bs n, v < 2 ^ w.bits :=
  List.forall_mem_map.2 fun i _ => unpackAt_lt w bs i

theorem unpackSymbols_getD (w : Width) (bs : List Byte) {n i : Nat} (hi : i < n) (d : Nat) :
    (unpackSymbols w bs n).getD i d = unpackAt w bs i := by
  simp [unpackSymbols, hi]

/-- Settles O21: by the stream rule a bit packed is the bit that unpacking read at its place. -/
theorem packInvertsUnpack : Obligations.PackInvertsUnpack := by
  intro w pad n bs _
  have hlt := unpackSymbols_lt w bs n
  obtain ⟨_, hstream⟩ := packIsStream w pad (unpackSymbols w bs n) hlt
  rw [unpackSymbols_length] at hstream
  refine ⟨hlt, fun j hj t ht => ?_⟩
  rw [hstream j hj t ht]
  refine ite_congr rfl (fun hp => ?_) fun _ => rfl
  have hi : (8 * j + t) / w.bits < n := (Nat.div_lt_iff_lt_mul (Width.bits_pos w)).2 hp
  rw [unpackSymbols_getD w bs hi, ← getLsbD_eq_unpackAt_testBit w bs j ht]

/-! ### What an unpack command leaves in memory (R141 to R145) -/

theorem sourceBytes_getD {w : Width} {s : State} {j : Nat} (hj : j < packedSize w (countOf s)) :
    (sourceBytes w s).getD j 0 = packedAt s j := by
  simp [sourceBytes, hj]

theorem toNat_packedAt {w : Width} {s : State} {j : Nat} (hj : j < packedSize w (countOf s)) :
    (packedAt s j).toNat = byteAt (sourceBytes w s) j := by
  rw [byteAt, sourceBytes_getD hj]

/-- An unpack command of either form: its completion, and each symbol word read whole. -/
theorem exec_unpack_spec {c : Instr} {w : Width} {s : State} (hj : commandJob c = some (.unpack, w))
    (hrun : CommandRuns .unpack w s) :
    ∃ t, exec c s = .next t ∧ CompletedOk .unpack w s t ∧
      ∀ i < countOf s, symbolAt t i = unpackAt w (sourceBytes w s) i := by
  obtain ⟨t, hexec, hdone, hsymbols⟩ := unpackCommand_spec hrun
  refine ⟨t, (exec_of_job hj s).trans hexec, hdone, fun i hi => ?_⟩
  rw [hsymbols i hi]
  exact Nat.mod_eq_of_lt ((unpackAt_lt w _ i).trans_le (two_pow_bits_le w _))

/-- Settles O16: two symbols a byte. -/
theorem unpack4Symbols : Obligations.Unpack4Symbols := by
  intro s hrun
  obtain ⟨t, hexec, hdone, hsymbols⟩ := exec_unpack_spec (c := .unpack4) rfl hrun
  refine ⟨t, hexec, hdone, fun i hi => ?_⟩
  rw [hsymbols i hi, toNat_packedAt (w := .w4) (by rw [packedSize_w4]; omega)]
  obtain ⟨g, rfl | rfl⟩ := i.even_or_odd'
  · rw [if_pos (by omega), show 2 * g / 2 = g by omega]
    exact unpack4At_even _ g
  · rw [if_neg (by omega), show (2 * g + 1) / 2 = g by omega]
    exact unpack4At_odd _ g

/-- Settles O17: four symbols in three bytes. -/
theorem unpack6Symbols : Obligations.Unpack6Symbols := by
  intro s hrun
  obtain ⟨t, hexec, hdone, hsymbols⟩ := exec_unpack_spec (c := .unpack6) rfl hrun
  have hbyte : ∀ j < 3 * (countOf s / 4) + countOf s % 4, (packedAt s j).toNat = byteAt (sourceBytes .w6 s) j :=
    fun j hj => toNat_packedAt (by rwa [packedSize_w6])
  refine ⟨t, hexec, hdone, fun k m hm hi => ?_⟩
  rw [hsymbols _ hi]
  obtain rfl | rfl | rfl | rfl : m = 0 ∨ m = 1 ∨ m = 2 ∨ m = 3 := by omega
  · rw [if_pos rfl, hbyte _ (by omega)]
    exact unpack6At_zero _ k
  · rw [if_neg (by decide), if_pos rfl, hbyte _ (by omega), hbyte _ (by omega)]
    exact unpack6At_one _ k
  · rw [if_neg (by decide), if_neg (by decide), if_pos rfl, hbyte _ (by omega), hbyte _ (by omega)]
    exact unpack6At_two _ k
  · rw [if_neg (by decide), if_neg (by decide), if_neg (by decide), hbyte _ (by omega)]
    exact unpack6At_three _ k

/-- Settles O18: the symbols are the bytes themselves. -/
theorem unpack8Symbols : Obligations.Unpack8Symbols := by
  intro s hrun
  obtain ⟨t, hexec, hdone, hsymbols⟩ := exec_unpack_spec (c := .unpack8) rfl hrun
  refine ⟨t, hexec, hdone, fun i hi => ?_⟩
  rw [hsymbols i hi, toNat_packedAt (w := .w8) (by rwa [packedSize_w8])]
  rfl

/-- Settles O19: two symbols in three bytes. -/
theorem unpack12Symbols : Obligations.Unpack12Symbols := by
  intro s hrun
  obtain ⟨t, hexec, hdone, hsymbols⟩ := exec_unpack_spec (c := .unpack12) rfl hrun
  have hbyte : ∀ j < 3 * (countOf s / 2) + 2 * (countOf s % 2), (packedAt s j).toNat = byteAt (sourceBytes .w12 s) j :=
    fun j hj => toNat_packedAt (by rwa [packedSize_w12])
  refine ⟨t, hexec, hdone, fun i hi => ?_⟩
  rw [hsymbols i hi]
  obtain ⟨g, rfl | rfl⟩ := i.even_or_odd'
  · rw [if_pos (by omega), show 2 * g / 2 = g by omega, hbyte _ (by omega), hbyte _ (by omega)]
    exact unpack12At_even _ g
  · rw [if_neg (by omega), show (2 * g + 1) / 2 = g by omega, hbyte _ (by omega), hbyte _ (by omega)]
    exact unpack12At_odd _ g

/-- Settles O24: below the width a symbol's bits are the stream's, and from the width up it has none. -/
theorem unpackCommandStream : Obligations.UnpackCommandStream := by
  intro c w s hc hrun
  obtain ⟨t, hexec, hdone, hsymbols⟩ := exec_unpack_spec (commandJob_of_width hc) hrun
  refine ⟨t, hexec, hdone, fun i hi k => ?_⟩
  rw [hsymbols i hi]
  by_cases hk : k < w.bits
  · rw [unpackAt_testBit _ w i hk, sourceBytes_getD (streamByte_lt_packedSize hi hk), decide_eq_true hk, Bool.true_and]
  · rw [decide_eq_false hk, Bool.false_and]
    exact Nat.testBit_lt_two_pow ((unpackAt_lt w _ i).trans_le (Nat.pow_le_pow_right (by decide) (not_lt.1 hk)))

end Sys2Proof.Machine

/-! PROOFS of the dispatch family. An unsupported width has no job and completes with EWIDTH; a job has one outcome in all states that
agree on the latched operands, parameters, memory, draws and other blocks, so the command word matters to nothing but CMD. -/

namespace Sys2Proof.Machine

/-! ### Unsupported widths (R161) -/

theorem dispatch_eq_none_iff {b : Nat} : dispatch b = none ↔ b ≠ 4 ∧ b ≠ 6 ∧ b ≠ 8 ∧ b ≠ 12 := by
  unfold dispatch
  split <;> simp_all

/-- Settles O26: neither command has a job, and a command without one completes with EWIDTH. -/
theorem unsupportedWidth : Obligations.UnsupportedWidth := by
  intro b s h4 h6 h8 h12 hk
  have hb : dispatch b = none := dispatch_eq_none_iff.2 ⟨h4, h6, h8, h12⟩
  exact ⟨exec_ewidth (congrArg (Option.map _) hb) hk, exec_ewidth (congrArg (Option.map _) hb) hk⟩

/-! ### What a command reads of the state (R103) -/

/-- The states are the same in all that a command with a width reads: the parameters, memory, the count of draws, the latched
operands of its block, and the other blocks. -/
structure SameReads (s u : State) : Prop where
  plat : u.plat = s.plat
  mem : u.mem = s.mem
  draws : u.draws = s.draws
  latched : SameLatched (activeInst s) (activeInst u)
  others : otherInsts u u.turn = otherInsts s s.turn

namespace SameReads

variable {s u : State} {dir : Dir} {w : Width} (h : SameReads s u)

include h

theorem countOf_eq : countOf u = countOf s := congrArg BitVec.toNat h.latched.lCount

theorem sourceSymbols_eq : sourceSymbols u = sourceSymbols s := by
  have hword : symbolAt u = symbolAt s := by
    funext i
    rw [symbolAt, h.plat, h.mem, h.latched.lSymAddr, symbolAt]
  rw [sourceSymbols, h.countOf_eq, hword, sourceSymbols]

theorem sourceBytes_eq (w : Width) : sourceBytes w u = sourceBytes w s := by
  have hbyte : packedAt u = packedAt s := by
    funext j
    rw [packedAt, h.mem, h.latched.lPkdAddr, packedAt]
  rw [sourceBytes, h.countOf_eq, hbyte, sourceBytes]

theorem symRange_eq : symRange u.plat (activeInst u) = symRange s.plat (activeInst s) := by
  rw [symRange, h.plat, h.latched.lSymAddr, h.latched.lCount, symRange]

theorem pkdRange_eq (w : Width) : pkdRange w (activeInst u) = pkdRange w (activeInst s) := by
  rw [pkdRange, h.latched.lPkdAddr, h.latched.lCount, pkdRange]

theorem activeWindow_eq (dir : Dir) (w : Width) : activeWindow dir w u = activeWindow dir w s := by
  rw [activeWindow, commandWindow, h.symRange_eq, h.pkdRange_eq, activeWindow, commandWindow]

theorem operandError_eq (w : Width) : operandError u.plat w (activeInst u) = operandError s.plat w (activeInst s) := by
  have haligned : symAligned u.plat (activeInst u) = symAligned s.plat (activeInst s) := by
    rw [symAligned, h.plat, h.latched.lSymAddr, symAligned]
  rw [operandError, haligned, h.symRange_eq, h.pkdRange_eq, h.plat, operandError]

theorem accessFault_eq (dir : Dir) (w : Width) : accessFault u (activeWindow dir w u) = accessFault s (activeWindow dir w s) := by
  rw [h.activeWindow_eq, accessFault, racesOthers, h.others, h.plat, accessFault, racesOthers]

theorem checkedCommand_sameOutcome {r q : Result} (hbody : SameOutcome dir w s u r q) :
    SameOutcome dir w s u (checkedCommand dir w s r) (checkedCommand dir w u q) := by
  have herr := h.operandError_eq w
  have hacc := h.accessFault_eq dir w
  by_cases hok : operandError s.plat w (activeInst s) = .ok
  · cases hf : accessFault s (activeWindow dir w s) with
    | some f =>
      rw [checkedCommand_of_fault hok hf, checkedCommand_of_fault (herr.trans hok) (hacc.trans hf)]
      exact .fault f
    | none => rwa [checkedCommand_of_clear hok hf, checkedCommand_of_clear (herr.trans hok) (hacc.trans hf)]
  · rw [checkedCommand_of_error hok, checkedCommand_of_error (herr ▸ hok), herr, h.activeWindow_eq]
    exact .error _ rfl hok

theorem packBody_sameOutcome (w : Width) : SameOutcome .pack w s u (packBody w s) (packBody w u) := by
  have hsyms := h.sourceSymbols_eq
  cases hr : symbolsOutOfRange w (sourceSymbols s) with
  | true =>
    rw [packBody_of_outOfRange hr, packBody_of_outOfRange (hsyms.symm ▸ hr)]
    exact .fault _
  | false =>
    rw [packBody_of_inRange hr, packBody_of_inRange (hsyms.symm ▸ hr), hsyms, h.countOf_eq, h.draws, h.latched.lPkdAddr]
    exact .stored _ _ (by simp [destRange, activeWindow, commandWindow, pkdRange, countOf])

theorem unpackBody_sameOutcome (w : Width) : SameOutcome .unpack w s u (unpackBody w s) (unpackBody w u) := by
  rw [unpackBody, unpackBody, h.sourceBytes_eq, h.countOf_eq, h.plat, h.latched.lSymAddr]
  exact .stored _ false (by simp [destRange, activeWindow, commandWindow, symRange, countOf])

/-- Two commands of one direction and width, dispatched or width-specific, have the same outcome. -/
theorem exec_sameOutcome {i j : Instr} (hi : commandJob i = some (dir, w)) (hj : commandJob j = some (dir, w)) :
    SameOutcome dir w s u (exec i s) (exec j u) := by
  rw [exec_of_job hi, exec_of_job hj]
  cases dir with
  | pack => exact h.checkedCommand_sameOutcome (h.packBody_sameOutcome w)
  | unpack => exact h.checkedCommand_sameOutcome (h.unpackBody_sameOutcome w)

end SameReads

/-! ### The command word a block latched (R165) -/

/-- The state with another command word latched in the active block. -/
def withCommand (v : Word) (s : State) : State := setActive s { activeInst s with lCmd := v }

section Word

variable {s : State} {dir : Dir} {w : Width}

theorem withCommand_of_absent (hk : s.insts.length ≤ s.turn) (v : Word) : withCommand v s = s := setActive_of_absent hk _

theorem activeInst_withCommand (hk : s.turn < s.insts.length) (v : Word) :
    activeInst (withCommand v s) = { activeInst s with lCmd := v } :=
  activeInst_setActive _ hk

theorem withCommand_withCommand (v x : Word) (s : State) : withCommand v (withCommand x s) = withCommand v s := by
  rcases Nat.lt_or_ge s.turn s.insts.length with hk | hk
  · rw [withCommand, activeInst_withCommand hk, withCommand, setActive_setActive, withCommand]
  · rw [withCommand_of_absent hk]

theorem sameReads_withCommand (v : Word) (s : State) : SameReads s (withCommand v s) where
  plat := rfl
  mem := rfl
  draws := rfl
  latched := by
    rcases Nat.lt_or_ge s.turn s.insts.length with hk | hk
    · rw [activeInst_withCommand hk]
      exact ⟨rfl, rfl, rfl⟩
    · rw [withCommand_of_absent hk]
      exact ⟨rfl, rfl, rfl⟩
  others := List.eraseIdx_set_eq

/-- `complete(code)` neither reads nor writes the command word (R106). -/
theorem completeRegs_withCommand (code : ErrCode) (n : Nat) (v : Word) (s : State) :
    setActive (withCommand v s) (completeRegs code n (activeInst (withCommand v s))) =
      withCommand v (setActive s (completeRegs code n (activeInst s))) := by
  rcases Nat.lt_or_ge s.turn s.insts.length with hk | hk
  · rw [activeInst_withCommand hk, withCommand, withCommand, activeInst_setActive _ hk, setActive_setActive, setActive_setActive]
    rfl
  · simp only [withCommand, setActive_of_absent hk]

theorem failCommand_withCommand (code : ErrCode) (r : Window) (v : Word) (s : State) :
    failCommand code r (withCommand v s) = withCommand v (failCommand code r s) :=
  congrArg (oweInvalidate (cutRange s.plat (destRange r))) (completeRegs_withCommand code 0 v s)

theorem completeOk_withCommand (w : Width) (v : Word) (s : State) :
    completeOk w (withCommand v s) = withCommand v (completeOk w s) := by
  rw [completeOk, (sameReads_withCommand v s).countOf_eq]
  exact completeRegs_withCommand .ok _ v s

/-- The same outcome where another word is latched is that outcome with the word latched in its next state. -/
theorem SameOutcome.eq_mapNext_withCommand {v : Word} {r q : Result} (h : SameOutcome dir w s (withCommand v s) r q) :
    q = mapNext (withCommand v) r := by
  cases h with
  | fault f => rfl
  | error code hc ne => exact congrArg _ (failCommand_withCommand code _ v s)
  | stored bs drawn len => exact congrArg _ (completeOk_withCommand w v (countDraw drawn (storeBytes _ bs s)))

theorem exec_withCommand {i j : Instr} (hi : commandJob i = some (dir, w)) (hj : commandJob j = some (dir, w)) (v : Word) :
    exec j (withCommand v s) = mapNext (withCommand v) (exec i s) :=
  ((sameReads_withCommand v s).exec_sameOutcome hi hj).eq_mapNext_withCommand

end Word

/-- Settles O25: both forms have the same job, and latching the dispatched word before it or after it comes to the same. -/
theorem dispatchEquivalence : Obligations.DispatchEquivalence := by
  intro dir w s word dispatched direct
  have hdirect : commandJob (directInstr dir w) = some (dir, w) := commandJob_of_width (.inr rfl)
  have hdispatched : commandJob (dispatchedInstr dir w.bits) = some (dir, w) := commandJob_of_width (.inl rfl)
  have hword : dispatched = word (encode (dispatchedInstr dir w.bits)) direct := (withCommand_withCommand _ _ s).symm
  have hexec : exec (dispatchedInstr dir w.bits) dispatched =
      mapNext (word (encode (dispatchedInstr dir w.bits))) (exec (directInstr dir w) direct) := by
    rw [hword]
    exact exec_withCommand hdirect hdispatched _
  exact ⟨fun t ht => hexec.trans (congrArg (mapNext _) ht), fun f hf => hexec.trans (congrArg (mapNext _) hf)⟩

end Sys2Proof.Machine

/-! PROOFS of the exceptions family. Races between blocks; the precise error completion; register accesses that spell no register; what
a host write stores; the one block that a step may change. -/

namespace Sys2Proof.Machine

/-! ### Races between blocks (R186, R206) -/

/-- The hazard of R206 byte by byte: a byte written that lies in either range, or a byte read that the other command writes. -/
theorem windowsRace_iff {mine v : Window} : windowsRace mine v = true ↔
    ∃ a, (rangeHas (destRange mine) a = true ∧ (rangeHas v.sym a = true ∨ rangeHas v.pkd a = true)) ∨
      (rangeHas (sourceRange mine) a = true ∧ rangeHas (destRange v) a = true) := by
  simp only [windowsRace, Bool.or_eq_true, rangesMeet_iff, and_or_left, exists_or]

theorem racesOthers_iff {s : State} {k : Nat} {mine : Window} : racesOthers s k mine = true ↔
    ∃ (j : Nat) (b : Inst) (v : Window), j ≠ k ∧ s.insts[j]? = some b ∧ v ∈ b.windows ∧ windowsRace mine v = true := by
  simp only [racesOthers, otherInsts, List.any_eq_true, List.mem_eraseIdx_iff_getElem?]
  constructor
  · rintro ⟨b, ⟨j, hj, hb⟩, v, hv, hrace⟩
    exact ⟨j, b, v, hj, hb, hv, hrace⟩
  · rintro ⟨j, b, v, hj, hb, hv, hrace⟩
    exact ⟨b, ⟨j, hj, hb⟩, v, hv, hrace⟩

theorem accessFault_of_race {s : State} {v : Window} (hapart : rangesMeet v.sym v.pkd = false)
    (hsym : rangeAdmitted s.plat v.sym = true) (hpkd : rangeAdmitted s.plat v.pkd = true)
    (hrace : racesOthers s s.turn v = true) : accessFault s v = some .bufferRace := by
  simp [accessFault, hapart, hsym, hpkd, hrace]

/-- Settles O30: a race is a byte touched in some window of another block, and past Overlap and BusFault it is the fault raised. -/
theorem blocksRace : Obligations.BlocksRace := by
  intro i dir w s hj mine touches
  refine ⟨fun k b v a hfit hapart hsym hpkd hk hb hv ha => ?_, fun hnone => ?_⟩
  · have hrace : racesOthers s s.turn mine = true :=
      racesOthers_iff.2 ⟨k, b, v, hk, hb, hv, windowsRace_iff.2 ⟨a, ha⟩⟩
    exact exec_of_accessFault hj hfit (accessFault_of_race hapart hsym hpkd hrace)
  · rw [← Bool.not_eq_true, racesOthers_iff]
    rintro ⟨k, b, v, hk, hb, hv, hrace⟩
    obtain ⟨a, ha⟩ := windowsRace_iff.1 hrace
    exact hnone k b v a hk hb hv ha

/-! ### Error completions (R175) -/

/-- Settles O32: every way to an error code is a failed command, since a command that stored reports OK. -/
theorem errorsArePrecise : Obligations.ErrorsArePrecise := by
  intro i s t hk h herr
  rcases exec_next h with ⟨_, dir, _, rfl⟩ | ⟨dir, w, _, hout⟩
  · exact ⟨.ewidth, failCommand_spec (by decide) _ hk⟩
  · cases hout with
    | error code hc ne ht => exact ⟨code, ht ▸ failCommand_spec ne _ hk⟩
    | stored bs drawn ok clear len draw ht => exact absurd (ht ▸ completeOk_err w _) herr

/-! ### Accesses that spell no register (R23, R178) -/

theorem regAt_of_misaligned {o : Nat} (h : o % 4 ≠ 0) : regAt o = none := by
  unfold regAt
  split
  case h_9 => rfl
  all_goals exact absurd rfl h

theorem findReg_of_size {a size : Nat} (s : State) (h : size ≠ 4) : findReg s a size = none := by
  unfold findReg
  split
  · rfl
  · exact if_neg h

theorem findReg_of_misaligned {s : State} {b : Inst} {a : Nat} (size : Nat) (hs : s.windowsApart) (hb : b ∈ s.insts)
    (ha : inWindow b a = true) (hoff : (a - b.regBase) % 4 ≠ 0) : findReg s a size = none := by
  obtain ⟨k, hk, rfl⟩ := List.getElem_of_mem hb
  rw [← getInst_eq_getElem hk] at ha hoff
  simp [findReg, findIdx?_inWindow hs hk ha, regAt_of_misaligned hoff]

theorem findReg_of_outside {s : State} {a : Nat} (size : Nat) (h : ∀ b ∈ s.insts, inWindow b a = false) :
    findReg s a size = none := by
  have hnone : s.insts.findIdx? (fun b => inWindow b a) = none := List.findIdx?_eq_none_iff.2 h
  simp [findReg, hnone]

theorem step_of_bad_regWrite {s : State} {a size : Nat} {v : Word} {rest : List Input}
    (h : HostMoves (.regWrite a size v) rest s) (hf : findReg s a size = none) : step s = .refused .registerAccess := by
  have hf' : findReg { s with inputs := rest } a size = none := hf
  simp [step_of_hostMoves h, hostStep, hf']

theorem step_of_bad_regRead {s : State} {a size : Nat} {rest : List Input}
    (h : HostMoves (.regRead a size) rest s) (hf : findReg s a size = none) : step s = .refused .registerAccess := by
  have hf' : findReg { s with inputs := rest } a size = none := hf
  simp [step_of_hostMoves h, hostStep, hf']

/-- Settles O38: each of the three kinds of access spells no register, and a refusal leaves only the mark. -/
theorem badAccessesRefused : Obligations.BadAccessesRefused := by
  intro s a size v rest hs hbad
  have hnone : findReg s a size = none := by
    rcases hbad with hsize | ⟨b, hb, hle, hlt, hoff⟩ | hout
    · exact findReg_of_size s hsize
    · exact findReg_of_misaligned size hs hb (inWindow_iff.2 ⟨hle, hlt⟩) hoff
    · refine findReg_of_outside size fun b hb => ?_
      rw [← Bool.not_eq_true, inWindow_iff]
      exact hout b hb
  refine ⟨fun h => ?_, fun h => ?_⟩
  · have hstep := step_of_bad_regWrite h hnone
    exact ⟨hstep, advance_of_refusal hstep⟩
  · have hstep := step_of_bad_regRead h hnone
    exact ⟨hstep, advance_of_refusal hstep⟩

/-! ### Host writes (R190) -/

theorem writeRaces_eq_false_iff {s : State} {r : Range} : writeRaces s r = false ↔
    ∀ c ∈ s.insts, ∀ v ∈ c.windows, rangesMeet r v.sym = false ∧ rangesMeet r v.pkd = false := by
  simp only [writeRaces, openWindows, List.any_flatMap, List.any_eq_false, Bool.not_eq_true, Bool.or_eq_false_iff]

/-- A host write of admitted bytes that breaks no hazard stores them; where COHERENT is false they become uncleaned (R64, R67). -/
theorem hostMemWrite_of_clear {a : Nat} {bs : List Byte} {s : State} (hrace : writeRaces s ⟨a, bs.length⟩ = false)
    (hadmit : rangeAdmitted s.plat ⟨a, bs.length⟩ = true) : hostMemWrite a bs s = .next { s with
      mem := writeBytes s.mem a bs
      uncleaned := if s.plat.coherent then s.uncleaned else addAddrs ⟨a, bs.length⟩ s.uncleaned } := by
  simp only [hostMemWrite, hrace, hadmit]
  cases s.plat.coherent <;> rfl

/-- Settles O49: the write's own state, read at a byte inside the range and at one outside. -/
theorem hostWriteStores : Obligations.HostWriteStores := by
  intro s addr bs rest h hadmit hapart
  have hrace : writeRaces s ⟨addr, bs.length⟩ = false := writeRaces_eq_false_iff.2 hapart
  refine ⟨_, (step_of_hostMoves h).trans (hostMemWrite_of_clear hrace hadmit), rfl, rfl, rfl, ?_, ?_, ?_, ?_⟩
  · exact fun j hj => readByte_writeBytes_inside _ _ _ _ hj
  · refine fun a ha => readByte_writeBytes_outside _ _ _ _ ?_
    rwa [← Bool.not_eq_true, rangeHas_iff] at ha
  · exact fun hc => if_pos hc
  · intro hc x
    simp [hc, mem_addAddrs]

/-! ### The block that a step may change (R186) -/

/-- A completion step changes no block but the one that takes it. -/
theorem completeStep_other_block {k j : Nat} {s t : State} (h : completeStep k s = .next t) (hj : j ≠ k) :
    t.insts[j]? = s.insts[j]? := by
  rcases completeStep_next h with ⟨_, rfl⟩ | ⟨_, _, rfl⟩ | ⟨_, i, _, hexec⟩
  · rfl
  · exact (completeError_elsewhere .ecmd { s with turn := k }).others j hj
  · exact (exec_elsewhere hexec).others j hj

/-- An operation of the outside world changes at most the block whose register or reset it addresses. -/
theorem hostStep_one_block {op : HostOp} {s t : State} (h : hostStep op s = .next t) :
    ∃ k : Nat, ∀ j : Nat, j ≠ k → t.insts[j]? = s.insts[j]? := by
  cases hostStep_next h with
  | register k b y present ht => exact ⟨k, fun j hj => ht ▸ List.getElem?_set_ne hj.symm⟩
  | memory m n y u l ht => exact ⟨0, fun j _ => ht ▸ rfl⟩
  | reset k v present busy flight ht => exact ⟨k, fun j hj => ht ▸ List.getElem?_set_ne hj.symm⟩

/-- Settles O58: the agent that moved is one block, or the outside world at one block at most, or none. -/
theorem oneBlockPerStep : Obligations.OneBlockPerStep := by
  intro s t h
  rcases step_next h with ⟨k, rest, _, hblock⟩ | ⟨op, rest, hhost⟩ | rfl
  · exact ⟨k, fun j hj => completeStep_other_block (s := { s with inputs := rest }) hblock hj⟩
  · exact hostStep_one_block (s := { s with inputs := rest }) hhost
  · exact ⟨0, fun _ _ => rfl⟩

end Sys2Proof.Machine

/-! PROOFS of the reset family. The count of Busy blocks after a completion step; host accesses under the buffer hazard; reset of an Idle
and of a Busy block. -/

namespace Sys2Proof.Machine

/-! ### Busy blocks (R214) -/

/-- A command completes in its own block, whichever its code (R103, R106). -/
theorem exec_next_insts {i : Instr} {s t : State} (h : exec i s = .next t) :
    ∃ code n, t.insts = s.insts.set s.turn (completeRegs code n (activeInst s)) := by
  rcases exec_next h with ⟨_, dir, _, rfl⟩ | ⟨dir, w, _, hjob⟩
  · exact ⟨.ewidth, 0, rfl⟩
  · cases hjob with
    | error code hc ne ht => exact ⟨code, 0, ht ▸ rfl⟩
    | stored bs drawn ok clear len draw ht => exact ⟨.ok, packedSize w (countOf s), ht ▸ by simp⟩

/-- The completion step of a Busy block that answers a next state completes its command and schedules nothing. -/
theorem completeStep_next_of_busy {k : Nat} {s t : State} (hp : (getInst s k).phase = .busy) (h : completeStep k s = .next t) :
    t.inputs = s.inputs ∧ ∃ code n, t.insts = s.insts.set k (completeRegs code n (getInst s k)) := by
  rcases completeStep_next h with ⟨hidle, _⟩ | ⟨_, _, rfl⟩ | ⟨_, i, _, hexec⟩
  · exact absurd (hp.symm.trans hidle) (by decide)
  · exact ⟨rfl, .ecmd, 0, rfl⟩
  · exact ⟨(exec_elsewhere hexec).inputs, exec_next_insts hexec⟩

theorem busyBlocks_set_idle {k : Nat} {b : Inst} {s t : State} (hk : k < s.insts.length) (hp : (getInst s k).phase = .busy)
    (hb : b.phase = .idle) (ht : t.insts = s.insts.set k b) : t.busyBlocks + 1 = s.busyBlocks := by
  rw [getInst_eq_getElem hk] at hp
  have hpos : 0 < s.insts.countP (fun c => c.phase = .busy) :=
    List.countP_pos_iff.2 ⟨s.insts[k], List.getElem_mem hk, by simpa using hp⟩
  simp only [State.busyBlocks, ← List.countP_eq_length_filter, ht, List.countP_set hk, hp, hb]
  simpa using Nat.sub_add_cancel hpos

theorem busyBlocks_of_firstBusy_none {s : State} (h : firstBusy s = none) : s.busyBlocks = 0 := by
  rw [State.busyBlocks, List.length_eq_zero_iff, List.filter_eq_nil_iff]
  intro b hb
  simp [firstBusy_none h b hb]

/-- With nothing scheduled, the step is the completion step of the block that `firstBusy` finds (R214; log 6). -/
theorem step_of_firstBusy {k : Nat} {s : State} (hs : s.Sound) (hi : s.inputs = []) (hk : firstBusy s = some k) :
    step s = completeStep k s := by
  simp [step, pick, pickSound, hs.unmarked, hs.unfaulted, hi, hk]

/-- Settles O9: the step completes the command of the lowest Busy block, which is then Idle. -/
theorem busyBlocksComplete : Obligations.BusyBlocksComplete := by
  intro s t hs hi hpos h
  cases hf : firstBusy s with
  | none => exact absurd (busyBlocks_of_firstBusy_none hf) hpos.ne'
  | some k =>
    obtain ⟨hk, hp⟩ := firstBusy_some hf
    rw [step_of_firstBusy hs hi hf] at h
    obtain ⟨hinputs, code, n, hinsts⟩ := completeStep_next_of_busy hp h
    exact ⟨hinputs.trans hi, busyBlocks_set_idle hk hp rfl hinsts⟩

/-! ### Host accesses under the buffer hazard (R206) -/

theorem readRaces_eq_false_iff {s : State} {r : Range} : readRaces s r = false ↔
    ∀ c ∈ s.insts, ∀ v ∈ c.windows, rangesMeet r (destRange v) = false := by
  simp only [readRaces, openWindows, List.any_flatMap, List.any_eq_false, Bool.not_eq_true]

theorem writeRaces_of_mem {s : State} {r : Range} {b : Inst} {v : Window} {x : Nat} (hb : b ∈ s.insts) (hv : v ∈ b.windows)
    (hr : rangeHas r x = true) (hx : rangeHas v.sym x = true ∨ rangeHas v.pkd x = true) : writeRaces s r = true := by
  simp only [writeRaces, openWindows, List.any_flatMap, List.any_eq_true, Bool.or_eq_true, rangesMeet_iff]
  exact ⟨b, hb, v, hv, hx.imp (fun hsym => ⟨x, hr, hsym⟩) fun hpkd => ⟨x, hr, hpkd⟩⟩

theorem readRaces_of_mem {s : State} {r : Range} {b : Inst} {v : Window} {x : Nat} (hb : b ∈ s.insts) (hv : v ∈ b.windows)
    (hr : rangeHas r x = true) (hx : rangeHas (destRange v) x = true) : readRaces s r = true := by
  simp only [readRaces, openWindows, List.any_flatMap, List.any_eq_true, rangesMeet_iff]
  exact ⟨b, hb, v, hv, x, hr, hx⟩

theorem hostMemWrite_of_race {a : Nat} {bs : List Byte} {s : State} (h : writeRaces s ⟨a, bs.length⟩ = true) :
    hostMemWrite a bs s = .fault .bufferRace := by
  simp [hostMemWrite, h]

/-- Only past the hazard is a byte that is not admitted a BusFault (log 15). -/
theorem hostMemWrite_of_not_admitted {a : Nat} {bs : List Byte} {s : State} (hrace : writeRaces s ⟨a, bs.length⟩ = false)
    (hadmit : rangeAdmitted s.plat ⟨a, bs.length⟩ = false) : hostMemWrite a bs s = .fault .busFault := by
  simp [hostMemWrite, hrace, hadmit]

theorem hostMemRead_of_race {a n : Nat} {s : State} (h : readRaces s ⟨a, n⟩ = true) :
    hostMemRead a n s = .fault .bufferRace := by
  simp [hostMemRead, h]

/-- A read that breaks neither the hazard of R206 nor the duty of R67 is decided by `MemAdmit` alone (log 15). -/
theorem hostMemRead_of_clear {a n : Nat} {s : State} (hrace : readRaces s ⟨a, n⟩ = false)
    (hfresh : ∀ x ∈ s.stale, rangeHas ⟨a, n⟩ x = false) : hostMemRead a n s =
      if rangeAdmitted s.plat ⟨a, n⟩ then .next { s with reply := .bytes (readBytes s.mem a n) } else .fault .busFault := by
  have hstale : s.stale.any (rangeHas ⟨a, n⟩) = false := by simpa using hfresh
  cases hadmit : rangeAdmitted s.plat ⟨a, n⟩ <;> simp [hostMemRead, hrace, hstale, hadmit]

/-- Settles O48: a byte shared with an open range is a race; past the races, what decides is whether the bytes are admitted. -/
theorem bufferHazard : Obligations.BufferHazard := by
  intro s addr n bs rest
  refine ⟨fun x b v hb hv => ⟨fun h hr hx => ?_, fun h hr hx => ?_⟩, fun h hadmit hfresh hclear => ?_,
    fun h hadmit hclear => ?_, fun h hadmit hfresh hclear => ?_⟩ <;> rw [step_of_hostMoves h, hostStep]
  · exact hostMemWrite_of_race (writeRaces_of_mem (s := { s with inputs := rest }) hb hv hr hx)
  · exact hostMemRead_of_race (readRaces_of_mem (s := { s with inputs := rest }) hb hv hr hx)
  · exact (hostMemRead_of_clear (s := { s with inputs := rest }) (readRaces_eq_false_iff.2 hclear) hfresh).trans
      (if_pos hadmit)
  · exact hostMemWrite_of_not_admitted (writeRaces_eq_false_iff.2 hclear) hadmit
  · exact (hostMemRead_of_clear (s := { s with inputs := rest }) (readRaces_eq_false_iff.2 hclear) hfresh).trans
      (if_neg (ne_true_of_eq_false hadmit))

/-! ### Reset of a block (R200 to R202) -/

theorem resetBlock_of_idle {k : Nat} {s : State} (hk : k < s.insts.length) (hp : (getInst s k).phase = .idle) :
    resetBlock k s = .next (setInst s k (resetRegs (getInst s k))) := by
  simp [resetBlock, hk.not_ge, hp]

theorem resetBlock_of_busy {k : Nat} {s : State} (hk : k < s.insts.length) (hp : (getInst s k).phase = .busy)
    (hrace : racesOthers s k (flightWindow s.plat (getInst s k)) = false) : resetBlock k s =
      .next (setInst (abandonRange (destRange (flightWindow s.plat (getInst s k))) s) k (resetRegs (getInst s k))) := by
  simp [resetBlock, hk.not_ge, hp, hrace]

/-- Each byte of an abandoned destination that the address space has holds the draw of its place (R201). -/
theorem readByte_abandonRange_inside {r : Range} {s : State} {j : Nat} (hj : j < r.len)
    (ha : r.base + j < addrLimit s.plat) : readByte (abandonRange r s).mem (r.base + j) = Config.draw8 (s.draws + j) := by
  rw [abandonRange_mem]
  exact readByte_scatterDraws_inside s.mem r.base _ s.draws j (Nat.lt_min.2 ⟨hj, by omega⟩)

theorem readByte_abandonRange_outside {r : Range} {s : State} {a : Nat} (h : rangeHas r a = false) :
    readByte (abandonRange r s).mem a = readByte s.mem a := by
  rw [abandonRange_mem]
  refine readByte_scatterDraws_outside _ _ _ _ fun hmem => ?_
  exact absurd (mem_cutRange.1 hmem).1 (by simp [h])

theorem mem_abandonRange_stale {r : Range} {s : State} (hc : s.plat.coherent = false) {a : Nat} :
    a ∈ (abandonRange r s).stale ↔ a ∈ s.stale ∨ (rangeHas r a = true ∧ a < addrLimit s.plat) := by
  simp [hc, mem_addAddrs, rangeHas_cutRange]

theorem mem_abandonRange_uncleaned {r : Range} {s : State} (hc : s.plat.coherent = false) {a : Nat} :
    a ∈ (abandonRange r s).uncleaned ↔ a ∈ s.uncleaned ∧ ¬(rangeHas r a = true ∧ a < addrLimit s.plat) := by
  simp [hc, mem_dropAddrs, ← Bool.not_eq_true, rangeHas_cutRange]

/-- Settles O54: a scheduled reset moves in a faulted state too, and an Idle block has no destination to lose. -/
theorem idleReset : Obligations.IdleReset := by
  intro s k rest hr hi hk hp
  rw [step_of_reset hr hi]
  exact resetBlock_of_idle (s := { s with inputs := rest }) hk hp

/-- Settles O55: the reset abandons the destination that the latched word and operands give, and then resets the block's registers. -/
theorem busyReset : Obligations.BusyReset := by
  intro s k rest hr hi hk hp hrace b dest
  refine ⟨fun i w hd hj => ?_, fun i w hd hj => ?_, _,
    (step_of_reset hr hi).trans (resetBlock_of_busy (s := { s with inputs := rest }) hk hp hrace), ?_, ?_, ?_, ?_, ?_, ?_⟩
  · exact congrArg destRange (flightWindow_of_decode hd hj)
  · exact congrArg destRange (flightWindow_of_decode hd hj)
  · rfl
  · rfl
  · exact fun j hj ha => readByte_abandonRange_inside (s := { s with inputs := rest }) hj ha
  · exact abandonRange_draws dest { s with inputs := rest }
  · exact fun a ha => readByte_abandonRange_outside ha
  · exact fun hc x => ⟨mem_abandonRange_stale (s := { s with inputs := rest }) hc,
      mem_abandonRange_uncleaned (s := { s with inputs := rest }) hc⟩

end Sys2Proof.Machine
